-- ==== Sys2Proof/Word.lean ====
section
/-! DEFINITION. The fixed-width words of the block (spec 00_scope R7, R8: bit 0 is the least significant bit). -/

namespace Sys2Proof

/-- A stream byte, `u8`. -/
abbrev Byte := BitVec 8

/-- A nibble, `u4`: one compressed sample (30_encoding R84). -/
abbrev Nibble := BitVec 4

/-- A 16-bit word: a predictor or sample (`s16`, read with `toInt`), a step size or a magnitude (`u16`, read with `toNat`). -/
abbrev Half := BitVec 16

/-- A 32-bit word: a cursor, a length, a memory offset, a register as the host sees it (`u32`). -/
abbrev Word := BitVec 32

end Sys2Proof
end

