-- ==== Sys2Proof/Syntax.lean ====
section
/-! DEFINITION. The units of the stream and the host's commands: one constructor for each row of opcode_table.json. -/

namespace Sys2Proof

/-- A channel (00_scope R10): channel 0 is the left one and the only one of a mono stream, channel 1 the right one. -/
inductive Channel where
  | ch0
  | ch1
deriving DecidableEq, Repr

/-- The channel's number. -/
def Channel.num : Channel → Nat
  | .ch0 => 0
  | .ch1 => 1

/-- The one mode that changes decoding (30_encoding R95): mono is `NCH = 1`, stereo is `NCH = 2`. -/
inductive Mode where
  | mono
  | stereo
deriving DecidableEq, Repr

/-- How many channels a mode has, `NCH`. -/
def Mode.channels : Mode → Nat
  | .mono => 1
  | .stereo => 2

/-- One channel's preamble unit, 4 bytes, by its fields (30_encoding R82). -/
structure Preamble where
  /-- `P_LO`, the low byte of the initial predictor. -/
  pLo : Byte
  /-- `P_HI`, the high byte of the initial predictor. -/
  pHi : Byte
  /-- `I0`, the initial step index before clamping. -/
  i0 : Byte
  /-- `RSVD`, the reserved byte, expected to be zero. -/
  rsvd : Byte
deriving DecidableEq, Repr

/-- The preamble units that stand at one block boundary, one per channel, channel 0 first (30_encoding R83). -/
inductive PreUnits where
  | mono (u : Preamble)
  | stereo (left right : Preamble)
deriving DecidableEq, Repr

/-- The mode whose blocks begin with these units. -/
def PreUnits.mode : PreUnits → Mode
  | .mono _ => .mono
  | .stereo _ _ => .stereo

/-- The units in order, channel 0 first. -/
def PreUnits.units : PreUnits → List Preamble
  | .mono u => [u]
  | .stereo l r => [l, r]

/-- The instructions: the rows of opcode_table.json. A nibble code carries the channel that the sequencer supplies;
`pre` and `stop` carry all the preamble units of one block boundary, which one boundary step reads together (log 14). -/
inductive Instr where
  | n0 (c : Channel)
  | n1 (c : Channel)
  | n2 (c : Channel)
  | n3 (c : Channel)
  | n4 (c : Channel)
  | n5 (c : Channel)
  | n6 (c : Channel)
  | n7 (c : Channel)
  | n8 (c : Channel)
  | n9 (c : Channel)
  | nA (c : Channel)
  | nB (c : Channel)
  | nC (c : Channel)
  | nD (c : Channel)
  | nE (c : Channel)
  | nF (c : Channel)
  /-- `PRE`: every reserved byte is zero (42_block_framer R166). -/
  | pre (u : PreUnits)
  /-- `STOP`: some reserved byte is not zero (42_block_framer R165). -/
  | stop (u : PreUnits)
  /-- `DB`, the mono data byte (30_encoding R88). -/
  | db (b : Byte)
  /-- `DG`, the stereo group `g[0] .. g[7]` (30_encoding R89). -/
  | dg (g0 g1 g2 g3 g4 g5 g6 g7 : Byte)
  /-- `END`: the input is used up at a block boundary; no bytes (42_block_framer R162). -/
  | endInput
  /-- `START`: a `CTRL` write with bits 1:0 = 01; `x` is bits 31:2, which are ignored (44_host_commands R210, R211). -/
  | start (x : BitVec 30)
  /-- `RESET`: a `CTRL` write with bit 1 = 1; `x` is bits 31:2 and `startBit` bit 0, all ignored (44_host_commands R210, R213). -/
  | reset (x : BitVec 30) (startBit : Bool)
deriving DecidableEq, Repr

end Sys2Proof
end

