-- ==== Sys2Proof/WellFormed.lean ====
section
/-! DEFINITION. Which instruction terms are real units: only the reserved byte of a preamble parts `PRE` from `STOP`. -/

namespace Sys2Proof

/-- Every channel's reserved byte is zero (30_encoding R92, row `PRE`; R87: the byte is compared with zero as a whole). -/
def PreUnits.allReservedZero (u : PreUnits) : Bool :=
  u.units.all fun p => p.rsvd == 0

/-- What a well-formed instruction meets: a `PRE` has only zero reserved bytes, a `STOP` has at least one that is not
zero; no other unit has an ill-formed term (30_encoding R91 to R94). -/
def Instr.wf : Instr → Bool
  | .pre u => u.allReservedZero
  | .stop u => !u.allReservedZero
  | .n0 _ | .n1 _ | .n2 _ | .n3 _ | .n4 _ | .n5 _ | .n6 _ | .n7 _ => true
  | .n8 _ | .n9 _ | .nA _ | .nB _ | .nC _ | .nD _ | .nE _ | .nF _ => true
  | .db _ => true
  | .dg _ _ _ _ _ _ _ _ => true
  | .endInput => true
  | .start _ => true
  | .reset _ _ => true

end Sys2Proof
end

