-- ==== Sys2Proof/Decode.lean ====
section
/-! DEFINITION. The decoder, total on any bytes, and the encoder (30_encoding R80 to R92). Decoding is by position,
not by content (R81), so the decoder takes the place the bytes stand at. -/

namespace Sys2Proof

/-! ### Fields and byte order -/

/-- `b[3:0]`, the nibble decoded first (20_memory R57). -/
def lowNibble (b : Byte) : Nibble := b.extractLsb' 0 4

/-- `b[7:4]`, the nibble decoded second (20_memory R57). -/
def highNibble (b : Byte) : Nibble := b.extractLsb' 4 4

/-- A 16-bit word from its bytes, the low one first (20_memory R54, R55). -/
def halfOf (lo hi : Byte) : Half := BitVec.ofNat 16 (lo.toNat + 256 * hi.toNat)

/-- `p[7:0]`, the byte at the lower address (20_memory R56). -/
def loByte (h : Half) : Byte := h.extractLsb' 0 8

/-- `p[15:8]`, the byte at the higher address (20_memory R56). -/
def hiByte (h : Half) : Byte := h.extractLsb' 8 8

/-- A 32-bit word from its bytes, lowest first (30_encoding R82). -/
def wordOf (b0 b1 b2 b3 : Byte) : Word :=
  BitVec.ofNat 32 (b0.toNat + 2 ^ 8 * b1.toNat + 2 ^ 16 * b2.toNat + 2 ^ 24 * b3.toNat)

/-- The bytes of a 32-bit word, lowest first. -/
def bytesOfWord (w : Word) : List Byte :=
  [w.extractLsb' 0 8, w.extractLsb' 8 8, w.extractLsb' 16 8, w.extractLsb' 24 8]

/-! ### The decoder -/

/-- Where the bytes to decode stand: 30_encoding R81, R92. -/
inductive Place where
  /-- A block boundary with the input used up (`ICUR = ILEN`). -/
  | finished
  /-- A block boundary: preamble units follow. -/
  | boundary (m : Mode)
  /-- The sample region of a block: data units follow. -/
  | region (m : Mode)
  /-- The nibble input of the sample decoder, with the channel the sequencer supplies. -/
  | lane (c : Channel)
  /-- A value written to register 0, `CTRL`. -/
  | ctrl
deriving DecidableEq, Repr

/-- Why bytes are no unit. -/
inductive DecodeError where
  /-- Fewer bytes than the unit at this place has. -/
  | tooShort
  /-- More than four bits given as a nibble. -/
  | nibbleTooWide
  /-- A `CTRL` value with neither command bit set: it does nothing (44_host_commands R210). -/
  | noCommand
deriving DecidableEq, Repr

/-- The decoder's answer: the instruction and the bytes after it, or a rejection by name. -/
inductive Decoded where
  | instr (i : Instr) (rest : List Byte)
  | reject (e : DecodeError)
deriving DecidableEq, Repr

/-- The opcode map of 30_encoding R91. -/
def nibbleInstr (c : Channel) (n : Nibble) : Instr :=
  match n.toNat with
  | 0 => .n0 c
  | 1 => .n1 c
  | 2 => .n2 c
  | 3 => .n3 c
  | 4 => .n4 c
  | 5 => .n5 c
  | 6 => .n6 c
  | 7 => .n7 c
  | 8 => .n8 c
  | 9 => .n9 c
  | 10 => .nA c
  | 11 => .nB c
  | 12 => .nC c
  | 13 => .nD c
  | 14 => .nE c
  | _ => .nF c

/-- `PRE` or `STOP`, by the reserved bytes (30_encoding R87, R92). -/
def boundaryInstr (u : PreUnits) : Instr :=
  if u.allReservedZero then .pre u else .stop u

/-- A value written to `CTRL` (44_host_commands R210): bit 1 is `RESET` whatever bit 0 is, bit 0 alone is `START`, and
a value with both bits 0 is no command. -/
def decodeCtrl (v : Word) : Option Instr :=
  if v.getLsbD 1 then some (.reset (v.extractLsb' 2 30) (v.getLsbD 0))
  else if v.getLsbD 0 then some (.start (v.extractLsb' 2 30))
  else none

/-- The preamble units of a block boundary (30_encoding R82, R83). -/
def decodePreUnits : Mode → List Byte → Option (PreUnits × List Byte)
  | .mono, a0 :: a1 :: a2 :: a3 :: rest => some (.mono ⟨a0, a1, a2, a3⟩, rest)
  | .stereo, a0 :: a1 :: a2 :: a3 :: b0 :: b1 :: b2 :: b3 :: rest =>
    some (.stereo ⟨a0, a1, a2, a3⟩ ⟨b0, b1, b2, b3⟩, rest)
  | _, _ => none

/-- The data unit of a sample region (30_encoding R88, R89). -/
def decodeData : Mode → List Byte → Option (Instr × List Byte)
  | .mono, b :: rest => some (.db b, rest)
  | .stereo, g0 :: g1 :: g2 :: g3 :: g4 :: g5 :: g6 :: g7 :: rest => some (.dg g0 g1 g2 g3 g4 g5 g6 g7, rest)
  | _, _ => none

/-- The instruction that bytes at a place stand for, and the bytes after it. -/
def decode (p : Place) (bs : List Byte) : Decoded :=
  match p with
  | .finished => .instr .endInput bs
  | .boundary m =>
    match decodePreUnits m bs with
    | some (u, rest) => .instr (boundaryInstr u) rest
    | none => .reject .tooShort
  | .region m =>
    match decodeData m bs with
    | some (i, rest) => .instr i rest
    | none => .reject .tooShort
  | .lane c =>
    match bs with
    | b :: rest => if highNibble b = 0 then .instr (nibbleInstr c (lowNibble b)) rest else .reject .nibbleTooWide
    | [] => .reject .tooShort
  | .ctrl =>
    match bs with
    | b0 :: b1 :: b2 :: b3 :: rest =>
      match decodeCtrl (wordOf b0 b1 b2 b3) with
      | some i => .instr i rest
      | none => .reject .noCommand
    | _ => .reject .tooShort

/-! ### The encoder -/

/-- The place an instruction stands at. -/
def placeOf : Instr → Place
  | .n0 c | .n1 c | .n2 c | .n3 c | .n4 c | .n5 c | .n6 c | .n7 c => .lane c
  | .n8 c | .n9 c | .nA c | .nB c | .nC c | .nD c | .nE c | .nF c => .lane c
  | .pre u | .stop u => .boundary u.mode
  | .db _ => .region .mono
  | .dg _ _ _ _ _ _ _ _ => .region .stereo
  | .endInput => .finished
  | .start _ | .reset _ _ => .ctrl

/-- The four bytes of a preamble unit (30_encoding R82). -/
def Preamble.bytes (p : Preamble) : List Byte := [p.pLo, p.pHi, p.i0, p.rsvd]

/-- The bytes of an instruction, from the formats of 30_encoding R82, R83, R88, R89, R91, R92. A nibble, which is no
memory unit (20_memory R57), is given as a byte whose high nibble is zero (log 9). -/
def encode : Instr → List Byte
  | .n0 _ => [0x00]
  | .n1 _ => [0x01]
  | .n2 _ => [0x02]
  | .n3 _ => [0x03]
  | .n4 _ => [0x04]
  | .n5 _ => [0x05]
  | .n6 _ => [0x06]
  | .n7 _ => [0x07]
  | .n8 _ => [0x08]
  | .n9 _ => [0x09]
  | .nA _ => [0x0A]
  | .nB _ => [0x0B]
  | .nC _ => [0x0C]
  | .nD _ => [0x0D]
  | .nE _ => [0x0E]
  | .nF _ => [0x0F]
  | .pre u | .stop u => u.units.flatMap Preamble.bytes
  | .db b => [b]
  | .dg g0 g1 g2 g3 g4 g5 g6 g7 => [g0, g1, g2, g3, g4, g5, g6, g7]
  | .endInput => []
  | .start x => bytesOfWord (x ++ (0b01 : BitVec 2))
  | .reset x startBit => bytesOfWord (x ++ (BitVec.ofBool true ++ BitVec.ofBool startBit))

/-! ### Words as opcode_table.json numbers their bits -/

/-- The bytes of a table word: bits 7:0 first. -/
def tableBytes (nbits w : Nat) : List Byte :=
  (List.range ((nbits + 7) / 8)).map fun k => BitVec.ofNat 8 (w >>> (8 * k))

/-- The place at which a table word is read. The table's rows are told apart by position, which a word alone does not
give; the choice is log 9: no bits are `END`; a value below 16 in one byte is a nibble code; any other byte is a mono
data byte; 64 bits are a stereo group; 32 bits are a mono preamble unit, unless bits 31:24 are zero and a command bit
is set, which is a `CTRL` write. -/
def tablePlace (nbits w : Nat) : Option Place :=
  if nbits = 0 then some .finished
  else if nbits ≤ 8 then
    if w < 16 then some (.lane .ch0) else some (.region .mono)
  else if nbits = 32 then
    if w / 2 ^ 24 % 2 ^ 8 = 0 ∧ w % 4 ≠ 0 then some .ctrl else some (.boundary .mono)
  else if nbits = 64 then some (.region .stereo)
  else none

/-- The instruction the decoder reads from a table word. -/
def decodeTableWord (nbits w : Nat) : Option Instr :=
  match tablePlace nbits w with
  | none => none
  | some p =>
    match decode p (tableBytes nbits w) with
    | .instr i _ => some i
    | .reject _ => none

end Sys2Proof
end

