-- ==== Sys2Proof/Config.lean ====
section
/-! DEFINITION. The model arguments of 00_scope R6 (the two tables and `IDX_BYTE_SIGNED`) and the free values. -/

namespace Sys2Proof

/-- What 00_scope R6 calls model arguments. 40_luts R115: of the tables the rules need only the sizes and the
entry widths, which the types say. -/
structure Config where
  /-- `STEP_LUT`, 89 unsigned entries (40_luts R110, R111). -/
  stepLut : Vector Half 89
  /-- `ADJ_LUT`, 16 signed entries (40_luts R110, R113). -/
  adjLut : Vector Byte 16
  /-- `IDX_BYTE_SIGNED`: whether the preamble's index byte is read as signed (30_encoding R86). -/
  idxByteSigned : Bool
deriving DecidableEq, Repr

/-- FREE VALUE: what a predictor register holds after `START` has left it with "no value" (44_host_commands R211),
numbered by `State.draws` (log 5). -/
opaque Config.freePred : Nat → Half

/-- FREE VALUE: what a step index register holds after `START` has left it with "no value", within the type of
numbers below 89 that 10_state R23 asks for (log 5). -/
opaque Config.freeIdx : Nat → Fin 89

/-- FREE VALUE: the byte of `IMEM` at an offset nothing has written since power-on (10_state R38, "unspecified"; log 6). -/
opaque Config.powerOnIMem : Nat → Byte

/-- FREE VALUE: the byte of `OMEM` at an offset nothing has written since power-on (10_state R38, "unspecified"; log 6). -/
opaque Config.powerOnOMem : Nat → Byte

end Sys2Proof
end

