-- ==== Sys2Proof/Machine/Tables.lean ====
section
/-! DEFINITION. The default contents of the two tables (40_luts R112, R114). -/

namespace Sys2Proof.Machine

/-- The default entries of `STEP_LUT`, ten a row as 40_luts R112 prints them. -/
def defaultStepEntries : List Half :=
  [7, 8, 9, 10, 11, 12, 13, 14, 16, 17] ++
  [19, 21, 23, 25, 28, 31, 34, 37, 41, 45] ++
  [50, 55, 60, 66, 73, 80, 88, 97, 107, 118] ++
  [130, 143, 157, 173, 190, 209, 230, 253, 279, 307] ++
  [337, 371, 408, 449, 494, 544, 598, 658, 724, 796] ++
  [876, 963, 1060, 1166, 1282, 1411, 1552, 1707, 1878, 2066] ++
  [2272, 2499, 2749, 3024, 3327, 3660, 4026, 4428, 4871, 5358] ++
  [5894, 6484, 7132, 7845, 8630, 9493, 10442, 11487, 12635, 13899] ++
  [15289, 16818, 18500, 20350, 22385, 24623, 27086, 29794, 32767]

/-- The default entries of `ADJ_LUT` (40_luts R114). -/
def defaultAdjEntries : List Byte :=
  [-1, -1, -1, -1, 2, 4, 6, 8] ++ [-1, -1, -1, -1, 2, 4, 6, 8]

/-- The default configuration (00_scope R6; 40_luts R112, R114): the spec marks the table contents "from general
knowledge, not in source" (log 7, PRESUMED, unsafe). -/
def defaultConfig : Config where
  stepLut := ⟨defaultStepEntries.toArray, by decide⟩
  adjLut := ⟨defaultAdjEntries.toArray, by decide⟩
  idxByteSigned := false

end Sys2Proof.Machine
end

