-- ==== Sys2Proof/Machine/State.lean ====
section
/-! DEFINITION. The state of one `ADPCMDEC` instance (10_state R20), the reasons a step can stop, and reset (10_state R38). -/

namespace Sys2Proof.Machine

/-- `STATE`, bits 1:0 of `STATUS` (10_state R33). -/
inductive RunState where
  | idle
  | run
  | done
  | fault
deriving DecidableEq, Repr

/-- `CAUSE`, bits 6:4 of `STATUS` (10_state R34). -/
inductive Cause where
  | noCause
  | endOfInput
  | reservedStop
  | invalidConfig
  | invalidInput
deriving DecidableEq, Repr

/-- The pair of registers of one channel, `PRED[c]` and `IDX[c]` (10_state R21, R22). -/
structure ChannelState where
  /-- `PRED[c]`, `s16`. -/
  pred : Half
  /-- `IDX[c]`, with the type of numbers below 89 that 10_state R23 asks for. -/
  idx : Fin 89
  /-- Whether the two registers hold a value (10_state R25): false after reset and `START`, true once written. -/
  loaded : Bool
deriving DecidableEq, Repr

/-- A byte memory: the bytes that have been written, by offset. Its canonical form is `Memory.wf` (Machine/Ops.lean). -/
abbrev Memory := List Host.Cell

/-- One entry of the list that says which agent moves next (log 1). -/
inductive Input where
  /-- The host makes no move: the decoder takes its step. -/
  | decoder
  /-- The host writes a register by number (10_state R30). -/
  | writeReg (n : Nat) (v : Word)
  /-- The host reads a register by number (10_state R30). -/
  | readReg (n : Nat)
  /-- The host writes a byte of `IMEM` (20_memory R51). -/
  | writeIMem (a : Word) (b : Byte)
  /-- The host reads a byte of `IMEM` (44_host_commands R216, "read anything"). -/
  | readIMem (a : Word)
  /-- The host reads a byte of `OMEM` (20_memory R53). -/
  | readOMem (a : Word)
  /-- A nibble presented to the sample decoder alone, outside a `DB` or `DG` (41_sample_decoder R120). The MODEL's own
  entry, a move of neither agent: it lets a nibble row of the opcode table be run by itself, and it is taken only while
  `STATE` is not `RUN` (log 8). -/
  | nibble (c : Channel) (n : Nibble)
deriving DecidableEq, Repr

/-- The machine's state. -/
@[ext]
structure State where
  /-- Channel 0's registers, `PRED[0]` and `IDX[0]`. -/
  ch0 : ChannelState
  /-- Channel 1's registers, `PRED[1]` and `IDX[1]`. -/
  ch1 : ChannelState
  /-- `ICUR`, the input cursor (10_state R26). -/
  icur : Word
  /-- `OLEN`, the output cursor and result length (10_state R28). -/
  olen : Word
  /-- `STATE` (10_state R33). -/
  runState : RunState
  /-- `CAUSE` (10_state R34). -/
  cause : Cause
  /-- `NCH`, the channel count (10_state R31). -/
  nch : Half
  /-- `FSZ`, the block size in bytes (10_state R31). -/
  fsz : Half
  /-- `ILEN`, the input length in bytes (10_state R31). -/
  ilen : Word
  /-- `IMEM`, the input byte memory (20_memory R50). -/
  imem : Memory
  /-- `OMEM`, the output byte memory (20_memory R50). -/
  omem : Memory
  /-- The model arguments of 00_scope R6, which no step writes (log 7). -/
  cfg : Config
  /-- MODEL's own: the pending moves, oldest first (log 1). -/
  inputs : List Input
  /-- MODEL's own: the values host reads have returned, newest first (log 2). -/
  replies : List Word
  /-- MODEL's own: numbers the free values drawn (log 5). -/
  draws : Nat
deriving DecidableEq, Repr

/-- Reasons a step stops with a fault. The block's own two faults, `INVALID_CONFIG` and `INVALID_INPUT`, are not here:
their entry is a next state (60_exceptions R256). -/
inductive Fault where
  /-- The decoder would read `IMEM` at or beyond `ILEN`, where `IMemRead` is not defined (20_memory R52). Raised by
  `decoderStep` only, in states no run reaches (42_block_framer R170). Safe (log 11). -/
  | inputOutOfRange
deriving DecidableEq, Repr

/-- Reasons the model gives a step no meaning. -/
inductive Refusal where
  /-- An instruction that has no meaning yet; raised by `exec` only. Safe. -/
  | notModelled (mnemonic : String)
  /-- A host access to a memory during `RUN`: 44_host_commands R216 forbids a write of `IMEM` and a read of `OMEM`, and
  20_memory R59 any access of another agent to either memory; the spec "gives such a run no meaning"
  (93_implementation_defined U9). Raised by `hostMove` only. Safe (log 12). -/
  | hostBreach
  /-- The model's own nibble entry during `RUN`, where the decoder alone moves the channel registers (00_scope R12;
  10_state R21, R22). Raised by `hostMove` only. Safe (log 8). -/
  | nibbleInRun
deriving DecidableEq, Repr

/-- A channel's registers after reset: they hold no value (10_state R38); the contents 0 are a DESIGN CHOICE (log 4). -/
def ChannelState.reset : ChannelState where
  pred := 0
  idx := 0
  loaded := false

/-- The machine right after power-on (10_state R38; 70_reset_and_hazards R280). Nothing is listed in the memories:
their contents are unspecified (log 6). -/
def State.reset : State where
  ch0 := ChannelState.reset
  ch1 := ChannelState.reset
  icur := 0
  olen := 0
  runState := .idle
  cause := .noCause
  nch := 0
  fsz := 0
  ilen := 0
  imem := []
  omem := []
  cfg := defaultConfig
  inputs := []
  replies := []
  draws := 0

end Sys2Proof.Machine
end

