-- ==== Sys2Proof/Machine/Ops.lean ====
section
/-! DEFINITION. The named operations over the memories and the registers (20_memory; 10_state R30 to R32), the entry of
a fault and the only way out of one (60_exceptions R256, R258). -/

namespace Sys2Proof.Machine

/-! ### Byte memories -/

/-- The byte listed at an offset. An offset nothing has written is not listed: this is what it reads as here, no value;
the accessors below then give the free power-on byte (log 6). -/
def Memory.get : Memory → Nat → Option Byte
  | [], _ => none
  | (k, v) :: m, a => if a = k then some v else Memory.get m a

/-- Write a byte, keeping the offsets strictly rising. -/
def Memory.set : Memory → Nat → Byte → Memory
  | [], a, b => [(a, b)]
  | (k, v) :: m, a, b =>
    if a < k then (a, b) :: (k, v) :: m
    else if a = k then (a, b) :: m
    else (k, v) :: Memory.set m a b

/-- The canonical form: offsets strictly rising and below 2^32 (20_memory R50). An unlisted offset reads as no value, so
no entry equals what an unlisted offset reads as. -/
abbrev Memory.wf (m : Memory) : Prop :=
  (m.map Prod.fst).Pairwise (· < ·) ∧ ∀ k ∈ m.map Prod.fst, k < 2 ^ 32

/-- `IMEM[a]` (20_memory R50). -/
def State.imemByte (s : State) (a : Nat) : Byte := (Memory.get s.imem a).getD (Config.powerOnIMem a)

/-- `OMEM[a]` (20_memory R50). -/
def State.omemByte (s : State) (a : Nat) : Byte := (Memory.get s.omem a).getD (Config.powerOnOMem a)

/-- The host's write of a byte of `IMEM` (20_memory R51). -/
def State.imemWrite (s : State) (a : Word) (b : Byte) : State :=
  { s with imem := Memory.set s.imem a.toNat b }

/-- `OMemWrite(a, b)` (00_scope R9; 20_memory R53). -/
def State.omemWrite (s : State) (a : Word) (b : Byte) : State :=
  { s with omem := Memory.set s.omem a.toNat b }

/-- `IMemRead(a)`: defined only below `ILEN` (20_memory R52). -/
def State.inputByte (s : State) (a : Nat) : Option Byte :=
  if a < s.ilen.toNat then some (s.imemByte a) else none

/-- The `n` bytes from offset `a` on, cut short at the first that `IMemRead` is not defined for. -/
def State.readInput (s : State) (a : Nat) : Nat → List Byte
  | 0 => []
  | n + 1 =>
    match s.inputByte a with
    | some b => b :: s.readInput (a + 1) n
    | none => []

/-- `MemWrite(OMEM, a, 2, v)`: the low byte at `a`, the high byte at `a + 1` (20_memory R56). -/
def State.omemWriteHalf (s : State) (a : Word) (v : Half) : State :=
  (s.omemWrite a (loByte v)).omemWrite (a + 1) (hiByte v)

/-! ### Channel registers -/

/-- `PRED[c]` and `IDX[c]`. -/
def State.chan (s : State) : Channel → ChannelState
  | .ch0 => s.ch0
  | .ch1 => s.ch1

/-- Write `PRED[c]` and `IDX[c]`. -/
def State.setChan (s : State) (c : Channel) (v : ChannelState) : State :=
  match c with
  | .ch0 => { s with ch0 := v }
  | .ch1 => { s with ch1 := v }

/-! ### Configuration -/

/-- `ConfigLegal(NCH, FSZ, ILEN)` (10_state R31). -/
def configLegal (nch fsz : Half) (ilen : Word) : Bool :=
  (nch.toNat = 1 || nch.toNat = 2) &&
  decide (4 * nch.toNat ≤ fsz.toNat) &&
  (nch.toNat ≠ 2 || (fsz.toNat - 8) % 8 = 0) &&
  decide (ilen.toNat ≤ 2 ^ 30 - 1)

/-- The mode `NCH` selects: 42_block_framer R160 tests `NCH = 1`; what is left is `NCH = 2` in every run (log 13). -/
def modeOf (nch : Half) : Mode := if nch.toNat = 1 then .mono else .stereo

/-! ### Run endings and faults -/

/-- Fault entry: `STATE <- FAULT`, `CAUSE <-` the code, nothing else (60_exceptions R256). There is no saved pc, mode
change, vector or handler. -/
def State.raise (s : State) (c : Cause) : State :=
  { s with runState := .fault, cause := c }

/-- A run ends without fault: `STATE <- DONE`, `CAUSE <-` the code, nothing else (42_block_framer R162, R165). -/
def State.finish (s : State) (c : Cause) : State :=
  { s with runState := .done, cause := c }

/-- The only way out of a fault: every register takes its reset value, the memories stay (60_exceptions R258;
44_host_commands R213). The tables, the pending moves and the host's replies are no registers and stay. DESIGN CHOICE: the
"unspecified mixture" that R213 has `OMEM` hold after a `RESET` during `RUN` is the bytes that the steps taken before the
`RESET` left there (log 21). -/
def State.resetRegisters (s : State) : State :=
  { s with
    ch0 := ChannelState.reset
    ch1 := ChannelState.reset
    icur := 0
    olen := 0
    runState := .idle
    cause := .noCause
    nch := 0
    fsz := 0
    ilen := 0 }

/-- A channel's registers left with no value: the contents are free values (44_host_commands R211; log 5). -/
def ChannelState.empty (draw : Nat) : ChannelState where
  pred := Config.freePred draw
  idx := Config.freeIdx draw
  loaded := false

/-- The first two lines of `START`: both cursors to 0, every channel register left with no value (44_host_commands R211). -/
def State.beginRun (s : State) : State :=
  { s with
    icur := 0
    olen := 0
    ch0 := ChannelState.empty s.draws
    ch1 := ChannelState.empty (s.draws + 1)
    draws := s.draws + 2 }

/-! ### Cursors -/

/-- A boundary step or data step moves `ICUR` (10_state R27). -/
def State.advanceInput (s : State) (n : Nat) : State := { s with icur := s.icur + BitVec.ofNat 32 n }

/-- A data step moves `OLEN` (10_state R28). -/
def State.advanceOutput (s : State) (n : Nat) : State := { s with olen := s.olen + BitVec.ofNat 32 n }

end Sys2Proof.Machine
end

