-- ==== Sys2Proof/Machine/Operands.lean ====
section
/-! DEFINITION. The operand forms: the fields of a preamble unit (30_encoding R85, R86), the nibbles of data bytes
(R88, R89), and the fixed-point arithmetic primitives of 00_scope R9. -/

namespace Sys2Proof.Machine

/-- `clamp(v, lo, hi)` (00_scope R9). -/
def clamp (v lo hi : Int) : Int := if v < lo then lo else if hi < v then hi else v

/-- A sample: an exact value clamped to `PCM_MIN .. PCM_MAX`, as an `s16` (41_sample_decoder R124). -/
def clampSample (v : Int) : Half := BitVec.ofInt 16 (clamp v (-32768) 32767)

/-- A step index: an exact value clamped to `0 .. 88` (41_sample_decoder R126; 42_block_framer R167). -/
def clampIndex (v : Int) : Fin 89 := Fin.ofNat 89 (clamp v 0 88).toNat

/-- `pred0 = sext_16(P_LO + 256 * P_HI)` as its 16-bit pattern (30_encoding R85). -/
def initPred (p : Preamble) : Half := halfOf p.pLo p.pHi

/-- `InitIndex(b)` (30_encoding R86; 42_block_framer R167). -/
def initIndex (signed : Bool) (b : Byte) : Fin 89 :=
  clampIndex (if signed then b.toInt else (b.toNat : Int))

/-- What a preamble unit loads into its channel's registers (42_block_framer R166). -/
def initialChannel (cfg : Config) (p : Preamble) : ChannelState where
  pred := initPred p
  idx := initIndex cfg.idxByteSigned p.i0
  loaded := true

/-- The nibbles of data bytes in decoding order: of each byte the low nibble, then the high one (20_memory R57). -/
def nibblesOf : List Byte → List Nibble
  | [] => []
  | b :: bs => lowNibble b :: highNibble b :: nibblesOf bs

end Sys2Proof.Machine
end

