-- ==== Sys2Proof/Machine/BlockFramer.lean ====
section
/-! DEFINITION. The block framer's units: `END`, `STOP`, `PRE` (42_block_framer). -/

namespace Sys2Proof.Machine

/-- `rem = ILEN - ICUR`, an `int` (42_block_framer R161). -/
def State.remaining (s : State) : Int := (s.ilen.toNat : Int) - (s.icur.toNat : Int)

/-- Load the channel registers from the preamble units of a boundary, channel 0 first (42_block_framer R166). -/
def loadPreambles (u : PreUnits) (s : State) : State :=
  match u with
  | .mono p => s.setChan .ch0 (initialChannel s.cfg p)
  | .stereo l r => (s.setChan .ch0 (initialChannel s.cfg l)).setChan .ch1 (initialChannel s.cfg r)

/-- `END`: the run ends, nothing else changes (42_block_framer R162). -/
def execEnd (s : State) : Host.Outcome State Fault Refusal := .next (s.finish .endOfInput)

/-- `STOP`: the run ends softly, nothing else changes; the preamble is read and not used (42_block_framer R165). -/
def execStop (_u : PreUnits) (s : State) : Host.Outcome State Fault Refusal := .next (s.finish .reservedStop)

/-- `PRE`: the tail of the boundary step once no reserved byte stops it. A block that is not wholly present raises
`InvalidInput` (42_block_framer R168); else the registers are loaded and `ICUR` moves by 4 bytes per channel (R166). -/
def execPre (u : PreUnits) (s : State) : Host.Outcome State Fault Refusal :=
  if s.remaining < s.fsz.toNat then .next (s.raise .invalidInput)
  else .next ((loadPreambles u s).advanceInput (4 * u.mode.channels))

end Sys2Proof.Machine
end

