-- ==== Sys2Proof/Machine/Fetch.lean ====
section
/-! DEFINITION. Which step the decoder takes: step selection and the head of the boundary step (42_block_framer R160, R161). -/

namespace Sys2Proof.Machine

/-- What the decoder finds at `ICUR`. -/
inductive Fetched where
  /-- A unit to execute. -/
  | instr (i : Instr)
  /-- The block's own fault, found before a unit can be read (42_block_framer R163). -/
  | raise (c : Cause)
  /-- The unit reaches to or beyond `ILEN`; no run meets this (42_block_framer R170). -/
  | outOfRange
deriving DecidableEq, Repr

/-- Read the unit that stands at a place at `ICUR`, `n` bytes long. -/
def fetchUnit (s : State) (p : Place) (n : Nat) : Fetched :=
  match decode p (s.readInput s.icur.toNat n) with
  | .instr i _ => .instr i
  | .reject _ => .outOfRange

/-- Whether `ICUR` stands at a block boundary, `ICUR mod FSZ = 0` (42_block_framer R160). -/
def State.atBoundary (s : State) : Bool := s.icur.toNat % s.fsz.toNat = 0

/-- The head of `BoundaryStep` (42_block_framer R161): end of input, then a preamble out of reach, then the preamble. -/
def fetchBoundary (s : State) : Fetched :=
  if s.remaining = 0 then fetchUnit s .finished 0
  else if s.remaining < 4 * s.nch.toNat then .raise .invalidInput
  else fetchUnit s (.boundary (modeOf s.nch)) (4 * (modeOf s.nch).channels)

/-- The bytes of a data unit: one in mono, eight in stereo (30_encoding R80). -/
def unitBytes : Mode → Nat
  | .mono => 1
  | .stereo => 8

/-- Step selection while `STATE = RUN` (42_block_framer R160). -/
def fetch (s : State) : Fetched :=
  if s.atBoundary then fetchBoundary s
  else fetchUnit s (.region (modeOf s.nch)) (unitBytes (modeOf s.nch))

end Sys2Proof.Machine
end

