-- ==== Sys2Proof/Machine/HostCommands.lean ====
section
/-! DEFINITION. The host's two commands, `START` and `RESET` (44_host_commands). -/

namespace Sys2Proof.Machine

/-- `START`: accepted in `IDLE` and `DONE` (44_host_commands R211), ignored in `RUN` and `FAULT` (R212). It tests the
configuration after the cursors and channel registers are cleared, and raises `InvalidConfig` if it is not legal. -/
def execStart (_x : BitVec 30) (s : State) : Host.Outcome State Fault Refusal :=
  match s.runState with
  | .run => .next s
  | .fault => .next s
  | .idle | .done =>
    if configLegal s.nch s.fsz s.ilen then
      .next { s.beginRun with runState := .run, cause := .noCause }
    else .next (s.beginRun.raise .invalidConfig)

/-- `RESET`: accepted in every state; every register takes its reset value (44_host_commands R213). -/
def execReset (_x : BitVec 30) (_startBit : Bool) (s : State) : Host.Outcome State Fault Refusal :=
  .next s.resetRegisters

end Sys2Proof.Machine
end

