-- ==== Sys2Proof/Machine/SampleDecoder.lean ====
section
/-! DEFINITION. The sample decoder (41_sample_decoder): the operation `DecodeSample` once, and the sixteen nibble codes. -/

namespace Sys2Proof.Machine

/-- The magnitude (41_sample_decoder R122): three shifted copies of `step` added under the nibble's bits 2, 1, 0, each
addition keeping the low 16 bits of the sum. -/
def magnitude (step : Half) (n : Nibble) : Half :=
  let d0 := step >>> 3
  let d1 := if n.getLsbD 2 then d0 + step else d0
  let d2 := if n.getLsbD 1 then d1 + (step >>> 1) else d1
  if n.getLsbD 0 then d2 + (step >>> 2) else d2

/-- The signed difference (41_sample_decoder R123): the magnitude is unsigned and its negation exact. -/
def difference (step : Half) (n : Nibble) : Int :=
  if n.getLsbD 3 then -((magnitude step n).toNat : Int) else ((magnitude step n).toNat : Int)

/-- The sample decoder as FJ2's pure function (41_sample_decoder R120, R121): from the tables, the nibble and one
channel's registers, the sample and the channel's new registers. -/
def decodeSample (cfg : Config) (n : Nibble) (ch : ChannelState) : Half × ChannelState :=
  let step := cfg.stepLut.get ch.idx
  let sample := clampSample (ch.pred.toInt + difference step n)
  let idx := clampIndex ((ch.idx.val : Int) + (cfg.adjLut.get n.toFin).toInt)
  (sample, { pred := sample, idx := idx, loaded := true })

/-- `DecodeSample(c, n)` on the channel registers of the state (41_sample_decoder R121). -/
def decodeOn (c : Channel) (n : Nibble) (s : State) : State :=
  s.setChan c (decodeSample s.cfg n (s.chan c)).2

/-- `N0`, R130. -/
def execN0 (c : Channel) (s : State) : Host.Outcome State Fault Refusal := .next (decodeOn c 0x0 s)

/-- `N1`, R131. -/
def execN1 (c : Channel) (s : State) : Host.Outcome State Fault Refusal := .next (decodeOn c 0x1 s)

/-- `N2`, R132. -/
def execN2 (c : Channel) (s : State) : Host.Outcome State Fault Refusal := .next (decodeOn c 0x2 s)

/-- `N3`, R133. -/
def execN3 (c : Channel) (s : State) : Host.Outcome State Fault Refusal := .next (decodeOn c 0x3 s)

/-- `N4`, R134. -/
def execN4 (c : Channel) (s : State) : Host.Outcome State Fault Refusal := .next (decodeOn c 0x4 s)

/-- `N5`, R135. -/
def execN5 (c : Channel) (s : State) : Host.Outcome State Fault Refusal := .next (decodeOn c 0x5 s)

/-- `N6`, R136. -/
def execN6 (c : Channel) (s : State) : Host.Outcome State Fault Refusal := .next (decodeOn c 0x6 s)

/-- `N7`, R137. -/
def execN7 (c : Channel) (s : State) : Host.Outcome State Fault Refusal := .next (decodeOn c 0x7 s)

/-- `N8`, R138. -/
def execN8 (c : Channel) (s : State) : Host.Outcome State Fault Refusal := .next (decodeOn c 0x8 s)

/-- `N9`, R139. -/
def execN9 (c : Channel) (s : State) : Host.Outcome State Fault Refusal := .next (decodeOn c 0x9 s)

/-- `NA`, R140. -/
def execNA (c : Channel) (s : State) : Host.Outcome State Fault Refusal := .next (decodeOn c 0xA s)

/-- `NB`, R141. -/
def execNB (c : Channel) (s : State) : Host.Outcome State Fault Refusal := .next (decodeOn c 0xB s)

/-- `NC`, R142. -/
def execNC (c : Channel) (s : State) : Host.Outcome State Fault Refusal := .next (decodeOn c 0xC s)

/-- `ND`, R143. -/
def execND (c : Channel) (s : State) : Host.Outcome State Fault Refusal := .next (decodeOn c 0xD s)

/-- `NE`, R144. -/
def execNE (c : Channel) (s : State) : Host.Outcome State Fault Refusal := .next (decodeOn c 0xE s)

/-- `NF`, R145. -/
def execNF (c : Channel) (s : State) : Host.Outcome State Fault Refusal := .next (decodeOn c 0xF s)

end Sys2Proof.Machine
end

