-- ==== Sys2Proof/Machine/Sequencer.lean ====
section
/-! DEFINITION. The nibble sequencer, the stereo interleaver and the output writer (43_nibble_interleaver). -/

namespace Sys2Proof.Machine

/-- Decode one nibble of channel `c` and write the sample at `a`, little-endian (43_nibble_interleaver R191, R196, R199). -/
def decodeAndWrite (c : Channel) (a : Word) (n : Nibble) (s : State) : State :=
  (decodeOn c n s).omemWriteHalf a (decodeSample s.cfg n (s.chan c)).1

/-- Decode nibbles of channel `c` in time order, the samples `stride` bytes apart from `a` on. -/
def decodeRun (c : Channel) (stride : Word) : Word → List Nibble → State → State
  | _, [], s => s
  | a, n :: ns, s => decodeRun c stride (a + stride) ns (decodeAndWrite c a n s)

/-- `DB`, `MonoDataStep` (43_nibble_interleaver R191). -/
def execDb (b : Byte) (s : State) : Host.Outcome State Fault Refusal :=
  .next (((decodeRun .ch0 2 s.olen (nibblesOf [b]) s).advanceOutput 4).advanceInput 1)

/-- `DG`, `StereoGroupStep` (43_nibble_interleaver R196): the left channel's eight nibbles are in the first four bytes,
the right channel's in the last four; sample `i` goes to `base + 4 * i` and `base + 4 * i + 2`. -/
def execDg (g0 g1 g2 g3 g4 g5 g6 g7 : Byte) (s : State) : Host.Outcome State Fault Refusal :=
  let base := s.olen
  let left := decodeRun .ch0 4 base (nibblesOf [g0, g1, g2, g3]) s
  let right := decodeRun .ch1 4 (base + 2) (nibblesOf [g4, g5, g6, g7]) left
  .next ((right.advanceOutput 32).advanceInput 8)

end Sys2Proof.Machine
end

