-- ==== Sys2Proof/Machine/Dispatch.lean ====
section
/-! DEFINITION. One arm per constructor of Instr. -/

namespace Sys2Proof.Machine

def exec (i : Instr) (s : State) : Host.Outcome State Fault Refusal :=
  match i with
  -- the sixteen nibble codes (41_sample_decoder R130 to R145)
  | .n0 c => Sys2Proof.Machine.execN0 c s
  | .n1 c => Sys2Proof.Machine.execN1 c s
  | .n2 c => Sys2Proof.Machine.execN2 c s
  | .n3 c => Sys2Proof.Machine.execN3 c s
  | .n4 c => Sys2Proof.Machine.execN4 c s
  | .n5 c => Sys2Proof.Machine.execN5 c s
  | .n6 c => Sys2Proof.Machine.execN6 c s
  | .n7 c => Sys2Proof.Machine.execN7 c s
  | .n8 c => Sys2Proof.Machine.execN8 c s
  | .n9 c => Sys2Proof.Machine.execN9 c s
  | .nA c => Sys2Proof.Machine.execNA c s
  | .nB c => Sys2Proof.Machine.execNB c s
  | .nC c => Sys2Proof.Machine.execNC c s
  | .nD c => Sys2Proof.Machine.execND c s
  | .nE c => Sys2Proof.Machine.execNE c s
  | .nF c => Sys2Proof.Machine.execNF c s
  -- the block framer (42_block_framer R162, R165, R166)
  | .pre u => Sys2Proof.Machine.execPre u s
  | .stop u => Sys2Proof.Machine.execStop u s
  -- the data units (43_nibble_interleaver R191, R196)
  | .db b => Sys2Proof.Machine.execDb b s
  | .dg g0 g1 g2 g3 g4 g5 g6 g7 => Sys2Proof.Machine.execDg g0 g1 g2 g3 g4 g5 g6 g7 s
  -- the end of the input (42_block_framer R162)
  | .endInput => Sys2Proof.Machine.execEnd s
  -- the host's commands (44_host_commands R211, R213)
  | .start x => Sys2Proof.Machine.execStart x s
  | .reset x startBit => Sys2Proof.Machine.execReset x startBit s

end Sys2Proof.Machine
end

