-- ==== Sys2Proof/Machine/Flags.lean ====
section
/-! DEFINITION. The block has no condition codes (10_state R29). The only status it keeps is `STATE` and `CAUSE`; this
file gives their codes and packs `STATUS` (10_state R30, R33, R34). -/

namespace Sys2Proof.Machine

/-- The code of `STATE` (10_state R33). -/
def RunState.code : RunState → BitVec 2
  | .idle => 0
  | .run => 1
  | .done => 2
  | .fault => 3

/-- The code of `CAUSE` (10_state R34). Codes 5 to 7 are never produced. -/
def Cause.code : Cause → BitVec 3
  | .noCause => 0
  | .endOfInput => 1
  | .reservedStop => 2
  | .invalidConfig => 3
  | .invalidInput => 4

/-- `STATUS`: bits 1:0 `STATE`, bits 3:2 read 0, bits 6:4 `CAUSE`, and the bits above its width of 7 read 0 (10_state R30). -/
def State.status (s : State) : Word :=
  (0 : BitVec 25) ++ (s.cause.code ++ ((0 : BitVec 2) ++ s.runState.code))

end Sys2Proof.Machine
end

