-- ==== Sys2Proof/Machine/HostPort.lean ====
section
/-! DEFINITION. The host's moves: the register map (10_state R30, R32), commands through `CTRL` (44_host_commands R210),
the host's accesses to the memories (44_host_commands R216). -/

namespace Sys2Proof.Machine

/-- What the host reads from a register (10_state R30): bits above a register's width read as 0, and a register
number that does not exist reads 0. -/
def State.readReg (s : State) (n : Nat) : Word :=
  match n with
  | 0 => 0
  | 1 => s.status
  | 2 => s.nch.setWidth 32
  | 3 => s.fsz.setWidth 32
  | 4 => s.ilen
  | 5 => s.icur
  | 6 => s.olen
  | _ => 0

/-- The host's write of a register other than `CTRL` (10_state R30, R32): the three configuration registers take the
value, cut to their width, unless a run is in progress; every other write is ignored. -/
def State.writeConfig (s : State) (n : Nat) (v : Word) : State :=
  if s.runState = .run then s
  else
    match n with
    | 2 => { s with nch := v.setWidth 16 }
    | 3 => { s with fsz := v.setWidth 16 }
    | 4 => { s with ilen := v }
    | _ => s

/-- A host write of `CTRL` is a command; a write with both command bits 0 does nothing (44_host_commands R210). -/
def writeCtrl (v : Word) (s : State) : Host.Outcome State Fault Refusal :=
  match decode .ctrl (bytesOfWord v) with
  | .instr i _ => exec i s
  | .reject _ => .next s

/-- A host write of a register by number (10_state R30). -/
def writeReg (n : Nat) (v : Word) (s : State) : Host.Outcome State Fault Refusal :=
  if n = 0 then writeCtrl v s else .next (s.writeConfig n v)

/-- A value returned to the host. -/
def State.reply (s : State) (v : Word) : State := { s with replies := v :: s.replies }

/-- A move that has no meaning during a run: refused then, for the reason given. -/
def unlessRunning (why : Refusal) (s : State) (o : Host.Outcome State Fault Refusal) : Host.Outcome State Fault Refusal :=
  if s.runState = .run then .refused why else o

/-- What a pending move does; at `.decoder` the host makes none, and the step takes the decoder's turn itself.
44_host_commands R216 and 20_memory R59 forbid the memory accesses during a run (log 12). DESIGN CHOICE: a read of `OLEN`
or `OMEM` after the run has ended returns what stands there at once, whether or not the host has read `STATUS` since,
where 20_memory R63 and 70_reset_and_hazards R291 promise it only after such a read (log 20), and so does a read of `OMEM`
after a `RESET` has abandoned a run, where 44_host_commands R213 leaves the contents unspecified (log 21). -/
def hostMove (m : Input) (s : State) : Host.Outcome State Fault Refusal :=
  match m with
  | .decoder => .next s
  | .writeReg n v => writeReg n v s
  | .readReg n => .next (s.reply (s.readReg n))
  | .writeIMem a b => unlessRunning .hostBreach s (.next (s.imemWrite a b))
  | .readIMem a => unlessRunning .hostBreach s (.next (s.reply ((s.imemByte a.toNat).setWidth 32)))
  | .readOMem a => unlessRunning .hostBreach s (.next (s.reply ((s.omemByte a.toNat).setWidth 32)))
  | .nibble c n => unlessRunning .nibbleInRun s (exec (nibbleInstr c n) s)

end Sys2Proof.Machine
end

