-- ==== Sys2Proof/Machine/Turn.lean ====
section
/-! DEFINITION. Whose turn it is, and the decoder's turn. -/

namespace Sys2Proof.Machine

/-- The decoder's turn. In `RUN` it has exactly one enabled step (42_block_framer R160); in the other states it has none
and nothing changes (10_state R33; log 3). -/
def decoderStep (s : State) : Host.Outcome State Fault Refusal :=
  match s.runState with
  | .run =>
    match fetch s with
    | .instr i => exec i s
    | .raise c => .next (s.raise c)
    | .outOfRange => .fault .inputOutOfRange
  | .idle | .done | .fault => .next s

/-- The next pending move, or the decoder's turn where none is pending or the next entry leaves it the turn (log 1). -/
def nextMove (s : State) : Host.Outcome State Fault Refusal :=
  match s.inputs with
  | [] => decoderStep s
  | .decoder :: rest => decoderStep { s with inputs := rest }
  | m :: rest => hostMove m { s with inputs := rest }

end Sys2Proof.Machine
end

