-- ==== Sys2Proof/Machine/Placement.lean ====
section
/-! DEFINITION. How one instruction is placed so that the next step runs it (log 10). -/

namespace Sys2Proof.Machine

/-- Write bytes to `IMEM` from an offset on. -/
def State.imemLoad (s : State) (a : Word) : List Byte → State
  | [] => s
  | b :: bs => (s.imemWrite a b).imemLoad (a + 1) bs

/-- The decoder's turn comes next: where moves are pending, an entry that leaves it the turn stands before them. -/
def State.decoderFirst (s : State) : State :=
  { s with inputs := if s.inputs = [] then [] else .decoder :: s.inputs }

/-- A run in progress whose next unit is given: the framing that makes the decoder read it at offset `at_`. -/
def State.inRun (s : State) (nch fsz : Half) (at_ : Word) (bs : List Byte) : State :=
  { (s.imemLoad at_ bs).decoderFirst with
    runState := .run
    nch := nch
    fsz := fsz
    icur := at_
    ilen := at_ + BitVec.ofNat 32 bs.length }

/-- No run in progress: a state outside `RUN` stays, a run is abandoned as if none had begun. -/
def State.outsideRun (s : State) : State :=
  { s with runState := if s.runState = .run then .idle else s.runState }

/-- Place bytes at a place: a preamble at the boundary of a block that is its preamble alone; a data unit as the one
unit of its block's sample region; the end of input at offset 0 of an empty stream; a command as the host's next move;
a nibble as presented to the sample decoder next, outside a run (log 8). -/
def placeBytes (s : State) (p : Place) (bs : List Byte) : State :=
  match p with
  | .finished => s.inRun 1 4 0 []
  | .boundary .mono => s.inRun 1 4 0 bs
  | .boundary .stereo => s.inRun 2 8 0 bs
  | .region .mono => s.inRun 1 5 4 bs
  | .region .stereo => s.inRun 2 16 8 bs
  | .lane c => { s.outsideRun with inputs := .nibble c (lowNibble (bs.headD 0)) :: s.inputs }
  | .ctrl => { s with inputs := .writeReg 0 (wordOf (bs.getD 0 0) (bs.getD 1 0) (bs.getD 2 0) (bs.getD 3 0)) :: s.inputs }

/-- Place a word of opcode_table.json where `decodeTableWord` reads it. -/
def placeWord (s : State) (nbits w : Nat) : State :=
  match tablePlace nbits w with
  | none => s
  | some p => placeBytes s p (tableBytes nbits w)

end Sys2Proof.Machine
end

