-- ==== Sys2Proof/Machine/Step.lean ====
section
/-! DEFINITION. One step of the machine, and the placement of one instruction where the next step finds it. -/

namespace Sys2Proof.Machine

/-- One step: the next pending move of the host, or the decoder's one enabled step (00_scope R12; 60_exceptions R260). -/
def step (s : State) : Host.Outcome State Fault Refusal := nextMove s

/-- The state with one instruction, given as opcode_table.json numbers its bits, where the next step runs it (log 10). -/
def State.withFetchWord (s : State) (nbits w : Nat) : State := placeWord s nbits w

end Sys2Proof.Machine
end

