-- ==== Sys2Proof/Machine/Listing.lean ====
section
/-! DEFINITION. The spec's notation for streams (30_encoding R96, R97) as data, with the bytes each line emits. No step
of the machine uses this file. -/

namespace Sys2Proof.Machine

/-- One line of a stream listing (30_encoding R96). -/
inductive Line where
  /-- `.cfg nch=<n> fsz=<n>`: emits nothing. -/
  | cfg (nch fsz : Nat)
  /-- `pre <pred>, <idx>`. -/
  | pre (pred : Int) (idx : Byte)
  /-- `pre <pred>, <idx>, <rsvd>`. -/
  | preRsvd (pred : Int) (idx rsvd : Byte)
  /-- `db <lo>, <hi>`. -/
  | db (lo hi : Nibble)
  /-- `dg <l0> .. <l7> / <r0> .. <r7>`. -/
  | dg (l0 l1 l2 l3 l4 l5 l6 l7 r0 r1 r2 r3 r4 r5 r6 r7 : Nibble)
  /-- `.byte <b> ...`. -/
  | raw (bs : List Byte)
deriving DecidableEq, Repr

/-- A byte from its two nibbles, `lo + 16 * hi`. -/
def byteOf (lo hi : Nibble) : Byte := BitVec.ofNat 8 (lo.toNat + 16 * hi.toNat)

/-- The bytes a line emits (30_encoding R96). -/
def Line.emit : Line → List Byte
  | .cfg _ _ => []
  | .pre p i => [loByte (BitVec.ofInt 16 p), hiByte (BitVec.ofInt 16 p), i, 0]
  | .preRsvd p i r => [loByte (BitVec.ofInt 16 p), hiByte (BitVec.ofInt 16 p), i, r]
  | .db lo hi => [byteOf lo hi]
  | .dg l0 l1 l2 l3 l4 l5 l6 l7 r0 r1 r2 r3 r4 r5 r6 r7 =>
    [byteOf l0 l1, byteOf l2 l3, byteOf l4 l5, byteOf l6 l7, byteOf r0 r1, byteOf r2 r3, byteOf r4 r5, byteOf r6 r7]
  | .raw bs => bs

/-- The bytes of a listing; their number is the run's `ILEN`. -/
def emitAll (ls : List Line) : List Byte := ls.flatMap Line.emit

/-- The pseudo-unit `nibs`, an even count of nibbles (30_encoding R97); an odd one left over emits nothing. -/
def nibs : List Nibble → List Line
  | lo :: hi :: ns => .db lo hi :: nibs ns
  | _ => []

/-- The pseudo-unit `pre2` (30_encoding R97). -/
def pre2 (predL : Int) (idxL : Byte) (predR : Int) (idxR : Byte) : List Line :=
  [.pre predL idxL, .pre predR idxR]

end Sys2Proof.Machine
end

