-- ==== Sys2Proof/Machine/WavContainer.lean ====
section
/-! DEFINITION. The host's WAV container formats (45_host_wav_container). They are outside the hardware (00_scope R5):
no step of the machine uses this file. Its functions say how a host turns a file into its moves, and a finished run
into a file. -/

namespace Sys2Proof.Machine

/-- `WavFormatInfo` (45_host_wav_container R231). -/
structure WavFormatInfo where
  audioFormat : Half
  sampleRate : Word
  numChannels : Half
  frameSize : Half
deriving DecidableEq, Repr

/-- `ILEN_SOURCE`, an open parameter of the host (45_host_wav_container R233; 92_eei_decisions D24). -/
inductive IlenSource where
  | headerDataSize
  | bytesPresent
deriving DecidableEq, Repr

/-- A 16-bit header field at an offset. -/
def headerHalf (h : List Byte) (o : Nat) : Half := halfOf (h.getD o 0) (h.getD (o + 1) 0)

/-- A 32-bit header field at an offset. -/
def headerWord (h : List Byte) (o : Nat) : Word :=
  wordOf (h.getD o 0) (h.getD (o + 1) 0) (h.getD (o + 2) 0) (h.getD (o + 3) 0)

/-- The four values read from an input header, at the offsets of 45_host_wav_container R230; nothing is validated (R232). -/
def parseInfo (file : List Byte) : WavFormatInfo where
  audioFormat := headerHalf file 20
  sampleRate := headerWord file 24
  numChannels := headerHalf file 22
  frameSize := headerHalf file 32

/-- The length the host gives the block (45_host_wav_container R233). The count of bytes present is exact below 2^32;
`hostMoves` gives a longer file no move (log 19). -/
def inputLength (src : IlenSource) (file : List Byte) : Word :=
  match src with
  | .headerDataSize => headerWord file 40
  | .bytesPresent => BitVec.ofNat 32 (file.length - 44)

/-- The host's writes of the stream to `IMEM` from an offset on; `hostMoves` uses it for streams that end below 2^32 only. -/
def streamWrites : Word → List Byte → List Input
  | _, [] => []
  | a, b :: bs => .writeIMem a b :: streamWrites (a + 1) bs

/-- Whether the host has moves for a file: the header is there (93_implementation_defined U3), and, DESIGN CHOICE (log 19),
the stream is shorter than 2^32 bytes, so that offsets and count are `u32`. No field of the header is validated
(45_host_wav_container R232). -/
def canLoad (file : List Byte) : Bool :=
  decide (44 ≤ file.length) && decide (file.length - 44 < 2 ^ 32)

/-- The host's moves for one file, from the stream's load to `START` (45_host_wav_container R233; 70_reset_and_hazards
R285); none for a file that it cannot load. DESIGN CHOICE (log 19): with a header `dataSize` larger than the bytes present
the host writes the bytes there are and issues `START` all the same, though 44_host_commands R216 asks for all of
`IMEM[0 .. ILEN - 1]`; the bytes of `IMEM` it did not write keep what they held. -/
def hostMoves (src : IlenSource) (file : List Byte) : Option (List Input) :=
  if canLoad file then
    some (streamWrites 0 (file.drop 44) ++
      [.writeReg 2 ((parseInfo file).numChannels.setWidth 32),
       .writeReg 3 ((parseInfo file).frameSize.setWidth 32),
       .writeReg 4 (inputLength src file),
       .writeReg 0 1])
  else none

/-- The bytes of a 16-bit field, little-endian. -/
def halfBytes (h : Half) : List Byte := [loByte h, hiByte h]

/-- The output header for `OLEN` output bytes (45_host_wav_container R235). The magic bytes and `fmtChunkSize` are the
spec's, "from general knowledge" (log 19). -/
def outputHeader (info : WavFormatInfo) (olen : Word) : List Byte :=
  let blockAlign : Half := info.numChannels * 2
  let byteRate : Word := info.sampleRate * info.numChannels.setWidth 32 * 2
  [0x52, 0x49, 0x46, 0x46] ++ bytesOfWord (36 + olen) ++
  [0x57, 0x41, 0x56, 0x45] ++
  [0x66, 0x6D, 0x74, 0x20] ++ bytesOfWord 16 ++
  halfBytes 1 ++ halfBytes info.numChannels ++ bytesOfWord info.sampleRate ++ bytesOfWord byteRate ++
  halfBytes blockAlign ++ halfBytes 16 ++
  [0x64, 0x61, 0x74, 0x61] ++ bytesOfWord olen

/-- The bytes of `OMEM` from an offset on. -/
def State.outputBytes (s : State) (a : Nat) : Nat → List Byte
  | 0 => []
  | n + 1 => s.omemByte a :: s.outputBytes (a + 1) n

/-- The result of a run that has ended in `DONE`, `OMEM[0 .. OLEN - 1]` (44_host_commands R215); a run that has not has
none (60_exceptions R256). -/
def State.result (s : State) : Option (List Byte) :=
  if s.runState = .done then some (s.outputBytes 0 s.olen.toNat) else none

/-- The whole host product: the header and the decoded data, for a run that ended in `DONE` (45_host_wav_container R237).
DESIGN CHOICE (log 19): in every other run state, `FAULT` among them, the host returns nothing; R237 calls what it returns
after a `FAULT` the host's affair. -/
def hostProduct (info : WavFormatInfo) (s : State) : Option (List Byte) :=
  s.result.map fun out => outputHeader info s.olen ++ out

end Sys2Proof.Machine
end

