-- ==== Sys2Proof/Safety.lean ====
section
/-! DEFINITION. What the claims speak of: the legal configuration as a proposition, the invariant of the machine, the
nibbles and samples of a stream as the spec's tables give them, and what two runs of one input share. -/

namespace Sys2Proof.Machine

/-! ### The invariant -/

/-- `ConfigLegal(NCH, FSZ, ILEN)` in the words of 10_state R31. -/
def LegalConfig (s : State) : Prop :=
  (s.nch.toNat = 1 ∨ s.nch.toNat = 2) ∧ 4 * s.nch.toNat ≤ s.fsz.toNat ∧
  (s.nch.toNat = 2 → (s.fsz.toNat - 8) % 8 = 0) ∧ s.ilen.toNat ≤ 2 ^ 30 - 1

/-- 42_block_framer R170: inside a block, the block lies wholly below `ILEN`, the cursor is in the sample region at a
whole unit, and the channel registers of the run hold values. -/
def BlockInvariant (s : State) : Prop :=
  s.icur.toNat % s.fsz.toNat ≠ 0 →
    (s.icur.toNat / s.fsz.toNat + 1) * s.fsz.toNat ≤ s.ilen.toNat ∧
    4 * s.nch.toNat ≤ s.icur.toNat % s.fsz.toNat ∧
    (s.nch.toNat = 2 → (s.icur.toNat % s.fsz.toNat - 8) % 8 = 0) ∧
    ∀ c : Channel, c.num < s.nch.toNat → (s.chan c).loaded = true

/-- How many data bytes lie before the cursor: those of the blocks before it and those of its own block
(42_block_framer R171). -/
def dataBytesBefore (s : State) : Nat :=
  s.icur.toNat / s.fsz.toNat * (s.fsz.toNat - 4 * s.nch.toNat) + (s.icur.toNat % s.fsz.toNat - 4 * s.nch.toNat)

/-- What holds of the cursors while a run is in progress (10_state R26, R28, R31; 42_block_framer R170 to R172). -/
def RunInvariant (s : State) : Prop :=
  LegalConfig s ∧ s.icur.toNat ≤ s.ilen.toNat ∧ BlockInvariant s ∧ s.olen.toNat = 4 * dataBytesBefore s

/-- Which causes go with which run state (10_state R34). -/
def CauseFits : RunState → Cause → Prop
  | .idle, c => c = .noCause
  | .run, c => c = .noCause
  | .done, c => c = .endOfInput ∨ c = .reservedStop
  | .fault, c => c = .invalidConfig ∨ c = .invalidInput

/-- The invariant of the machine: both memories in canonical form, the cause fits the run state, `OLEN` is a multiple of
4, and a run in progress has its cursors where the framing says. -/
structure Inv (s : State) : Prop where
  imem_wf : Memory.wf s.imem
  omem_wf : Memory.wf s.omem
  cause_fits : CauseFits s.runState s.cause
  olen_even : s.olen.toNat % 4 = 0
  run_inv : s.runState = .run → RunInvariant s

/-! ### Samples -/

/-- The samples a channel produces from nibbles in time order, and the registers it ends with: each `DecodeSample`
starts from what the one before it left (43_nibble_interleaver R196). -/
def channelSamples (cfg : Config) : List Nibble → ChannelState → List Half × ChannelState
  | [], ch => ([], ch)
  | n :: ns, ch =>
    let first := decodeSample cfg n ch
    let others := channelSamples cfg ns first.2
    (first.1 :: others.1, others.2)

/-- `L[i]` (with the bytes `g[0] .. g[3]`) and `R[i]` (with `g[4] .. g[7]`) by the one formula of 30_encoding R89. -/
def nibbleAt (g : List Byte) (i : Nat) : Nibble := (g.getD (i / 2) 0).extractLsb' (4 * (i % 2)) 4

/-- `mask16(v)` (00_scope R9). -/
def mask16 (v : Nat) : Nat := v % 65536

/-- `step`, the table entry that channel `c`'s index selects, as a number (41_sample_decoder R121 step 1). -/
def stepSize (s : State) (c : Channel) : Nat := (s.cfg.stepLut.get (s.chan c).idx).toNat

/-- `ADJ_LUT[n]` as a number (41_sample_decoder R121 step 6). -/
def indexAdjust (s : State) (n : Nibble) : Int := (s.cfg.adjLut.get n.toFin).toInt

/-- What one `DecodeSample` on channel `c` leaves (41_sample_decoder R124 to R127): the predictor moved by `diff` and
clamped, the index moved by `ADJ_LUT[n]` and clamped, the registers loaded, and nothing else of the state changed. -/
def SampleEffect (c : Channel) (n : Nibble) (diff : Int) (s t : State) : Prop :=
  (t.chan c).pred.toInt = max (-32768) (min 32767 ((s.chan c).pred.toInt + diff)) ∧
  ((t.chan c).idx.val : Int) = max 0 (min 88 (((s.chan c).idx.val : Int) + indexAdjust s n)) ∧
  (t.chan c).loaded = true ∧
  t = s.setChan c (t.chan c)

/-- A worked example of 41_sample_decoder R130 to R145: under the default tables, from predictor `p` and index `i`, the
code `n` gives the sample `p'` and the index `i'`. -/
def SampleExample (n : Nibble) (p : Int) (i : Nat) (p' : Int) (i' : Nat) : Prop :=
  ∀ (c : Channel) (s : State), s.cfg = defaultConfig → (s.chan c).pred.toInt = p → (s.chan c).idx.val = i →
    ∃ t, exec (nibbleInstr c n) s = .next t ∧ (t.chan c).pred.toInt = p' ∧ (t.chan c).idx.val = i'

/-! ### A run -/

/-- The state is one in which a run has just begun: what an accepted `START` leaves (44_host_commands R211), with no
host move pending. -/
def JustStarted (s : State) : Prop :=
  Inv s ∧ s.runState = .run ∧ s.icur = 0 ∧ s.olen = 0 ∧ s.inputs = []

/-- `Rsvd(k)` (42_block_framer R174): some reserved byte of block `k`'s preamble is not zero. -/
def ReservedSet (s : State) (k : Nat) : Prop :=
  s.imemByte (k * s.fsz.toNat + 3) ≠ 0 ∨ (s.nch.toNat = 2 ∧ s.imemByte (k * s.fsz.toNat + 7) ≠ 0)

/-- The decoder has the turn: no move is pending, or the next entry leaves it the turn. -/
def DecoderTurn (s : State) : Prop := s.inputs = [] ∨ ∃ rest, s.inputs = .decoder :: rest

/-- The next move is a `RESET`: a write of `CTRL` with bit 1 set (44_host_commands R210). -/
def ResetNext (s : State) : Prop := ∃ v rest, s.inputs = .writeReg 0 v :: rest ∧ v.getLsbD 1 = true

/-- The next move is a `START`: a write of `CTRL` with bit 0 set and bit 1 clear (44_host_commands R210). -/
def StartNext (s : State) : Prop :=
  ∃ v rest, s.inputs = .writeReg 0 v :: rest ∧ v.getLsbD 1 = false ∧ v.getLsbD 0 = true

/-- Two states hold the same inputs of a run (00_scope R13): the configuration, the stream below `ILEN`, the tables and
`IDX_BYTE_SIGNED`. -/
def SameRunInputs (s t : State) : Prop :=
  s.nch = t.nch ∧ s.fsz = t.fsz ∧ s.ilen = t.ilen ∧ s.cfg = t.cfg ∧
  ∀ a, a < s.ilen.toNat → s.imemByte a = t.imemByte a

/-- Two states show the host the same run: status, cursors, and the output produced so far. -/
def SameRunOutputs (s t : State) : Prop :=
  s.runState = t.runState ∧ s.cause = t.cause ∧ s.icur = t.icur ∧ s.olen = t.olen ∧
  ∀ a, a < s.olen.toNat → s.omemByte a = t.omemByte a

/-! ### The output of a block, from the stream alone -/

/-- The preamble unit of channel `c` in block `k` (30_encoding R83). -/
def streamPreamble (s : State) (k : Nat) (c : Channel) : Preamble where
  pLo := s.imemByte (k * s.fsz.toNat + 4 * c.num)
  pHi := s.imemByte (k * s.fsz.toNat + 4 * c.num + 1)
  i0 := s.imemByte (k * s.fsz.toNat + 4 * c.num + 2)
  rsvd := s.imemByte (k * s.fsz.toNat + 4 * c.num + 3)

/-- The nibble of sample `q` of channel `c` in block `k`: in mono from the byte at `k * FSZ + 4 + q div 2`
(43_nibble_interleaver R192), in stereo from the byte at `k * FSZ + 8 + 8 * (q div 8) + (q mod 8) div 2`, 4 further on
for the right channel (R197); the low nibble when `q` is even, the high one when it is odd. -/
def streamNibble (s : State) (k : Nat) (c : Channel) (q : Nat) : Nibble :=
  let at_ :=
    if s.nch.toNat = 1 then k * s.fsz.toNat + 4 + q / 2
    else k * s.fsz.toNat + 8 + 8 * (q / 8) + q % 8 / 2 + 4 * c.num
  if q % 2 = 0 then lowNibble (s.imemByte at_) else highNibble (s.imemByte at_)

/-- How many samples a block gives each channel: `2 * (FSZ - 4)` in mono, `FSZ - 8` in stereo (42_block_framer R171). -/
def samplesPerBlock (s : State) : Nat :=
  if s.nch.toNat = 1 then 2 * (s.fsz.toNat - 4) else s.fsz.toNat - 8

/-- The samples of channel `c` in block `k`, decoded from the block's own preamble (42_block_framer R174). -/
def blockSamples (s : State) (k : Nat) (c : Channel) : List Half :=
  (channelSamples s.cfg ((List.range (samplesPerBlock s)).map (streamNibble s k c))
    (initialChannel s.cfg (streamPreamble s k c))).1

/-- `D = 4 * (FSZ - 4 * NCH)`, the output bytes of a block (42_block_framer R171). -/
def blockOutputBytes (s : State) : Nat := 4 * (s.fsz.toNat - 4 * s.nch.toNat)

/-- The samples of every block of the run begun in `s` whose output lies wholly below `OLEN` of `t` stand in the `OMEM` of
`t` where the rules put them, little-endian (20_memory R56; 43_nibble_interleaver R192, R197; 42_block_framer R171). -/
def BlocksDecoded (s t : State) : Prop :=
  ∀ (b q : Nat) (c : Channel), (b + 1) * blockOutputBytes s ≤ t.olen.toNat → c.num < s.nch.toNat → q < samplesPerBlock s →
    let v := (blockSamples s b c).getD q 0
    let a := b * blockOutputBytes s + (if s.nch.toNat = 1 then 2 * q else 4 * q + 2 * c.num)
    t.omemByte a = loByte v ∧ t.omemByte (a + 1) = hiByte v

/-- The run begun in `s` reaches, within the `ILEN + 1` steps of 42_block_framer R173, a state with this status and these
cursors, in which the whole blocks of the output are decoded. -/
def EndsIn (s : State) (r : RunState) (c : Cause) (icur olen : Nat) : Prop :=
  ∃ k, k ≤ s.ilen.toNat + 1 ∧ ∃ t : State, Host.Core.run Sys2Proof.core k s = .next t ∧
    t.runState = r ∧ t.cause = c ∧ t.icur.toNat = icur ∧ t.olen.toNat = olen ∧ BlocksDecoded s t

end Sys2Proof.Machine
end

