-- ==== Sys2Proof/Certificates/Slice0/Obligations.lean ====
section
/-! DEFINITION. The statements about the model, each from the spec's rules. -/

open Sys2Proof Sys2Proof.Machine

/-! ### The sample decoder -/

/-- 41_sample_decoder R121 to R126: executing the code `n` on channel `c` completes in every state and does FJ2's seven
steps, over exact numbers with `mask16` where the rule has it, and changes nothing but the channel's registers; the
sample the operation returns is the new predictor; no exact value leaves the range the rules give it. -/
def Obligations.DecodeSampleFollowsSevenSteps : Prop :=
  ∀ (c : Channel) (n : Nibble) (s : State),
    let step := stepSize s c
    let d0 := step / 8
    let d1 := if n.getLsbD 2 then mask16 (d0 + step) else d0
    let d2 := if n.getLsbD 1 then mask16 (d1 + step / 2) else d1
    let m := if n.getLsbD 0 then mask16 (d2 + step / 4) else d2
    let diff : Int := if n.getLsbD 3 then -(m : Int) else (m : Int)
    (∃ t, exec (nibbleInstr c n) s = .next t ∧ SampleEffect c n diff s t ∧
      (decodeSample s.cfg n (s.chan c)).1 = (t.chan c).pred) ∧
    (-65535 ≤ diff ∧ diff ≤ 65535) ∧
    (-98303 ≤ (s.chan c).pred.toInt + diff ∧ (s.chan c).pred.toInt + diff ≤ 98302) ∧
    -128 ≤ ((s.chan c).idx.val : Int) + indexAdjust s n ∧ ((s.chan c).idx.val : Int) + indexAdjust s n ≤ 215

/-- 41_sample_decoder R130 to R137, which the spec derives from R121 to R126: each code `N0` to `N7` completes in every
state and adds its magnitude; with the rules' worked examples, which are for the default tables (log 7). -/
def Obligations.PositiveCodesAddTheirMagnitude : Prop :=
  (∀ (c : Channel) (s : State),
    let step := stepSize s c
    (∃ t, exec (.n0 c) s = .next t ∧ SampleEffect c 0 (step / 8 : Nat) s t) ∧
    (∃ t, exec (.n1 c) s = .next t ∧ SampleEffect c 1 (mask16 (step / 8 + step / 4)) s t) ∧
    (∃ t, exec (.n2 c) s = .next t ∧ SampleEffect c 2 (mask16 (step / 8 + step / 2)) s t) ∧
    (∃ t, exec (.n3 c) s = .next t ∧ SampleEffect c 3 (mask16 (mask16 (step / 8 + step / 2) + step / 4)) s t) ∧
    (∃ t, exec (.n4 c) s = .next t ∧ SampleEffect c 4 (mask16 (step / 8 + step)) s t) ∧
    (∃ t, exec (.n5 c) s = .next t ∧ SampleEffect c 5 (mask16 (mask16 (step / 8 + step) + step / 4)) s t) ∧
    (∃ t, exec (.n6 c) s = .next t ∧ SampleEffect c 6 (mask16 (mask16 (step / 8 + step) + step / 2)) s t) ∧
    (∃ t, exec (.n7 c) s = .next t ∧
      SampleEffect c 7 (mask16 (mask16 (mask16 (step / 8 + step) + step / 2) + step / 4)) s t)) ∧
  (SampleExample 0 1000 44 1061 43 ∧ SampleExample 0 30000 88 32767 87 ∧ SampleExample 0 (-5) 0 (-5) 0) ∧
  (SampleExample 1 1000 44 1184 43 ∧ SampleExample 1 30000 88 32767 87 ∧ SampleExample 1 (-5) 0 (-4) 0) ∧
  (SampleExample 2 1000 44 1308 43 ∧ SampleExample 2 30000 88 32767 87 ∧ SampleExample 2 (-5) 0 (-2) 0) ∧
  (SampleExample 3 1000 44 1431 43 ∧ SampleExample 3 30000 88 32767 87 ∧ SampleExample 3 (-5) 0 (-1) 0) ∧
  (SampleExample 4 1000 44 1555 46 ∧ SampleExample 4 30000 88 32767 88 ∧ SampleExample 4 (-5) 0 2 2) ∧
  (SampleExample 5 1000 44 1678 48 ∧ SampleExample 5 30000 88 32767 88 ∧ SampleExample 5 (-5) 0 3 4) ∧
  (SampleExample 6 1000 44 1802 50 ∧ SampleExample 6 30000 88 32767 88 ∧ SampleExample 6 (-5) 0 5 6) ∧
  (SampleExample 7 1000 44 1925 52 ∧ SampleExample 7 30000 88 32767 88 ∧ SampleExample 7 (-5) 0 6 8)

/-- 41_sample_decoder R138 to R145, which the spec derives from R121 to R126: each code `N8` to `NF` completes in every
state and subtracts its magnitude; with the rules' worked examples, which are for the default tables (log 7). -/
def Obligations.NegativeCodesSubtractTheirMagnitude : Prop :=
  (∀ (c : Channel) (s : State),
    let step := stepSize s c
    (∃ t, exec (.n8 c) s = .next t ∧ SampleEffect c 8 (-(step / 8 : Nat)) s t) ∧
    (∃ t, exec (.n9 c) s = .next t ∧ SampleEffect c 9 (-(mask16 (step / 8 + step / 4))) s t) ∧
    (∃ t, exec (.nA c) s = .next t ∧ SampleEffect c 10 (-(mask16 (step / 8 + step / 2))) s t) ∧
    (∃ t, exec (.nB c) s = .next t ∧ SampleEffect c 11 (-(mask16 (mask16 (step / 8 + step / 2) + step / 4))) s t) ∧
    (∃ t, exec (.nC c) s = .next t ∧ SampleEffect c 12 (-(mask16 (step / 8 + step))) s t) ∧
    (∃ t, exec (.nD c) s = .next t ∧ SampleEffect c 13 (-(mask16 (mask16 (step / 8 + step) + step / 4))) s t) ∧
    (∃ t, exec (.nE c) s = .next t ∧ SampleEffect c 14 (-(mask16 (mask16 (step / 8 + step) + step / 2))) s t) ∧
    (∃ t, exec (.nF c) s = .next t ∧
      SampleEffect c 15 (-(mask16 (mask16 (mask16 (step / 8 + step) + step / 2) + step / 4))) s t)) ∧
  (SampleExample 8 1000 44 939 43 ∧ SampleExample 8 (-30000) 88 (-32768) 87 ∧ SampleExample 8 (-5) 0 (-5) 0) ∧
  (SampleExample 9 1000 44 816 43 ∧ SampleExample 9 (-30000) 88 (-32768) 87 ∧ SampleExample 9 (-5) 0 (-6) 0) ∧
  (SampleExample 10 1000 44 692 43 ∧ SampleExample 10 (-30000) 88 (-32768) 87 ∧ SampleExample 10 (-5) 0 (-8) 0) ∧
  (SampleExample 11 1000 44 569 43 ∧ SampleExample 11 (-30000) 88 (-32768) 87 ∧ SampleExample 11 (-5) 0 (-9) 0) ∧
  (SampleExample 12 1000 44 445 46 ∧ SampleExample 12 (-30000) 88 (-32768) 88 ∧ SampleExample 12 (-5) 0 (-12) 2) ∧
  (SampleExample 13 1000 44 322 48 ∧ SampleExample 13 (-30000) 88 (-32768) 88 ∧ SampleExample 13 (-5) 0 (-13) 4) ∧
  (SampleExample 14 1000 44 198 50 ∧ SampleExample 14 (-30000) 88 (-32768) 88 ∧ SampleExample 14 (-5) 0 (-15) 6) ∧
  (SampleExample 15 1000 44 75 52 ∧ SampleExample 15 (-30000) 88 (-32768) 88 ∧ SampleExample 15 (-5) 0 (-16) 8)

/-- 41_sample_decoder R129, and of R147 the bound, both derived by the spec from R122: where the plain sum stays below
2^16 no mask changes a value, which is so for every step up to 34952 and every code; at 34953 the code 7 wraps to 0. The
shift-and-add form is not the multiply form. -/
def Obligations.MagnitudeIsThePlainSumBelowTheWrap : Prop :=
  (∀ (step : Half) (n : Nibble),
    let plain := step.toNat / 8 + (if n.getLsbD 2 then step.toNat else 0) +
      (if n.getLsbD 1 then step.toNat / 2 else 0) + (if n.getLsbD 0 then step.toNat / 4 else 0)
    (plain < 65536 → (magnitude step n).toNat = plain) ∧ (step.toNat ≤ 34952 → plain < 65536)) ∧
  (magnitude 34953 7).toNat = 0 ∧
  (magnitude 7 7).toNat = 11 ∧ (2 * 7 + 1) * 7 / 8 = 13

/-- 41_sample_decoder R147, R148, derived by the spec, for the default tables (log 7): the move of the predictor before
the clamp is at most 61436, and is 0 exactly at index 0 with the codes 0 and 8; from index 88 the codes 7 and 15 reach
the rails. -/
def Obligations.DefaultTableMovesStayInRange : Prop :=
  (∀ (i : Fin 89) (n : Nibble),
    (difference (defaultConfig.stepLut.get i) n).natAbs ≤ 61436 ∧
    (difference (defaultConfig.stepLut.get i) n = 0 ↔ i = 0 ∧ (n = 0 ∨ n = 8))) ∧
  ∀ (c : Channel) (s : State), s.cfg = defaultConfig → (s.chan c).idx = 88 →
    (-28669 ≤ (s.chan c).pred.toInt →
      ∃ t, exec (.n7 c) s = .next t ∧ (t.chan c).pred.toInt = 32767 ∧ (t.chan c).idx = 88) ∧
    ((s.chan c).pred.toInt ≤ 28668 →
      ∃ t, exec (.nF c) s = .next t ∧ (t.chan c).pred.toInt = -32768 ∧ (t.chan c).idx = 88)

/-- 41_sample_decoder R127 and the corner case of 43_nibble_interleaver R196 ("the two channels share nothing"): two
`DecodeSample` operations on different channels give the same state in either order. -/
def Obligations.ChannelsDecodeIndependently : Prop :=
  ∀ (n m : Nibble) (s : State), ∃ a b t,
    exec (nibbleInstr .ch0 n) s = .next a ∧ exec (nibbleInstr .ch1 m) a = .next t ∧
    exec (nibbleInstr .ch1 m) s = .next b ∧ exec (nibbleInstr .ch0 n) b = .next t ∧
    t.ch0 = a.ch0 ∧ t.ch1 = b.ch1

/-- FJ2's one table fact (40_luts R116; 95_test_vectors S1): where `STEP_LUT[0] >> 3 = 0` and `ADJ_LUT[0]` is not
positive, `N0` at index 0 leaves the sample at the predictor and the index at 0; the default tables are such. -/
def Obligations.CodeZeroAtIndexZeroStays : Prop :=
  (∀ (c : Channel) (s : State), (s.cfg.stepLut.get 0).toNat / 8 = 0 → (s.cfg.adjLut.get 0).toInt ≤ 0 →
    (s.chan c).idx = 0 →
    ∃ t, exec (.n0 c) s = .next t ∧ (t.chan c).pred = (s.chan c).pred ∧ (t.chan c).idx = 0) ∧
  (defaultConfig.stepLut.get 0).toNat = 7 ∧ (defaultConfig.adjLut.get 0).toInt = -1

/-! ### The block framer -/

/-- 42_block_framer R161 to R168 (the order of the tests of R169): the decoder's step at a block boundary of a run, by
the bytes remaining and the reserved bytes; on every path but the preamble load nothing but status changes. -/
def Obligations.BoundaryStepTestsInOrder : Prop :=
  ∀ s : State, s.inputs = [] → s.runState = .run → s.icur.toNat % s.fsz.toNat = 0 →
    (s.nch.toNat = 1 ∨ s.nch.toNat = 2) →
    let rem : Int := (s.ilen.toNat : Int) - s.icur.toNat
    let rsvd := ∃ c : Channel, c.num < s.nch.toNat ∧ s.imemByte (s.icur.toNat + 4 * c.num + 3) ≠ 0
    (rem = 0 → step s = .next { s with runState := .done, cause := .endOfInput }) ∧
    (rem ≠ 0 → rem < 4 * s.nch.toNat → step s = .next { s with runState := .fault, cause := .invalidInput }) ∧
    (4 * s.nch.toNat ≤ rem → rsvd → step s = .next { s with runState := .done, cause := .reservedStop }) ∧
    (4 * s.nch.toNat ≤ rem → ¬ rsvd → rem < s.fsz.toNat →
      step s = .next { s with runState := .fault, cause := .invalidInput }) ∧
    (4 * s.nch.toNat ≤ rem → ¬ rsvd → s.fsz.toNat ≤ rem →
      ∃ t, step s = .next t ∧
        t = { s with ch0 := t.ch0, ch1 := t.ch1, icur := t.icur } ∧
        t.icur.toNat = s.icur.toNat + 4 * s.nch.toNat ∧
        ∀ c : Channel,
          (s.nch.toNat ≤ c.num → t.chan c = s.chan c) ∧
          (c.num < s.nch.toNat →
            let a := s.icur.toNat + 4 * c.num
            let p := (s.imemByte a).toNat + 256 * (s.imemByte (a + 1)).toNat
            (t.chan c).pred.toInt = (if p < 32768 then (p : Int) else (p : Int) - 65536) ∧
            (t.chan c).idx = initIndex s.cfg.idxByteSigned (s.imemByte (a + 2)) ∧
            (t.chan c).loaded = true))

/-- 30_encoding R86 (42_block_framer R167): the initial index for every byte, under both values of `IDX_BYTE_SIGNED`,
whose default is false. -/
def Obligations.InitIndexClampsBothReadings : Prop :=
  defaultConfig.idxByteSigned = false ∧
  ∀ b : Byte,
    ((initIndex false b).val : Int) = max 0 (min 88 (b.toNat : Int)) ∧
    ((initIndex true b).val : Int) =
      max 0 (min 88 (if b.toNat < 128 then (b.toNat : Int) else (b.toNat : Int) - 256)) ∧
    (b.toNat ≤ 0x58 → (initIndex false b).val = b.toNat ∧ (initIndex true b).val = b.toNat) ∧
    (0x59 ≤ b.toNat → b.toNat ≤ 0x7F → (initIndex false b).val = 88 ∧ (initIndex true b).val = 88) ∧
    (0x80 ≤ b.toNat → (initIndex false b).val = 88 ∧ (initIndex true b).val = 0)

/-- 42_block_framer R166, R168 as meanings: `PRE` completes where the whole block is present, loads exactly the channels
whose units it has and moves `ICUR` by 4 bytes a unit; where the block is short it raises `INVALID_INPUT` and changes
nothing else. -/
def Obligations.PreambleLoadsOrFaults : Prop :=
  ∀ (u : PreUnits) (s : State),
    ((s.fsz.toNat : Int) ≤ (s.ilen.toNat : Int) - s.icur.toNat →
      ∃ t, exec (.pre u) s = .next t ∧
        t = { s with ch0 := t.ch0, ch1 := t.ch1, icur := s.icur + BitVec.ofNat 32 (4 * u.units.length) } ∧
        ∀ c : Channel,
          match u.units[c.num]? with
          | some p =>
            (t.chan c).pred.toNat = p.pLo.toNat + 256 * p.pHi.toNat ∧
            (t.chan c).idx = initIndex s.cfg.idxByteSigned p.i0 ∧ (t.chan c).loaded = true
          | none => t.chan c = s.chan c) ∧
    ((s.ilen.toNat : Int) - s.icur.toNat < s.fsz.toNat →
      exec (.pre u) s = .next { s with runState := .fault, cause := .invalidInput })

/-- 42_block_framer R162, R165 as meanings: `END` and `STOP` complete in every state, set the status and change nothing
else. -/
def Obligations.EndAndStopOnlySetStatus : Prop :=
  ∀ (u : PreUnits) (s : State),
    exec .endInput s = .next { s with runState := .done, cause := .endOfInput } ∧
    exec (.stop u) s = .next { s with runState := .done, cause := .reservedStop }

/-! ### The sequencer and the output writer -/

/-- 43_nibble_interleaver R191: `DB` completes in every state; the low nibble is decoded first, the high one from what it
left; the two samples stand little-endian at the four bytes from `OLEN`; nothing else changes. With the condition that
enables it, the byte it reads, and the rule's worked example, for the default tables. -/
def Obligations.MonoDataStep : Prop :=
  (∀ s : State, DecoderTurn s → s.runState = .run → s.icur.toNat % s.fsz.toNat ≠ 0 → s.nch.toNat = 1 →
    s.icur.toNat < s.ilen.toNat →
    step s = exec (.db (s.imemByte s.icur.toNat)) { s with inputs := s.inputs.tail }) ∧
  (∀ (b : Byte) (s : State), ∃ t,
    exec (.db b) s = .next t ∧
    (let first := decodeSample s.cfg (BitVec.ofNat 4 (b.toNat % 16)) s.ch0
     let second := decodeSample s.cfg (BitVec.ofNat 4 (b.toNat / 16)) first.2
     t.ch0 = second.2 ∧
     t = { s with ch0 := t.ch0, omem := t.omem, olen := s.olen + 4, icur := s.icur + 1 } ∧
     (t.omemByte s.olen.toNat).toNat = first.1.toNat % 256 ∧
     (t.omemByte (s.olen + 1).toNat).toNat = first.1.toNat / 256 ∧
     (t.omemByte (s.olen + 2).toNat).toNat = second.1.toNat % 256 ∧
     (t.omemByte (s.olen + 3).toNat).toNat = second.1.toNat / 256 ∧
     ∀ a : Nat, (∀ k < 4, a ≠ (s.olen + BitVec.ofNat 32 k).toNat) → t.omemByte a = s.omemByte a)) ∧
  (∀ s : State, s.cfg = defaultConfig → s.ch0.pred = 0 → s.ch0.idx = 0 → ∃ t,
    exec (.db 0x74) s = .next t ∧ t.ch0.pred = 23 ∧ t.ch0.idx = 10 ∧
    t.omemByte s.olen.toNat = 0x07 ∧ t.omemByte (s.olen + 1).toNat = 0x00 ∧
    t.omemByte (s.olen + 2).toNat = 0x17 ∧ t.omemByte (s.olen + 3).toNat = 0x00)

/-- 43_nibble_interleaver R196 with the nibbles of 30_encoding R89: `DG` completes in every state; with `base` the value
of `OLEN` when it begins, sample `i` of the left channel stands little-endian at `base + 4 * i` and of the right one at
`base + 4 * i + 2`; each channel's nibbles are decoded in order from its own registers; nothing else changes. With the
condition that enables it and the eight bytes it reads. -/
def Obligations.StereoGroupStep : Prop :=
  (∀ s : State, DecoderTurn s → s.runState = .run → s.icur.toNat % s.fsz.toNat ≠ 0 → s.nch.toNat = 2 →
    s.icur.toNat + 8 ≤ s.ilen.toNat →
    let g := fun j : Nat => s.imemByte (s.icur.toNat + j)
    step s = exec (.dg (g 0) (g 1) (g 2) (g 3) (g 4) (g 5) (g 6) (g 7)) { s with inputs := s.inputs.tail }) ∧
  ∀ (g0 g1 g2 g3 g4 g5 g6 g7 : Byte) (s : State),
    let left := channelSamples s.cfg ((List.range 8).map (nibbleAt [g0, g1, g2, g3])) s.ch0
    let right := channelSamples s.cfg ((List.range 8).map (nibbleAt [g4, g5, g6, g7])) s.ch1
    ∃ t, exec (.dg g0 g1 g2 g3 g4 g5 g6 g7) s = .next t ∧
      t.ch0 = left.2 ∧ t.ch1 = right.2 ∧
      t = { s with ch0 := t.ch0, ch1 := t.ch1, omem := t.omem, olen := s.olen + 32, icur := s.icur + 8 } ∧
      (∀ i < 8,
        let l := left.1.getD i 0
        let r := right.1.getD i 0
        let base := s.olen + BitVec.ofNat 32 (4 * i)
        t.omemByte base.toNat = loByte l ∧ t.omemByte (base + 1).toNat = hiByte l ∧
        t.omemByte (base + 2).toNat = loByte r ∧ t.omemByte (base + 3).toNat = hiByte r) ∧
      ∀ a : Nat, (∀ k < 32, a ≠ (s.olen + BitVec.ofNat 32 k).toNat) → t.omemByte a = s.omemByte a

/-- 20_memory R56: a 16-bit write puts the low byte at the address and the high one after it, and changes no other byte
and nothing else of the state; with the rule's examples. -/
def Obligations.SampleWriteIsLittleEndian : Prop :=
  (∀ (s : State) (a : Word) (v : Half),
    ((s.omemWriteHalf a v).omemByte a.toNat).toNat = v.toNat % 256 ∧
    ((s.omemWriteHalf a v).omemByte (a + 1).toNat).toNat = v.toNat / 256 ∧
    (∀ b : Nat, b ≠ a.toNat → b ≠ (a + 1).toNat → (s.omemWriteHalf a v).omemByte b = s.omemByte b) ∧
    s.omemWriteHalf a v = { s with omem := (s.omemWriteHalf a v).omem }) ∧
  (∀ (s : State) (a : Word) (v : Int) (lo hi : Byte),
    (v, lo, hi) ∈ [((100 : Int), (0x64 : Byte), (0x00 : Byte)), (-100, 0x9C, 0xFF), (-32768, 0x00, 0x80), (32767, 0xFF, 0x7F)] →
    (s.omemWriteHalf a (BitVec.ofInt 16 v)).omemByte a.toNat = lo ∧
    (s.omemWriteHalf a (BitVec.ofInt 16 v)).omemByte (a + 1).toNat = hi)

/-! ### The host's commands and registers -/

/-- 44_host_commands R211 with 10_state R31: `START` completes; in `IDLE` and `DONE` both cursors go to 0, the channel
registers hold no value (their contents are free), and the run begins if the configuration is legal, else
`INVALID_CONFIG` is raised; nothing else changes, whatever the ignored bits. With the rule's worked example. -/
def Obligations.StartBeginsARunOrFaults : Prop :=
  (∀ (x : BitVec 30) (s : State), (s.runState = .idle ∨ s.runState = .done) → ∃ t,
    exec (.start x) s = .next t ∧
    t = { s with icur := 0, olen := 0, ch0 := t.ch0, ch1 := t.ch1, runState := t.runState, cause := t.cause, draws := t.draws } ∧
    t.ch0.loaded = false ∧ t.ch1.loaded = false ∧
    (LegalConfig s → t.runState = .run ∧ t.cause = .noCause) ∧
    (¬ LegalConfig s → t.runState = .fault ∧ t.cause = .invalidConfig)) ∧
  ∃ t : State,
    Host.Core.run Sys2Proof.core 4
      { State.reset with inputs := [.writeReg 2 1, .writeReg 3 8, .writeReg 4 8, .writeReg 0 1] } = .next t ∧
    t.runState = .run ∧ t.icur = 0 ∧ t.olen = 0

/-- 44_host_commands R212: `START` in `RUN` and in `FAULT` changes nothing. -/
def Obligations.StartIsIgnoredInRunAndFault : Prop :=
  ∀ (x : BitVec 30) (s : State), (s.runState = .run ∨ s.runState = .fault) → exec (.start x) s = .next s

/-- 44_host_commands R213, 10_state R38: `RESET` completes in every state and gives every register its reset value, the
channel registers no value, and leaves both memories and the tables; the state after power-on has the same values. That
the contents of an empty channel register are 0 after reset is the model's choice (log 4) and not stated. -/
def Obligations.ResetGivesEveryRegisterItsResetValue : Prop :=
  ∀ (x : BitVec 30) (startBit : Bool) (s : State), ∃ t,
    exec (.reset x startBit) s = .next t ∧
    (∀ u : State, u = t ∨ u = State.reset →
      u.runState = .idle ∧ u.cause = .noCause ∧ u.icur = 0 ∧ u.olen = 0 ∧ u.nch = 0 ∧ u.fsz = 0 ∧ u.ilen = 0 ∧
      u.ch0.loaded = false ∧ u.ch1.loaded = false) ∧
    t = { s with runState := t.runState, cause := t.cause, icur := t.icur, olen := t.olen, nch := t.nch, fsz := t.fsz,
                 ilen := t.ilen, ch0 := t.ch0, ch1 := t.ch1 }

/-- 44_host_commands R210: a host write of `CTRL` with bit 1 set is a `RESET` whatever bit 0 is; with bit 1 clear and bit
0 set it is a `START`; with both clear it does nothing; the other bits are ignored; and `CTRL` reads as 0. -/
def Obligations.CtrlWriteIsACommand : Prop :=
  (∀ (v : Word) (rest : List Input) (s : State), s.inputs = .writeReg 0 v :: rest →
    (v.getLsbD 1 = true → ∀ x b, step s = exec (.reset x b) { s with inputs := rest }) ∧
    (v.getLsbD 1 = false → v.getLsbD 0 = true → ∀ x, step s = exec (.start x) { s with inputs := rest }) ∧
    (v.getLsbD 1 = false → v.getLsbD 0 = false → step s = .next { s with inputs := rest })) ∧
  (∀ (rest : List Input) (s : State), s.inputs = .readReg 0 :: rest →
    step s = .next { s with inputs := rest, replies := 0 :: s.replies })

/-- 10_state R30 with the codes of R33 and R34: what a host read of each register returns; a read changes nothing of the
block. That a read of `OLEN` after the run has ended needs no earlier read of `STATUS` is the model's choice (log 20). -/
def Obligations.RegisterReadsFollowTheMap : Prop :=
  ∀ (n : Nat) (rest : List Input) (s : State), s.inputs = .readReg n :: rest → ∃ v : Word,
    step s = .next { s with inputs := rest, replies := v :: s.replies } ∧
    (n = 0 → v.toNat = 0) ∧
    (n = 1 → v.toNat =
      (match s.runState with | .idle => 0 | .run => 1 | .done => 2 | .fault => 3) +
      16 * (match s.cause with | .noCause => 0 | .endOfInput => 1 | .reservedStop => 2 | .invalidConfig => 3 | .invalidInput => 4)) ∧
    (n = 2 → v.toNat = s.nch.toNat) ∧ (n = 3 → v.toNat = s.fsz.toNat) ∧ (n = 4 → v.toNat = s.ilen.toNat) ∧
    (n = 5 → v.toNat = s.icur.toNat) ∧ (n = 6 → v.toNat = s.olen.toNat) ∧ (7 ≤ n → v.toNat = 0)

/-- 10_state R30, R32: a host write of `NCH`, `FSZ` or `ILEN` takes the value cut to the register's width, unless a run is
in progress, when it is ignored; a write of any register other than these and `CTRL` is ignored. -/
def Obligations.RegisterWritesFollowTheMap : Prop :=
  ∀ (n : Nat) (v : Word) (rest : List Input) (s : State), s.inputs = .writeReg n v :: rest → n ≠ 0 → ∃ t,
    step s = .next t ∧
    t = { s with inputs := rest, nch := t.nch, fsz := t.fsz, ilen := t.ilen } ∧
    t.nch.toNat = (if n = 2 ∧ s.runState ≠ .run then v.toNat % 65536 else s.nch.toNat) ∧
    t.fsz.toNat = (if n = 3 ∧ s.runState ≠ .run then v.toNat % 65536 else s.fsz.toNat) ∧
    t.ilen = (if n = 4 ∧ s.runState ≠ .run then v else s.ilen)

/-- 44_host_commands R216, 20_memory R59 and 93_implementation_defined U9 (log 12): outside a run the host writes `IMEM`
and reads both memories, a read changing nothing of the block; during a run such a move has no meaning and is refused by
name. That a read of `OMEM` returns what stands there also before the host has read `STATUS` is the model's choice (log 20), as is what a read returns after a `RESET` has abandoned a run (log 21). -/
def Obligations.HostMemoryMovesOnlyOutsideARun : Prop :=
  ∀ (a : Word) (b : Byte) (rest : List Input) (s : State),
    (s.inputs = .writeIMem a b :: rest → s.runState ≠ .run → ∃ t,
      step s = .next t ∧ t = { s with inputs := rest, imem := t.imem } ∧ t.imemByte a.toNat = b ∧
      ∀ k : Nat, k ≠ a.toNat → t.imemByte k = s.imemByte k) ∧
    (s.inputs = .readIMem a :: rest → s.runState ≠ .run →
      step s = .next { s with inputs := rest, replies := BitVec.ofNat 32 (s.imemByte a.toNat).toNat :: s.replies }) ∧
    (s.inputs = .readOMem a :: rest → s.runState ≠ .run →
      step s = .next { s with inputs := rest, replies := BitVec.ofNat 32 (s.omemByte a.toNat).toNat :: s.replies }) ∧
    ((s.inputs = .writeIMem a b :: rest ∨ s.inputs = .readIMem a :: rest ∨ s.inputs = .readOMem a :: rest) →
      s.runState = .run → step s = .refused .hostBreach)

/-! ### Run states and faults -/

/-- 60_exceptions R258: `FAULT` and its cause stay through every step but a `RESET`, which leaves it; neither the
decoder nor `START` acts there. -/
def Obligations.FaultIsLeftOnlyByReset : Prop :=
  ∀ s t : State, step s = .next t → s.runState = .fault →
    (¬ ResetNext s → t.runState = .fault ∧ t.cause = s.cause) ∧
    (ResetNext s → t.runState = .idle ∧ t.cause = .noCause) ∧
    (DecoderTurn s ∨ StartNext s → t = { s with inputs := s.inputs.tail })

/-- 10_state R33, R34 and 60_exceptions R250: whatever moves, a run state is entered only as the rules say, with the
cause the rules give and, for the decoder's own endings, only at a block boundary. -/
def Obligations.RunStateChangesOnlyByRule : Prop :=
  ∀ s t : State, step s = .next t →
    (t.runState = .idle → s.runState = .idle ∨ ResetNext s) ∧
    (t.runState = .run →
      s.runState = .run ∨ (StartNext s ∧ (s.runState = .idle ∨ s.runState = .done) ∧ LegalConfig s ∧ t.cause = .noCause)) ∧
    (t.runState = .done →
      s.runState = .done ∨
      (s.runState = .run ∧ DecoderTurn s ∧ s.icur.toNat % s.fsz.toNat = 0 ∧ t.icur = s.icur ∧
        ((t.cause = .endOfInput ∧ s.icur = s.ilen) ∨
         (t.cause = .reservedStop ∧ s.icur.toNat + 4 * s.nch.toNat ≤ s.ilen.toNat)))) ∧
    (t.runState = .fault →
      s.runState = .fault ∨
      (StartNext s ∧ (s.runState = .idle ∨ s.runState = .done) ∧ ¬ LegalConfig s ∧ t.cause = .invalidConfig) ∨
      (s.runState = .run ∧ DecoderTurn s ∧ s.icur.toNat % s.fsz.toNat = 0 ∧ t.cause = .invalidInput))

/-- 60_exceptions R256 and R257, the latter derived by the spec: a fault of the decoder is raised at a block boundary
and changes nothing but status; what was written before it is exactly the output of the whole blocks before the cursor.
-/
def Obligations.DecoderFaultIsPrecise : Prop :=
  ∀ s t : State, Inv s → step s = .next t → s.runState = .run → t.runState = .fault →
    t = { s with runState := .fault, cause := .invalidInput, inputs := t.inputs } ∧
    s.icur.toNat % s.fsz.toNat = 0 ∧
    s.olen.toNat = s.icur.toNat / s.fsz.toNat * blockOutputBytes s

/-- 42_block_framer R160 in the model's convention (log 3): outside `RUN` the decoder has no step, so the decoder's turn
changes nothing but the list of pending moves. -/
def Obligations.DecoderIsStillOutsideARun : Prop :=
  ∀ s : State, s.runState ≠ .run → DecoderTurn s → step s = .next { s with inputs := s.inputs.tail }

/-! ### The step and the encoding -/

/-- A step runs the decoded instruction (42_block_framer R160, R161; 30_encoding R81; log 1, log 10): on the decoder's
turn in a run, with the bytes below `ILEN` at `ICUR` decoded at the place that `ICUR`, `FSZ`, `NCH` and `ILEN` say; on a
write of `CTRL`, with the value's bytes; on a nibble presented alone, the model's own entry (log 8), with its code outside
a run, and in a run not at all. -/
def Obligations.StepRunsTheDecodedInstruction : Prop :=
  (∀ (s : State) (i : Instr) (rest : List Byte), DecoderTurn s → s.runState = .run →
    let u : State := { s with inputs := s.inputs.tail }
    let rem : Int := (s.ilen.toNat : Int) - s.icur.toNat
    let mode : Mode := if s.nch.toNat = 1 then .mono else .stereo
    (s.icur.toNat % s.fsz.toNat = 0 → rem = 0 → step s = exec .endInput u) ∧
    (s.icur.toNat % s.fsz.toNat = 0 → rem ≠ 0 → 4 * s.nch.toNat ≤ rem →
      decode (.boundary mode) (s.readInput s.icur.toNat (4 * mode.channels)) = .instr i rest → step s = exec i u) ∧
    (s.icur.toNat % s.fsz.toNat ≠ 0 →
      decode (.region mode) (s.readInput s.icur.toNat (if s.nch.toNat = 1 then 1 else 8)) = .instr i rest →
      step s = exec i u)) ∧
  (∀ (s : State) (v : Word) (i : Instr) (tail : List Input), s.inputs = .writeReg 0 v :: tail →
    decode .ctrl (bytesOfWord v) = .instr i [] → step s = exec i { s with inputs := tail }) ∧
  (∀ (s : State) (c : Channel) (n : Nibble) (tail : List Input), s.inputs = .nibble c n :: tail →
    (s.runState ≠ .run → step s = exec (nibbleInstr c n) { s with inputs := tail }) ∧
    (s.runState = .run → step s = .refused .nibbleInRun))

/-- The placement of a table word (log 9, log 10): whatever the state, the very next step runs exactly the instruction
that the decoder reads from the word. -/
def Obligations.PlacedWordRunsNext : Prop :=
  ∀ (s : State) (nbits w : Nat) (i : Instr), decodeTableWord nbits w = some i →
    step (s.withFetchWord nbits w) = exec i { s.withFetchWord nbits w with inputs := s.inputs }

/-- 30_encoding R82 to R92: decoding an encoded well-formed instruction, whatever bytes follow, gives it back with the
bytes that follow. -/
def Obligations.DecodeOfEncodeIsTheInstruction : Prop :=
  ∀ (i : Instr) (rest : List Byte), i.wf = true → decode (placeOf i) (encode i ++ rest) = .instr i rest

/-- 30_encoding R81 to R92, the other direction: whatever bytes decode to an instruction at a place are its encoding, it
is well-formed and stands at that place. -/
def Obligations.EncodeOfDecodeIsTheBytes : Prop :=
  ∀ (p : Place) (bs rest : List Byte) (i : Instr), decode p bs = .instr i rest →
    i.wf = true ∧ placeOf i = p ∧ encode i ++ rest = bs

/-- 30_encoding R91, R94: no stream byte is illegal: at a block boundary any bytes are preamble units, in a sample region
any bytes are data units, and each of the sixteen nibble values is a code. -/
def Obligations.NoStreamByteIsIllegal : Prop :=
  (∀ (m : Mode) (bs : List Byte), 4 * m.channels ≤ bs.length →
    ∃ u, u.mode = m ∧
      (decode (.boundary m) bs = .instr (.pre u) (bs.drop (4 * m.channels)) ∨
       decode (.boundary m) bs = .instr (.stop u) (bs.drop (4 * m.channels)))) ∧
  (∀ bs : List Byte, 1 ≤ bs.length → ∃ b, decode (.region .mono) bs = .instr (.db b) (bs.drop 1)) ∧
  (∀ bs : List Byte, 8 ≤ bs.length → ∃ g0 g1 g2 g3 g4 g5 g6 g7,
    decode (.region .stereo) bs = .instr (.dg g0 g1 g2 g3 g4 g5 g6 g7) (bs.drop 8)) ∧
  (∀ (c : Channel) (n : Nibble), decode (.lane c) [BitVec.ofNat 8 n.toNat] = .instr (nibbleInstr c n) [])

/-- Words written out from 30_encoding R82, R88, R89, R91 and 44_host_commands R210 decode to what they stand for. -/
def Obligations.WrittenOutWordsDecode : Prop :=
  decode (.lane .ch1) [0b00001011] = .instr (.nB .ch1) [] ∧
  decode (.boundary .mono) [0xE8, 0x03, 0x2C, 0x00] = .instr (.pre (.mono ⟨0xE8, 0x03, 0x2C, 0x00⟩)) [] ∧
  decode (.boundary .mono) [0x34, 0x12, 0x20, 0x01] = .instr (.stop (.mono ⟨0x34, 0x12, 0x20, 0x01⟩)) [] ∧
  decode (.boundary .stereo) [0x64, 0x00, 0x00, 0x00, 0x9C, 0xFF, 0x00, 0x01] =
    .instr (.stop (.stereo ⟨0x64, 0x00, 0x00, 0x00⟩ ⟨0x9C, 0xFF, 0x00, 0x01⟩)) [] ∧
  decode (.region .mono) [0x74] = .instr (.db 0x74) [] ∧
  decode .ctrl [0x01, 0x00, 0x00, 0x00] = .instr (.start 0) [] ∧
  decode .ctrl [0x03, 0x00, 0x00, 0x00] = .instr (.reset 0 true) []

/-! ### The invariant -/

/-- The invariant holds after reset, whatever the tables and the pending moves. -/
def Obligations.ResetMeetsTheInvariant : Prop :=
  ∀ (cfg : Config) (moves : List Input), Inv { State.reset with cfg := cfg, inputs := moves }

/-- Every step keeps the invariant: whoever moves, from every state that meets it. -/
def Obligations.EveryStepKeepsTheInvariant : Prop :=
  ∀ s t : State, Inv s → step s = .next t → Inv t

/-- 42_block_framer R170, R172 and 10_state R28, all three derived by the spec, over everything a host can make happen:
from power-on with any tables and any host moves, after any number of steps, the cursors of a run stand as the rules
say, and `OLEN` is a multiple of 4 in every state. -/
def Obligations.ReachableRunsKeepTheBlockInvariant : Prop :=
  ∀ (cfg : Config) (moves : List Input) (k : Nat) (t : State),
    Host.Core.run Sys2Proof.core k { State.reset with cfg := cfg, inputs := moves } = .next t →
    t.olen.toNat % 4 = 0 ∧
    (t.runState = .run →
      t.icur.toNat ≤ t.ilen.toNat ∧ t.olen.toNat ≤ 4 * t.ilen.toNat ∧
      (t.icur.toNat % t.fsz.toNat ≠ 0 →
        (t.icur.toNat / t.fsz.toNat + 1) * t.fsz.toNat ≤ t.ilen.toNat ∧
        4 * t.nch.toNat ≤ t.icur.toNat % t.fsz.toNat ∧
        (t.nch.toNat = 2 → (t.icur.toNat % t.fsz.toNat - 8) % 8 = 0 ∧
          t.icur.toNat + 8 ≤ (t.icur.toNat / t.fsz.toNat + 1) * t.fsz.toNat) ∧
        ∀ c : Channel, c.num < t.nch.toNat → (t.chan c).loaded = true))

/-- 20_memory R52, the sentence "The decoder never reads at `a >= ILEN`", which the spec derives: from a state that
meets the invariant no step reads the input at or beyond `ILEN`, so none faults, and it is refused only in a run, on a
host move that the host's duties forbid (log 12) or on the model's own nibble entry (log 8). -/
def Obligations.NoReadBeyondTheInput : Prop :=
  ∀ s : State, Inv s →
    (∀ f, step s ≠ .fault f) ∧
    (∀ r, step s = .refused r → s.runState = .run ∧ ∃ m rest, s.inputs = m :: rest ∧
      ((r = .hostBreach ∧ ((∃ a b, m = .writeIMem a b) ∨ (∃ a, m = .readIMem a) ∨ ∃ a, m = .readOMem a)) ∨
       (r = .nibbleInRun ∧ ∃ c n, m = .nibble c n)))

/-! ### Whole-machine rules -/

/-- 10_state R35, 40_luts R110: no step of the decoder, no host move and no reset writes a table or `IDX_BYTE_SIGNED`. -/
def Obligations.TablesAreNeverWritten : Prop :=
  ∀ s t : State, step s = .next t → t.cfg = s.cfg

/-- 20_memory R51: `IMEM` is written by the host before a run and by no one during a run: a step changes it only if it
is a host write outside `RUN`, and then in that one byte alone. -/
def Obligations.InputMemoryIsWrittenByTheHostOnly : Prop :=
  ∀ s t : State, step s = .next t →
    t.imem = s.imem ∨
    ∃ a b rest, s.inputs = .writeIMem a b :: rest ∧ s.runState ≠ .run ∧ t.imemByte a.toNat = b ∧
      ∀ k : Nat, k ≠ a.toNat → t.imemByte k = s.imemByte k

/-- 20_memory R53, 43_nibble_interleaver R199, both derived by the spec: a byte of `OMEM` changes only by the decoder's
step in a run, and lies between `OLEN` before the step and `OLEN` after it; `OLEN` moves by 4 or by 32 then, and
otherwise it stays but for `START` and `RESET`. -/
def Obligations.OutputGrowsOnlyAtItsEnd : Prop :=
  ∀ s t : State, Inv s → step s = .next t →
    (∀ a : Nat, t.omemByte a ≠ s.omemByte a →
      s.runState = .run ∧ DecoderTurn s ∧ s.olen.toNat ≤ a ∧ a < t.olen.toNat) ∧
    (t.olen.toNat = s.olen.toNat ∨
      (s.runState = .run ∧ DecoderTurn s ∧
        t.olen.toNat = s.olen.toNat + (if s.nch.toNat = 1 then 4 else 32)) ∨
      (t.olen = 0 ∧ (StartNext s ∨ ResetNext s)))

/-! ### Whole runs -/

/-- 42_block_framer R173, derived by the spec: in a run every decoder step ends the run or moves `ICUR` forward, so the
run ends within `ILEN - ICUR + 1` steps, at most `ILEN + 1` from its start. -/
def Obligations.EveryRunEnds : Prop :=
  ∀ s : State, Inv s → s.runState = .run → s.inputs = [] →
    (∃ t, step s = .next t ∧ (t.runState ≠ .run ∨ s.icur.toNat + 1 ≤ t.icur.toNat)) ∧
    ∃ k, k ≤ s.ilen.toNat - s.icur.toNat + 1 ∧ ∃ t : State,
      Host.Core.run Sys2Proof.core k s = .next t ∧ (t.runState = .done ∨ t.runState = .fault)

/-- 42_block_framer R174, derived by the spec: how a run ends, as a function of its framing and its reserved bytes, with
the output it leaves: all of `OMEM` below `OLEN`, since `OLEN` is a whole number of blocks in every row. -/
def Obligations.RunEndsAsTheTableSays : Prop :=
  ∀ s : State, JustStarted s →
    let q := s.ilen.toNat / s.fsz.toNat
    let r := s.ilen.toNat % s.fsz.toNat
    let d := blockOutputBytes s
    (∀ b < q, ReservedSet s b → (∀ j < b, ¬ ReservedSet s j) →
      EndsIn s .done .reservedStop (b * s.fsz.toNat) (b * d)) ∧
    ((∀ j < q, ¬ ReservedSet s j) →
      (r = 0 → EndsIn s .done .endOfInput s.ilen.toNat (q * d)) ∧
      (0 < r → r < 4 * s.nch.toNat → EndsIn s .fault .invalidInput (q * s.fsz.toNat) (q * d)) ∧
      (4 * s.nch.toNat ≤ r → ReservedSet s q → EndsIn s .done .reservedStop (q * s.fsz.toNat) (q * d)) ∧
      (4 * s.nch.toNat ≤ r → ¬ ReservedSet s q → EndsIn s .fault .invalidInput (q * s.fsz.toNat) (q * d)))

/-- 43_nibble_interleaver R192, R197 with 42_block_framer R171, R174, all derived by the spec: at every point of a run,
each whole block before the cursor has been decoded from its own preamble, independently of every other block, and its
samples stand in `OMEM` where the rules put them, little-endian. -/
def Obligations.OutputIsTheBlocksDecoded : Prop :=
  ∀ (s : State) (k : Nat) (t : State), JustStarted s → Host.Core.run Sys2Proof.core k s = .next t → BlocksDecoded s t

/-- 00_scope R13: the run is a function of the configuration, the stream below `ILEN`, the tables and `IDX_BYTE_SIGNED`
and of nothing else: two runs that share these, whatever else their states hold, agree at every step in status,
cursors and the output produced. -/
def Obligations.RunDependsOnItsInputsAlone : Prop :=
  ∀ s t : State, JustStarted s → JustStarted t → SameRunInputs s t →
    ∀ k : Nat, ∃ s' t' : State,
      Host.Core.run Sys2Proof.core k s = .next s' ∧ Host.Core.run Sys2Proof.core k t = .next t' ∧ SameRunOutputs s' t'

/-- 00_scope R12 and R13 with the host in play: in a run only the decoder moves the block. A step that is not the
decoder's is a `RESET`, or changes nothing but the lists of pending moves and of replies: writes of registers and `START`
are ignored (10_state R32, 44_host_commands R212), reads change nothing. -/
def Obligations.DuringARunOnlyTheDecoderActs : Prop :=
  ∀ s t : State, step s = .next t → s.runState = .run → ¬ DecoderTurn s →
    (ResetNext s ∧ t = { s.resetRegisters with inputs := s.inputs.tail }) ∨
    t = { s with inputs := s.inputs.tail, replies := t.replies }

/-- 00_scope R13 over every interleaving with the host: whatever moves are pending, as long as a run goes on, the state
after `k` steps is the one that the run left alone has after some `j ≤ k` steps, but for the pending moves and the replies;
or the last step was a `RESET`. -/
def Obligations.HostMovesDoNotDisturbARun : Prop :=
  ∀ (s : State) (moves : List Input) (k : Nat) (t : State), s.inputs = [] →
    Host.Core.run Sys2Proof.core k { s with inputs := moves } = .next t →
    (∀ j < k, ∃ u : State, Host.Core.run Sys2Proof.core j { s with inputs := moves } = .next u ∧ u.runState = .run) →
    t.runState = .idle ∨
    ∃ j ≤ k, ∃ u : State, Host.Core.run Sys2Proof.core j s = .next u ∧
      t = { u with inputs := t.inputs, replies := t.replies }

/-- 44_host_commands R215, 60_exceptions R256: a run that has ended in `DONE` has the result `OMEM[0 .. OLEN - 1]`; in
every other run state there is no result. -/
def Obligations.ResultIsTheOutputOfADoneRun : Prop :=
  ∀ s : State,
    (s.runState = .done → ∃ out, s.result = some out ∧ out.length = s.olen.toNat ∧
      ∀ j < s.olen.toNat, out[j]? = some (s.omemByte j)) ∧
    (s.runState ≠ .done → s.result = none)

/-! ### The host's containers, outside the block -/

/-- 45_host_wav_container R235, R236: the fields of the output header for `OLEN` bytes, and FJ2's example. That a sum or
product is cut to the width of its field (the clauses with `2 ^ 32` and `2 ^ 16`) is the model's choice, log 19; R235
states them without a bound. -/
def Obligations.OutputHeaderFields : Prop :=
  (∀ (info : WavFormatInfo) (olen : Word),
    let h := outputHeader info olen
    h.length = 44 ∧ headerHalf h 20 = 1 ∧ headerHalf h 22 = info.numChannels ∧ headerWord h 24 = info.sampleRate ∧
    (headerWord h 28).toNat = info.sampleRate.toNat * info.numChannels.toNat * 2 % 2 ^ 32 ∧
    (headerHalf h 32).toNat = info.numChannels.toNat * 2 % 2 ^ 16 ∧ headerHalf h 34 = 16 ∧
    headerWord h 40 = olen ∧ (headerWord h 4).toNat = (36 + olen.toNat) % 2 ^ 32) ∧
  (∀ (info : WavFormatInfo) (n : Nat), info.sampleRate = 8000 → info.numChannels = 1 → 36 + n * 2 < 2 ^ 32 →
    let h := outputHeader info (BitVec.ofNat 32 (n * 2))
    (headerWord h 40).toNat = n * 2 ∧ (headerWord h 4).toNat = 36 + n * 2 ∧
    (headerHalf h 32).toNat = 2 ∧ (headerWord h 28).toNat = 16000)

/-- 45_host_wav_container R232, R233, 70_reset_and_hazards R285: the host's moves for a file, carried out by the machine
outside a run, leave the stream in `IMEM` from offset 0, every other byte of `IMEM` as it was, and the container's framing in
the configuration as the header has it, with `START` next, which refuses an illegal framing or begins a run (U3). The
files that have moves are those with a whole header and a stream below 2^32 bytes, the latter the model's choice (log
19), as is that `START` follows where the header declares more bytes than are present (log 19). -/
def Obligations.HostMovesLoadTheStream : Prop :=
  (∀ (src : IlenSource) (file : List Byte),
    (∃ moves, hostMoves src file = some moves) ↔ 44 ≤ file.length ∧ file.length - 44 < 2 ^ 32) ∧
  ∀ (src : IlenSource) (file : List Byte) (moves : List Input) (s : State),
    hostMoves src file = some moves → s.runState ≠ .run → ∃ t : State,
      Host.Core.run Sys2Proof.core (moves.length - 1) { s with inputs := moves } = .next t ∧
      t.inputs = [.writeReg 0 1] ∧
      t.nch = headerHalf file 22 ∧ t.fsz = headerHalf file 32 ∧
      (t.ilen.toNat = match src with
        | .headerDataSize => (headerWord file 40).toNat
        | .bytesPresent => file.length - 44) ∧
      (∀ j, 44 + j < file.length → some (t.imemByte j) = file[44 + j]?) ∧
      (∀ a, file.length - 44 ≤ a → t.imemByte a = s.imemByte a) ∧
      (s.runState = .idle ∨ s.runState = .done → ∃ u : State, step t = .next u ∧
        (LegalConfig t → u.runState = .run ∧ u.cause = .noCause) ∧
        (¬ LegalConfig t → u.runState = .fault ∧ u.cause = .invalidConfig))
end

