-- ==== Sys2Proof/Laws/Decoding.lean ====
section
/-! SUPPORT. The laws of the decoder and the encoder. -/

namespace Sys2Proof

/-- Byte `k` of a word as a number. -/
theorem extractByte_toNat (w : Word) (k : Nat) : (w.extractLsb' (8 * k) 8).toNat = w.toNat / 2 ^ (8 * k) % 256 := by
  rw [BitVec.extractLsb'_toNat, Nat.shiftRight_eq_div_pow]

theorem wordOf_toNat (b0 b1 b2 b3 : Byte) :
    (wordOf b0 b1 b2 b3).toNat = b0.toNat + 2 ^ 8 * b1.toNat + 2 ^ 16 * b2.toNat + 2 ^ 24 * b3.toNat := by
  have h0 := b0.isLt
  have h1 := b1.isLt
  have h2 := b2.isLt
  have h3 := b3.isLt
  rw [wordOf, BitVec.toNat_ofNat]
  omega

/-- A word's bytes give it back. -/
theorem wordOf_bytes (w : Word) :
    wordOf (w.extractLsb' 0 8) (w.extractLsb' 8 8) (w.extractLsb' 16 8) (w.extractLsb' 24 8) = w := by
  have hw := w.isLt
  have e0 := extractByte_toNat w 0
  have e1 := extractByte_toNat w 1
  have e2 := extractByte_toNat w 2
  have e3 := extractByte_toNat w 3
  apply BitVec.eq_of_toNat_eq
  rw [wordOf_toNat]
  simp only [Nat.mul_zero, Nat.mul_one, Nat.reduceMul] at e0 e1 e2 e3
  omega

/-- Bytes make a word whose bytes they are. -/
theorem bytes_wordOf (b0 b1 b2 b3 : Byte) : bytesOfWord (wordOf b0 b1 b2 b3) = [b0, b1, b2, b3] := by
  have h0 := b0.isLt
  have h1 := b1.isLt
  have h2 := b2.isLt
  have h3 := b3.isLt
  have hw := wordOf_toNat b0 b1 b2 b3
  have e0 := extractByte_toNat (wordOf b0 b1 b2 b3) 0
  have e1 := extractByte_toNat (wordOf b0 b1 b2 b3) 1
  have e2 := extractByte_toNat (wordOf b0 b1 b2 b3) 2
  have e3 := extractByte_toNat (wordOf b0 b1 b2 b3) 3
  simp only [Nat.mul_zero, Nat.mul_one, Nat.reduceMul] at e0 e1 e2 e3
  simp only [bytesOfWord, List.cons.injEq, and_true]
  refine ⟨?_, ?_, ?_, ?_⟩ <;> apply BitVec.eq_of_toNat_eq <;> omega

/-- At the `CTRL` place the four bytes of a word are read as the word. -/
theorem decode_ctrl (v : Word) (rest : List Byte) :
    decode .ctrl (bytesOfWord v ++ rest) =
      match decodeCtrl v with
      | some i => .instr i rest
      | none => .reject .noCommand := by
  cases h : decodeCtrl v <;> simp only [bytesOfWord, List.cons_append, List.nil_append, decode, wordOf_bytes, h]

/-- What a `CTRL` value stands for, by its two command bits (44_host_commands R210). -/
theorem decodeCtrl_cases (v : Word) :
    (v.getLsbD 1 = true ∧ decodeCtrl v = some (.reset (v.extractLsb' 2 30) (v.getLsbD 0))) ∨
    (v.getLsbD 1 = false ∧ v.getLsbD 0 = true ∧ decodeCtrl v = some (.start (v.extractLsb' 2 30))) ∨
    (v.getLsbD 1 = false ∧ v.getLsbD 0 = false ∧ decodeCtrl v = none) := by
  unfold decodeCtrl
  cases v.getLsbD 1 <;> cases v.getLsbD 0 <;> simp

/-! A command word: 30 ignored bits above the two command bits. -/

theorem ctrlWord_low (x : BitVec 30) (y : BitVec 2) (i : Nat) (h : i < 2) : (x ++ y).getLsbD i = y.getLsbD i := by
  rw [BitVec.getLsbD_append, if_pos h]

theorem ctrlWord_high (x : BitVec 30) (y : BitVec 2) : (x ++ y).extractLsb' 2 30 = x := by
  apply BitVec.eq_of_getLsbD_eq
  intro i hi
  rw [BitVec.getLsbD_extractLsb', BitVec.getLsbD_append, if_neg (by omega)]
  simp [hi]

theorem ctrlWord_split (v : Word) : (v.extractLsb' 2 30 ++ v.extractLsb' 0 2 : BitVec (30 + 2)) = v := by
  apply BitVec.eq_of_getLsbD_eq
  intro i hi
  rw [BitVec.getLsbD_append]
  by_cases h : i < 2
  · rw [if_pos h, BitVec.getLsbD_extractLsb']; simp [h]
  · rw [if_neg h, BitVec.getLsbD_extractLsb']
    have : 2 + (i - 2) = i := by omega
    rw [this]; simp; omega

theorem commandBits (v : Word) :
    v.extractLsb' 0 2 = (BitVec.ofBool (v.getLsbD 1) ++ BitVec.ofBool (v.getLsbD 0) : BitVec (1 + 1)) := by
  apply BitVec.eq_of_getLsbD_eq
  intro i hi
  have : i = 0 ∨ i = 1 := by omega
  rcases this with rfl | rfl
  · rw [BitVec.getLsbD_extractLsb', BitVec.getLsbD_append]; simp
  · rw [BitVec.getLsbD_extractLsb', BitVec.getLsbD_append]; simp

/-- A nibble code is one of the sixteen instructions, at the lane of its channel. -/
theorem placeOf_nibbleInstr (c : Channel) (n : Nibble) : placeOf (nibbleInstr c n) = .lane c := by
  unfold nibbleInstr; split <;> rfl

theorem wf_nibbleInstr (c : Channel) (n : Nibble) : (nibbleInstr c n).wf = true := by
  unfold nibbleInstr; split <;> rfl

/-- The preamble units of a boundary are read whatever their bytes: no byte value is illegal (30_encoding R94). -/
theorem boundaryInstr_cases (u : PreUnits) :
    (u.allReservedZero = true ∧ boundaryInstr u = .pre u) ∨
    (u.allReservedZero = false ∧ boundaryInstr u = .stop u) := by
  unfold boundaryInstr
  cases u.allReservedZero <;> simp

theorem wf_boundaryInstr (u : PreUnits) : (boundaryInstr u).wf = true := by
  rcases boundaryInstr_cases u with ⟨h, e⟩ | ⟨h, e⟩ <;> simp [e, Instr.wf, h]

end Sys2Proof
end

