-- ==== Sys2Proof/Laws/State.lean ====
section
/-! SUPPORT. One lemma per field per state update, true by rfl, so that no later proof unfolds a record update. -/

namespace Sys2Proof.Machine

variable (s : State)

/-! ### imemWrite -/

@[simp] theorem imemWrite_ch0 (a : Word) (b : Byte) : (s.imemWrite a b).ch0 = s.ch0 := rfl
@[simp] theorem imemWrite_ch1 (a : Word) (b : Byte) : (s.imemWrite a b).ch1 = s.ch1 := rfl
@[simp] theorem imemWrite_icur (a : Word) (b : Byte) : (s.imemWrite a b).icur = s.icur := rfl
@[simp] theorem imemWrite_olen (a : Word) (b : Byte) : (s.imemWrite a b).olen = s.olen := rfl
@[simp] theorem imemWrite_runState (a : Word) (b : Byte) : (s.imemWrite a b).runState = s.runState := rfl
@[simp] theorem imemWrite_cause (a : Word) (b : Byte) : (s.imemWrite a b).cause = s.cause := rfl
@[simp] theorem imemWrite_nch (a : Word) (b : Byte) : (s.imemWrite a b).nch = s.nch := rfl
@[simp] theorem imemWrite_fsz (a : Word) (b : Byte) : (s.imemWrite a b).fsz = s.fsz := rfl
@[simp] theorem imemWrite_ilen (a : Word) (b : Byte) : (s.imemWrite a b).ilen = s.ilen := rfl
@[simp] theorem imemWrite_imem (a : Word) (b : Byte) : (s.imemWrite a b).imem = Memory.set s.imem a.toNat b := rfl
@[simp] theorem imemWrite_omem (a : Word) (b : Byte) : (s.imemWrite a b).omem = s.omem := rfl
@[simp] theorem imemWrite_cfg (a : Word) (b : Byte) : (s.imemWrite a b).cfg = s.cfg := rfl
@[simp] theorem imemWrite_inputs (a : Word) (b : Byte) : (s.imemWrite a b).inputs = s.inputs := rfl
@[simp] theorem imemWrite_replies (a : Word) (b : Byte) : (s.imemWrite a b).replies = s.replies := rfl
@[simp] theorem imemWrite_draws (a : Word) (b : Byte) : (s.imemWrite a b).draws = s.draws := rfl

/-! ### omemWrite -/

@[simp] theorem omemWrite_ch0 (a : Word) (b : Byte) : (s.omemWrite a b).ch0 = s.ch0 := rfl
@[simp] theorem omemWrite_ch1 (a : Word) (b : Byte) : (s.omemWrite a b).ch1 = s.ch1 := rfl
@[simp] theorem omemWrite_icur (a : Word) (b : Byte) : (s.omemWrite a b).icur = s.icur := rfl
@[simp] theorem omemWrite_olen (a : Word) (b : Byte) : (s.omemWrite a b).olen = s.olen := rfl
@[simp] theorem omemWrite_runState (a : Word) (b : Byte) : (s.omemWrite a b).runState = s.runState := rfl
@[simp] theorem omemWrite_cause (a : Word) (b : Byte) : (s.omemWrite a b).cause = s.cause := rfl
@[simp] theorem omemWrite_nch (a : Word) (b : Byte) : (s.omemWrite a b).nch = s.nch := rfl
@[simp] theorem omemWrite_fsz (a : Word) (b : Byte) : (s.omemWrite a b).fsz = s.fsz := rfl
@[simp] theorem omemWrite_ilen (a : Word) (b : Byte) : (s.omemWrite a b).ilen = s.ilen := rfl
@[simp] theorem omemWrite_imem (a : Word) (b : Byte) : (s.omemWrite a b).imem = s.imem := rfl
@[simp] theorem omemWrite_omem (a : Word) (b : Byte) : (s.omemWrite a b).omem = Memory.set s.omem a.toNat b := rfl
@[simp] theorem omemWrite_cfg (a : Word) (b : Byte) : (s.omemWrite a b).cfg = s.cfg := rfl
@[simp] theorem omemWrite_inputs (a : Word) (b : Byte) : (s.omemWrite a b).inputs = s.inputs := rfl
@[simp] theorem omemWrite_replies (a : Word) (b : Byte) : (s.omemWrite a b).replies = s.replies := rfl
@[simp] theorem omemWrite_draws (a : Word) (b : Byte) : (s.omemWrite a b).draws = s.draws := rfl

/-! ### omemWriteHalf -/

@[simp] theorem omemWriteHalf_ch0 (a : Word) (v : Half) : (s.omemWriteHalf a v).ch0 = s.ch0 := rfl
@[simp] theorem omemWriteHalf_ch1 (a : Word) (v : Half) : (s.omemWriteHalf a v).ch1 = s.ch1 := rfl
@[simp] theorem omemWriteHalf_icur (a : Word) (v : Half) : (s.omemWriteHalf a v).icur = s.icur := rfl
@[simp] theorem omemWriteHalf_olen (a : Word) (v : Half) : (s.omemWriteHalf a v).olen = s.olen := rfl
@[simp] theorem omemWriteHalf_runState (a : Word) (v : Half) : (s.omemWriteHalf a v).runState = s.runState := rfl
@[simp] theorem omemWriteHalf_cause (a : Word) (v : Half) : (s.omemWriteHalf a v).cause = s.cause := rfl
@[simp] theorem omemWriteHalf_nch (a : Word) (v : Half) : (s.omemWriteHalf a v).nch = s.nch := rfl
@[simp] theorem omemWriteHalf_fsz (a : Word) (v : Half) : (s.omemWriteHalf a v).fsz = s.fsz := rfl
@[simp] theorem omemWriteHalf_ilen (a : Word) (v : Half) : (s.omemWriteHalf a v).ilen = s.ilen := rfl
@[simp] theorem omemWriteHalf_imem (a : Word) (v : Half) : (s.omemWriteHalf a v).imem = s.imem := rfl
@[simp] theorem omemWriteHalf_omem (a : Word) (v : Half) : (s.omemWriteHalf a v).omem = Memory.set (Memory.set s.omem a.toNat (loByte v)) (a + 1).toNat (hiByte v) := rfl
@[simp] theorem omemWriteHalf_cfg (a : Word) (v : Half) : (s.omemWriteHalf a v).cfg = s.cfg := rfl
@[simp] theorem omemWriteHalf_inputs (a : Word) (v : Half) : (s.omemWriteHalf a v).inputs = s.inputs := rfl
@[simp] theorem omemWriteHalf_replies (a : Word) (v : Half) : (s.omemWriteHalf a v).replies = s.replies := rfl
@[simp] theorem omemWriteHalf_draws (a : Word) (v : Half) : (s.omemWriteHalf a v).draws = s.draws := rfl

/-! ### raise -/

@[simp] theorem raise_ch0 (c : Cause) : (s.raise c).ch0 = s.ch0 := rfl
@[simp] theorem raise_ch1 (c : Cause) : (s.raise c).ch1 = s.ch1 := rfl
@[simp] theorem raise_icur (c : Cause) : (s.raise c).icur = s.icur := rfl
@[simp] theorem raise_olen (c : Cause) : (s.raise c).olen = s.olen := rfl
@[simp] theorem raise_runState (c : Cause) : (s.raise c).runState = .fault := rfl
@[simp] theorem raise_cause (c : Cause) : (s.raise c).cause = c := rfl
@[simp] theorem raise_nch (c : Cause) : (s.raise c).nch = s.nch := rfl
@[simp] theorem raise_fsz (c : Cause) : (s.raise c).fsz = s.fsz := rfl
@[simp] theorem raise_ilen (c : Cause) : (s.raise c).ilen = s.ilen := rfl
@[simp] theorem raise_imem (c : Cause) : (s.raise c).imem = s.imem := rfl
@[simp] theorem raise_omem (c : Cause) : (s.raise c).omem = s.omem := rfl
@[simp] theorem raise_cfg (c : Cause) : (s.raise c).cfg = s.cfg := rfl
@[simp] theorem raise_inputs (c : Cause) : (s.raise c).inputs = s.inputs := rfl
@[simp] theorem raise_replies (c : Cause) : (s.raise c).replies = s.replies := rfl
@[simp] theorem raise_draws (c : Cause) : (s.raise c).draws = s.draws := rfl

/-! ### finish -/

@[simp] theorem finish_ch0 (c : Cause) : (s.finish c).ch0 = s.ch0 := rfl
@[simp] theorem finish_ch1 (c : Cause) : (s.finish c).ch1 = s.ch1 := rfl
@[simp] theorem finish_icur (c : Cause) : (s.finish c).icur = s.icur := rfl
@[simp] theorem finish_olen (c : Cause) : (s.finish c).olen = s.olen := rfl
@[simp] theorem finish_runState (c : Cause) : (s.finish c).runState = .done := rfl
@[simp] theorem finish_cause (c : Cause) : (s.finish c).cause = c := rfl
@[simp] theorem finish_nch (c : Cause) : (s.finish c).nch = s.nch := rfl
@[simp] theorem finish_fsz (c : Cause) : (s.finish c).fsz = s.fsz := rfl
@[simp] theorem finish_ilen (c : Cause) : (s.finish c).ilen = s.ilen := rfl
@[simp] theorem finish_imem (c : Cause) : (s.finish c).imem = s.imem := rfl
@[simp] theorem finish_omem (c : Cause) : (s.finish c).omem = s.omem := rfl
@[simp] theorem finish_cfg (c : Cause) : (s.finish c).cfg = s.cfg := rfl
@[simp] theorem finish_inputs (c : Cause) : (s.finish c).inputs = s.inputs := rfl
@[simp] theorem finish_replies (c : Cause) : (s.finish c).replies = s.replies := rfl
@[simp] theorem finish_draws (c : Cause) : (s.finish c).draws = s.draws := rfl

/-! ### resetRegisters -/

@[simp] theorem resetRegisters_ch0 : (s.resetRegisters).ch0 = ChannelState.reset := rfl
@[simp] theorem resetRegisters_ch1 : (s.resetRegisters).ch1 = ChannelState.reset := rfl
@[simp] theorem resetRegisters_icur : (s.resetRegisters).icur = 0 := rfl
@[simp] theorem resetRegisters_olen : (s.resetRegisters).olen = 0 := rfl
@[simp] theorem resetRegisters_runState : (s.resetRegisters).runState = .idle := rfl
@[simp] theorem resetRegisters_cause : (s.resetRegisters).cause = .noCause := rfl
@[simp] theorem resetRegisters_nch : (s.resetRegisters).nch = 0 := rfl
@[simp] theorem resetRegisters_fsz : (s.resetRegisters).fsz = 0 := rfl
@[simp] theorem resetRegisters_ilen : (s.resetRegisters).ilen = 0 := rfl
@[simp] theorem resetRegisters_imem : (s.resetRegisters).imem = s.imem := rfl
@[simp] theorem resetRegisters_omem : (s.resetRegisters).omem = s.omem := rfl
@[simp] theorem resetRegisters_cfg : (s.resetRegisters).cfg = s.cfg := rfl
@[simp] theorem resetRegisters_inputs : (s.resetRegisters).inputs = s.inputs := rfl
@[simp] theorem resetRegisters_replies : (s.resetRegisters).replies = s.replies := rfl
@[simp] theorem resetRegisters_draws : (s.resetRegisters).draws = s.draws := rfl

/-! ### beginRun -/

@[simp] theorem beginRun_ch0 : (s.beginRun).ch0 = ChannelState.empty s.draws := rfl
@[simp] theorem beginRun_ch1 : (s.beginRun).ch1 = ChannelState.empty (s.draws + 1) := rfl
@[simp] theorem beginRun_icur : (s.beginRun).icur = 0 := rfl
@[simp] theorem beginRun_olen : (s.beginRun).olen = 0 := rfl
@[simp] theorem beginRun_runState : (s.beginRun).runState = s.runState := rfl
@[simp] theorem beginRun_cause : (s.beginRun).cause = s.cause := rfl
@[simp] theorem beginRun_nch : (s.beginRun).nch = s.nch := rfl
@[simp] theorem beginRun_fsz : (s.beginRun).fsz = s.fsz := rfl
@[simp] theorem beginRun_ilen : (s.beginRun).ilen = s.ilen := rfl
@[simp] theorem beginRun_imem : (s.beginRun).imem = s.imem := rfl
@[simp] theorem beginRun_omem : (s.beginRun).omem = s.omem := rfl
@[simp] theorem beginRun_cfg : (s.beginRun).cfg = s.cfg := rfl
@[simp] theorem beginRun_inputs : (s.beginRun).inputs = s.inputs := rfl
@[simp] theorem beginRun_replies : (s.beginRun).replies = s.replies := rfl
@[simp] theorem beginRun_draws : (s.beginRun).draws = s.draws + 2 := rfl

/-! ### advanceInput -/

@[simp] theorem advanceInput_ch0 (n : Nat) : (s.advanceInput n).ch0 = s.ch0 := rfl
@[simp] theorem advanceInput_ch1 (n : Nat) : (s.advanceInput n).ch1 = s.ch1 := rfl
@[simp] theorem advanceInput_icur (n : Nat) : (s.advanceInput n).icur = s.icur + BitVec.ofNat 32 n := rfl
@[simp] theorem advanceInput_olen (n : Nat) : (s.advanceInput n).olen = s.olen := rfl
@[simp] theorem advanceInput_runState (n : Nat) : (s.advanceInput n).runState = s.runState := rfl
@[simp] theorem advanceInput_cause (n : Nat) : (s.advanceInput n).cause = s.cause := rfl
@[simp] theorem advanceInput_nch (n : Nat) : (s.advanceInput n).nch = s.nch := rfl
@[simp] theorem advanceInput_fsz (n : Nat) : (s.advanceInput n).fsz = s.fsz := rfl
@[simp] theorem advanceInput_ilen (n : Nat) : (s.advanceInput n).ilen = s.ilen := rfl
@[simp] theorem advanceInput_imem (n : Nat) : (s.advanceInput n).imem = s.imem := rfl
@[simp] theorem advanceInput_omem (n : Nat) : (s.advanceInput n).omem = s.omem := rfl
@[simp] theorem advanceInput_cfg (n : Nat) : (s.advanceInput n).cfg = s.cfg := rfl
@[simp] theorem advanceInput_inputs (n : Nat) : (s.advanceInput n).inputs = s.inputs := rfl
@[simp] theorem advanceInput_replies (n : Nat) : (s.advanceInput n).replies = s.replies := rfl
@[simp] theorem advanceInput_draws (n : Nat) : (s.advanceInput n).draws = s.draws := rfl

/-! ### advanceOutput -/

@[simp] theorem advanceOutput_ch0 (n : Nat) : (s.advanceOutput n).ch0 = s.ch0 := rfl
@[simp] theorem advanceOutput_ch1 (n : Nat) : (s.advanceOutput n).ch1 = s.ch1 := rfl
@[simp] theorem advanceOutput_icur (n : Nat) : (s.advanceOutput n).icur = s.icur := rfl
@[simp] theorem advanceOutput_olen (n : Nat) : (s.advanceOutput n).olen = s.olen + BitVec.ofNat 32 n := rfl
@[simp] theorem advanceOutput_runState (n : Nat) : (s.advanceOutput n).runState = s.runState := rfl
@[simp] theorem advanceOutput_cause (n : Nat) : (s.advanceOutput n).cause = s.cause := rfl
@[simp] theorem advanceOutput_nch (n : Nat) : (s.advanceOutput n).nch = s.nch := rfl
@[simp] theorem advanceOutput_fsz (n : Nat) : (s.advanceOutput n).fsz = s.fsz := rfl
@[simp] theorem advanceOutput_ilen (n : Nat) : (s.advanceOutput n).ilen = s.ilen := rfl
@[simp] theorem advanceOutput_imem (n : Nat) : (s.advanceOutput n).imem = s.imem := rfl
@[simp] theorem advanceOutput_omem (n : Nat) : (s.advanceOutput n).omem = s.omem := rfl
@[simp] theorem advanceOutput_cfg (n : Nat) : (s.advanceOutput n).cfg = s.cfg := rfl
@[simp] theorem advanceOutput_inputs (n : Nat) : (s.advanceOutput n).inputs = s.inputs := rfl
@[simp] theorem advanceOutput_replies (n : Nat) : (s.advanceOutput n).replies = s.replies := rfl
@[simp] theorem advanceOutput_draws (n : Nat) : (s.advanceOutput n).draws = s.draws := rfl

/-! ### reply -/

@[simp] theorem reply_ch0 (v : Word) : (s.reply v).ch0 = s.ch0 := rfl
@[simp] theorem reply_ch1 (v : Word) : (s.reply v).ch1 = s.ch1 := rfl
@[simp] theorem reply_icur (v : Word) : (s.reply v).icur = s.icur := rfl
@[simp] theorem reply_olen (v : Word) : (s.reply v).olen = s.olen := rfl
@[simp] theorem reply_runState (v : Word) : (s.reply v).runState = s.runState := rfl
@[simp] theorem reply_cause (v : Word) : (s.reply v).cause = s.cause := rfl
@[simp] theorem reply_nch (v : Word) : (s.reply v).nch = s.nch := rfl
@[simp] theorem reply_fsz (v : Word) : (s.reply v).fsz = s.fsz := rfl
@[simp] theorem reply_ilen (v : Word) : (s.reply v).ilen = s.ilen := rfl
@[simp] theorem reply_imem (v : Word) : (s.reply v).imem = s.imem := rfl
@[simp] theorem reply_omem (v : Word) : (s.reply v).omem = s.omem := rfl
@[simp] theorem reply_cfg (v : Word) : (s.reply v).cfg = s.cfg := rfl
@[simp] theorem reply_inputs (v : Word) : (s.reply v).inputs = s.inputs := rfl
@[simp] theorem reply_replies (v : Word) : (s.reply v).replies = v :: s.replies := rfl
@[simp] theorem reply_draws (v : Word) : (s.reply v).draws = s.draws := rfl

/-! ### setChan -/

@[simp] theorem setChan_icur (c : Channel) (v : ChannelState) : (s.setChan c v).icur = s.icur := by cases c <;> rfl
@[simp] theorem setChan_olen (c : Channel) (v : ChannelState) : (s.setChan c v).olen = s.olen := by cases c <;> rfl
@[simp] theorem setChan_runState (c : Channel) (v : ChannelState) : (s.setChan c v).runState = s.runState := by cases c <;> rfl
@[simp] theorem setChan_cause (c : Channel) (v : ChannelState) : (s.setChan c v).cause = s.cause := by cases c <;> rfl
@[simp] theorem setChan_nch (c : Channel) (v : ChannelState) : (s.setChan c v).nch = s.nch := by cases c <;> rfl
@[simp] theorem setChan_fsz (c : Channel) (v : ChannelState) : (s.setChan c v).fsz = s.fsz := by cases c <;> rfl
@[simp] theorem setChan_ilen (c : Channel) (v : ChannelState) : (s.setChan c v).ilen = s.ilen := by cases c <;> rfl
@[simp] theorem setChan_imem (c : Channel) (v : ChannelState) : (s.setChan c v).imem = s.imem := by cases c <;> rfl
@[simp] theorem setChan_omem (c : Channel) (v : ChannelState) : (s.setChan c v).omem = s.omem := by cases c <;> rfl
@[simp] theorem setChan_cfg (c : Channel) (v : ChannelState) : (s.setChan c v).cfg = s.cfg := by cases c <;> rfl
@[simp] theorem setChan_inputs (c : Channel) (v : ChannelState) : (s.setChan c v).inputs = s.inputs := by cases c <;> rfl
@[simp] theorem setChan_replies (c : Channel) (v : ChannelState) : (s.setChan c v).replies = s.replies := by cases c <;> rfl
@[simp] theorem setChan_draws (c : Channel) (v : ChannelState) : (s.setChan c v).draws = s.draws := by cases c <;> rfl

@[simp] theorem chan_setChan_same (c : Channel) (v : ChannelState) : (s.setChan c v).chan c = v := by cases c <;> rfl

theorem chan_setChan_of_ne (c d : Channel) (v : ChannelState) (h : d ≠ c) : (s.setChan c v).chan d = s.chan d := by
  cases c <;> cases d <;> first | rfl | exact absurd rfl h

@[simp] theorem setChan_chan (c : Channel) : s.setChan c (s.chan c) = s := by cases c <;> rfl

@[simp] theorem setChan_setChan (c : Channel) (v w : ChannelState) : (s.setChan c v).setChan c w = s.setChan c w := by
  cases c <;> rfl

theorem setChan_comm (c d : Channel) (v w : ChannelState) (h : c ≠ d) :
    (s.setChan c v).setChan d w = (s.setChan d w).setChan c v := by
  cases c <;> cases d <;> first | rfl | exact absurd rfl h

@[simp] theorem setChan_ch0_ch0 (v : ChannelState) : (s.setChan .ch0 v).ch0 = v := rfl
@[simp] theorem setChan_ch0_ch1 (v : ChannelState) : (s.setChan .ch0 v).ch1 = s.ch1 := rfl
@[simp] theorem setChan_ch1_ch0 (v : ChannelState) : (s.setChan .ch1 v).ch0 = s.ch0 := rfl
@[simp] theorem setChan_ch1_ch1 (v : ChannelState) : (s.setChan .ch1 v).ch1 = v := rfl
@[simp] theorem chan_ch0 : s.chan .ch0 = s.ch0 := rfl
@[simp] theorem chan_ch1 : s.chan .ch1 = s.ch1 := rfl

/-! ### the channel registers under the other updates -/

@[simp] theorem chan_imemWrite (a : Word) (b : Byte) (c : Channel) : (s.imemWrite a b).chan c = s.chan c := by cases c <;> rfl
@[simp] theorem chan_omemWrite (a : Word) (b : Byte) (c : Channel) : (s.omemWrite a b).chan c = s.chan c := by cases c <;> rfl
@[simp] theorem chan_omemWriteHalf (a : Word) (v : Half) (c : Channel) : (s.omemWriteHalf a v).chan c = s.chan c := by cases c <;> rfl
@[simp] theorem chan_raise (k : Cause) (c : Channel) : (s.raise k).chan c = s.chan c := by cases c <;> rfl
@[simp] theorem chan_finish (k : Cause) (c : Channel) : (s.finish k).chan c = s.chan c := by cases c <;> rfl
@[simp] theorem chan_advanceInput (n : Nat) (c : Channel) : (s.advanceInput n).chan c = s.chan c := by cases c <;> rfl
@[simp] theorem chan_advanceOutput (n : Nat) (c : Channel) : (s.advanceOutput n).chan c = s.chan c := by cases c <;> rfl
@[simp] theorem chan_reply (v : Word) (c : Channel) : (s.reply v).chan c = s.chan c := by cases c <;> rfl

/-! ### writeConfig: only the three configuration registers can change -/

@[simp] theorem writeConfig_ch0 (n : Nat) (v : Word) : (s.writeConfig n v).ch0 = s.ch0 := by
  unfold State.writeConfig; split <;> [rfl; (split <;> rfl)]
@[simp] theorem writeConfig_ch1 (n : Nat) (v : Word) : (s.writeConfig n v).ch1 = s.ch1 := by
  unfold State.writeConfig; split <;> [rfl; (split <;> rfl)]
@[simp] theorem writeConfig_icur (n : Nat) (v : Word) : (s.writeConfig n v).icur = s.icur := by
  unfold State.writeConfig; split <;> [rfl; (split <;> rfl)]
@[simp] theorem writeConfig_olen (n : Nat) (v : Word) : (s.writeConfig n v).olen = s.olen := by
  unfold State.writeConfig; split <;> [rfl; (split <;> rfl)]
@[simp] theorem writeConfig_runState (n : Nat) (v : Word) : (s.writeConfig n v).runState = s.runState := by
  unfold State.writeConfig; split <;> [rfl; (split <;> rfl)]
@[simp] theorem writeConfig_cause (n : Nat) (v : Word) : (s.writeConfig n v).cause = s.cause := by
  unfold State.writeConfig; split <;> [rfl; (split <;> rfl)]
@[simp] theorem writeConfig_imem (n : Nat) (v : Word) : (s.writeConfig n v).imem = s.imem := by
  unfold State.writeConfig; split <;> [rfl; (split <;> rfl)]
@[simp] theorem writeConfig_omem (n : Nat) (v : Word) : (s.writeConfig n v).omem = s.omem := by
  unfold State.writeConfig; split <;> [rfl; (split <;> rfl)]
@[simp] theorem writeConfig_cfg (n : Nat) (v : Word) : (s.writeConfig n v).cfg = s.cfg := by
  unfold State.writeConfig; split <;> [rfl; (split <;> rfl)]
@[simp] theorem writeConfig_inputs (n : Nat) (v : Word) : (s.writeConfig n v).inputs = s.inputs := by
  unfold State.writeConfig; split <;> [rfl; (split <;> rfl)]
@[simp] theorem writeConfig_replies (n : Nat) (v : Word) : (s.writeConfig n v).replies = s.replies := by
  unfold State.writeConfig; split <;> [rfl; (split <;> rfl)]
@[simp] theorem writeConfig_draws (n : Nat) (v : Word) : (s.writeConfig n v).draws = s.draws := by
  unfold State.writeConfig; split <;> [rfl; (split <;> rfl)]

theorem writeConfig_of_run (n : Nat) (v : Word) (h : s.runState = .run) : s.writeConfig n v = s := by
  simp [State.writeConfig, h]

/-! ### bytes under updates that write no memory -/

/-- A byte depends on the memory alone. -/
theorem imemByte_congr (t : State) (h : t.imem = s.imem) (a : Nat) : t.imemByte a = s.imemByte a := by
  simp [State.imemByte, h]

/-- A byte depends on the memory alone. -/
theorem omemByte_congr (t : State) (h : t.omem = s.omem) (a : Nat) : t.omemByte a = s.omemByte a := by
  simp [State.omemByte, h]

end Sys2Proof.Machine
end

