-- ==== Sys2Proof/Laws/Memory.lean ====
section
/-! SUPPORT. The laws of the byte memories: read after write, canonical form, 16-bit writes, reads of the input. -/

namespace Sys2Proof.Machine

/-- Read after write. -/
theorem Memory.get_set (m : Memory) (a a' : Nat) (b : Byte) :
    Memory.get (Memory.set m a b) a' = if a' = a then some b else Memory.get m a' := by
  induction m with
  | nil => rfl
  | cons c m ih =>
    obtain ⟨k, v⟩ := c
    by_cases h1 : a < k
    · simp only [Memory.set, if_pos h1, Memory.get]
    · by_cases h2 : a = k
      · subst h2
        simp only [Memory.set, if_neg h1, if_true, Memory.get]
        split <;> rfl
      · simp only [Memory.set, if_neg h1, if_neg h2, Memory.get, ih]
        by_cases h3 : a' = k
        · have : a' ≠ a := by omega
          simp [h3, Ne.symm h2]
        · simp [h3]

/-- The offsets listed after a write. -/
theorem Memory.mem_keys_set (m : Memory) (a k : Nat) (b : Byte) :
    k ∈ (Memory.set m a b).map Prod.fst ↔ k = a ∨ k ∈ m.map Prod.fst := by
  induction m with
  | nil => simp [Memory.set]
  | cons c m ih =>
    obtain ⟨j, v⟩ := c
    by_cases h1 : a < j
    · simp [Memory.set, h1]
    · by_cases h2 : a = j
      · subst h2; simp [Memory.set]
      · simp only [Memory.set, if_neg h1, if_neg h2, List.map_cons, List.mem_cons, ih]
        tauto

/-- A write keeps the canonical form. -/
theorem Memory.wf_set (m : Memory) (a : Nat) (b : Byte) (ha : a < 2 ^ 32) (h : Memory.wf m) :
    Memory.wf (Memory.set m a b) := by
  constructor
  · obtain ⟨hs, -⟩ := h
    induction m with
    | nil => simp [Memory.set]
    | cons c m ih =>
      obtain ⟨k, v⟩ := c
      simp only [List.map_cons, List.pairwise_cons] at hs
      by_cases h1 : a < k
      · simp only [Memory.set, if_pos h1, List.map_cons, List.pairwise_cons, List.mem_cons]
        refine ⟨fun x hx => ?_, hs⟩
        rcases hx with rfl | hx
        · exact h1
        · exact lt_trans h1 (hs.1 x hx)
      · by_cases h2 : a = k
        · subst h2
          simpa [Memory.set] using hs
        · simp only [Memory.set, if_neg h1, if_neg h2, List.map_cons, List.pairwise_cons]
          refine ⟨fun x hx => ?_, ih hs.2⟩
          rcases (Memory.mem_keys_set m a x b).1 hx with rfl | hx
          · omega
          · exact hs.1 x hx
  · intro k hk
    rcases (Memory.mem_keys_set m a k b).1 hk with rfl | hk
    · exact ha
    · exact h.2 k hk

/-- Reset memory, which lists nothing, has the canonical form. -/
theorem Memory.wf_nil : Memory.wf [] := by decide

theorem imemByte_imemWrite (s : State) (a : Word) (b : Byte) (a' : Nat) :
    (s.imemWrite a b).imemByte a' = if a' = a.toNat then b else s.imemByte a' := by
  simp only [State.imemByte, imemWrite_imem, Memory.get_set]
  split <;> rfl

theorem omemByte_omemWrite (s : State) (a : Word) (b : Byte) (a' : Nat) :
    (s.omemWrite a b).omemByte a' = if a' = a.toNat then b else s.omemByte a' := by
  simp only [State.omemByte, omemWrite_omem, Memory.get_set]
  split <;> rfl

/-- The two offsets of a 16-bit write differ. -/
theorem toNat_ne_succ (a : Word) : a.toNat ≠ (a + 1).toNat := by
  have h := a.isLt
  have h1 : (a + 1).toNat = (a.toNat + 1) % 2 ^ 32 := BitVec.toNat_add a 1
  omega

/-- What a 16-bit write leaves in every byte (20_memory R56). -/
theorem omemByte_omemWriteHalf (s : State) (a : Word) (v : Half) (a' : Nat) :
    (s.omemWriteHalf a v).omemByte a' =
      if a' = (a + 1).toNat then hiByte v else if a' = a.toNat then loByte v else s.omemByte a' := by
  simp only [State.omemWriteHalf, omemByte_omemWrite]

theorem wf_imemWrite (s : State) (a : Word) (b : Byte) (h : Memory.wf s.imem) : Memory.wf (s.imemWrite a b).imem :=
  Memory.wf_set _ _ _ a.isLt h

theorem wf_omemWriteHalf (s : State) (a : Word) (v : Half) (h : Memory.wf s.omem) :
    Memory.wf (s.omemWriteHalf a v).omem :=
  Memory.wf_set _ _ _ (a + 1).isLt (Memory.wf_set _ _ _ a.isLt h)

/-- Where the `n` bytes all lie below `ILEN`, `readInput` gives them all. -/
theorem readInput_eq (s : State) (n a : Nat) (h : a + n ≤ s.ilen.toNat) :
    s.readInput a n = (List.range n).map fun j => s.imemByte (a + j) := by
  induction n generalizing a with
  | zero => rfl
  | succ n ih =>
    have h0 : s.inputByte a = some (s.imemByte a) := by
      simp [State.inputByte, show a < s.ilen.toNat by omega]
    rw [State.readInput, h0, List.range_succ_eq_map]
    simp only [List.map_cons, List.map_map, Nat.add_zero]
    rw [ih (a + 1) (by omega)]
    congr 1
    apply List.map_congr_left
    intro j _
    simp [Nat.add_assoc, Nat.add_comm 1 j]

/-- `readInput` reads no byte at or beyond `ILEN`: it depends on the bytes below it alone (20_memory R52). -/
theorem readInput_congr (s t : State) (n a : Nat) (hl : s.ilen = t.ilen)
    (h : ∀ k, k < s.ilen.toNat → s.imemByte k = t.imemByte k) : s.readInput a n = t.readInput a n := by
  induction n generalizing a with
  | zero => rfl
  | succ n ih =>
    by_cases ha : a < s.ilen.toNat
    · have hs : s.inputByte a = some (s.imemByte a) := by simp [State.inputByte, ha]
      have ht : t.inputByte a = some (s.imemByte a) := by
        simp [State.inputByte, ← hl, ha, h a ha]
      simp only [State.readInput, hs, ht, ih]
    · have hs : s.inputByte a = none := by simp [State.inputByte, ha]
      have ht : t.inputByte a = none := by simp [State.inputByte, ← hl, ha]
      simp only [State.readInput, hs, ht]

end Sys2Proof.Machine
end

