-- ==== Sys2Proof/Laws/Operands.lean ====
section
/-! SUPPORT. The laws of the operand forms and of the sample decoder's arithmetic. -/

namespace Sys2Proof.Machine

/-- `clamp` as a maximum of a minimum, where the bounds are in order. -/
theorem clamp_eq (v lo hi : Int) (h : lo ≤ hi) : clamp v lo hi = max lo (min hi v) := by
  unfold clamp; split
  · omega
  · split <;> omega

/-- The narrowing of a clamped sample never changes its value (41_sample_decoder R124). -/
theorem clampSample_toInt (v : Int) : (clampSample v).toInt = max (-32768) (min 32767 v) := by
  have h : clamp v (-32768) 32767 = max (-32768) (min 32767 v) := clamp_eq _ _ _ (by omega)
  rw [clampSample, h, BitVec.toInt_ofInt]
  apply Int.bmod_eq_of_le <;> omega

/-- The stored index is the clamped value (41_sample_decoder R126). -/
theorem clampIndex_val (v : Int) : ((clampIndex v).val : Int) = max 0 (min 88 v) := by
  have h : clamp v 0 88 = max 0 (min 88 v) := clamp_eq _ _ _ (by omega)
  have hb : (max 0 (min 88 v)).toNat < 89 := by omega
  rw [clampIndex, h]
  show (((max 0 (min 88 v)).toNat % 89 : Nat) : Int) = _
  rw [Nat.mod_eq_of_lt hb]
  omega

theorem halfOf_toNat (lo hi : Byte) : (halfOf lo hi).toNat = lo.toNat + 256 * hi.toNat := by
  have hl := lo.isLt
  have hh := hi.isLt
  rw [halfOf, BitVec.toNat_ofNat]
  omega

theorem loByte_toNat (h : Half) : (loByte h).toNat = h.toNat % 256 := by
  simp [loByte, BitVec.extractLsb'_toNat]

theorem hiByte_toNat (h : Half) : (hiByte h).toNat = h.toNat / 256 := by
  have := h.isLt
  rw [hiByte, BitVec.extractLsb'_toNat, Nat.shiftRight_eq_div_pow]
  omega

theorem lowNibble_toNat (b : Byte) : (lowNibble b).toNat = b.toNat % 16 := by
  simp [lowNibble, BitVec.extractLsb'_toNat]

theorem highNibble_toNat (b : Byte) : (highNibble b).toNat = b.toNat / 16 := by
  have := b.isLt
  rw [highNibble, BitVec.extractLsb'_toNat, Nat.shiftRight_eq_div_pow]
  omega

/-- The two bytes of a sample hold the whole of it (20_memory R56). -/
theorem loByte_hiByte (h : Half) : (loByte h).toNat + 256 * (hiByte h).toNat = h.toNat := by
  rw [loByte_toNat, hiByte_toNat]; omega

/-- The magnitude as the masked sums of 41_sample_decoder R121, over numbers. -/
theorem magnitude_toNat (step : Half) (n : Nibble) :
    (magnitude step n).toNat =
      let d0 := step.toNat / 8
      let d1 := if n.getLsbD 2 then (d0 + step.toNat) % 65536 else d0
      let d2 := if n.getLsbD 1 then (d1 + step.toNat / 2) % 65536 else d1
      if n.getLsbD 0 then (d2 + step.toNat / 4) % 65536 else d2 := by
  have h3 : (step >>> 3).toNat = step.toNat / 8 := by simp [Nat.shiftRight_eq_div_pow]
  have h1 : (step >>> 1).toNat = step.toNat / 2 := by simp [Nat.shiftRight_eq_div_pow]
  have h2 : (step >>> 2).toNat = step.toNat / 4 := by simp [Nat.shiftRight_eq_div_pow]
  simp only [magnitude]
  split <;> split <;> split <;> simp only [BitVec.toNat_add, h3, h1, h2]

/-- The two outputs of the sample decoder agree: the sample is the new predictor (41_sample_decoder R125). -/
@[simp] theorem decodeSample_pred (cfg : Config) (n : Nibble) (ch : ChannelState) :
    (decodeSample cfg n ch).2.pred = (decodeSample cfg n ch).1 := rfl

@[simp] theorem decodeSample_loaded (cfg : Config) (n : Nibble) (ch : ChannelState) :
    (decodeSample cfg n ch).2.loaded = true := rfl

/-- The sample (41_sample_decoder R121 steps 1 to 4). -/
theorem decodeSample_toInt (cfg : Config) (n : Nibble) (ch : ChannelState) :
    (decodeSample cfg n ch).1.toInt =
      max (-32768) (min 32767 (ch.pred.toInt + difference (cfg.stepLut.get ch.idx) n)) :=
  clampSample_toInt _

/-- The new index (41_sample_decoder R121 step 6). -/
theorem decodeSample_idx (cfg : Config) (n : Nibble) (ch : ChannelState) :
    ((decodeSample cfg n ch).2.idx.val : Int) =
      max 0 (min 88 ((ch.idx.val : Int) + (cfg.adjLut.get n.toFin).toInt)) :=
  clampIndex_val _

/-- The sample and the new registers depend on the register contents alone, not on whether they were loaded. -/
theorem decodeSample_congr (cfg : Config) (n : Nibble) (a b : ChannelState) (hp : a.pred = b.pred) (hi : a.idx = b.idx) :
    decodeSample cfg n a = decodeSample cfg n b := by
  simp [decodeSample, hp, hi]

end Sys2Proof.Machine
end

