-- ==== Sys2Proof/Laws/PerInstr.lean ====
section
/-! SUPPORT. Statements made for every instruction, one lemma per constructor. -/

namespace Sys2Proof.Laws

/-- The unit length in bytes of each place (30_encoding R80, R81, R83: known before the unit is read). -/
def unitLength : Place → Nat
  | .finished => 0
  | .boundary m => 4 * m.channels
  | .region .mono => 1
  | .region .stereo => 8
  | .lane _ => 1
  | .ctrl => 4

end Sys2Proof.Laws

namespace Sys2Proof.Laws.EncodeLength

/-- An instruction's bytes are as many as its place's unit is long. -/
def Statement (i : Instr) : Prop := (encode i).length = unitLength (placeOf i)

theorem n0 (c : Channel) : Statement (.n0 c) := rfl
theorem n1 (c : Channel) : Statement (.n1 c) := rfl
theorem n2 (c : Channel) : Statement (.n2 c) := rfl
theorem n3 (c : Channel) : Statement (.n3 c) := rfl
theorem n4 (c : Channel) : Statement (.n4 c) := rfl
theorem n5 (c : Channel) : Statement (.n5 c) := rfl
theorem n6 (c : Channel) : Statement (.n6 c) := rfl
theorem n7 (c : Channel) : Statement (.n7 c) := rfl
theorem n8 (c : Channel) : Statement (.n8 c) := rfl
theorem n9 (c : Channel) : Statement (.n9 c) := rfl
theorem nA (c : Channel) : Statement (.nA c) := rfl
theorem nB (c : Channel) : Statement (.nB c) := rfl
theorem nC (c : Channel) : Statement (.nC c) := rfl
theorem nD (c : Channel) : Statement (.nD c) := rfl
theorem nE (c : Channel) : Statement (.nE c) := rfl
theorem nF (c : Channel) : Statement (.nF c) := rfl
theorem pre (u : PreUnits) : Statement (.pre u) := by cases u <;> rfl
theorem stop (u : PreUnits) : Statement (.stop u) := by cases u <;> rfl
theorem db (b : Byte) : Statement (.db b) := rfl
theorem dg (g0 g1 g2 g3 g4 g5 g6 g7 : Byte) : Statement (.dg g0 g1 g2 g3 g4 g5 g6 g7) := rfl
theorem endInput : Statement .endInput := rfl
theorem start (x : BitVec 30) : Statement (.start x) := rfl
theorem reset (x : BitVec 30) (startBit : Bool) : Statement (.reset x startBit) := rfl

end Sys2Proof.Laws.EncodeLength
end

