-- ==== Sys2Proof/Laws/Sequencer.lean ====
section
/-! SUPPORT. What the sample decoder and the nibble sequencer do to the state: the channel's registers, the bytes
written, and nothing else. -/

namespace Sys2Proof.Machine

/-! ### DecodeSample on the state -/

/-- Executing a nibble code is `DecodeSample` with that code (30_encoding R91; 41_sample_decoder R130 to R145). -/
theorem exec_nibbleInstr (c : Channel) (n : Nibble) (s : State) : exec (nibbleInstr c n) s = .next (decodeOn c n s) := by
  have h : n = 0 ∨ n = 1 ∨ n = 2 ∨ n = 3 ∨ n = 4 ∨ n = 5 ∨ n = 6 ∨ n = 7 ∨ n = 8 ∨ n = 9 ∨ n = 10 ∨ n = 11 ∨ n = 12 ∨
      n = 13 ∨ n = 14 ∨ n = 15 := by revert n; decide
  rcases h with rfl | rfl | rfl | rfl | rfl | rfl | rfl | rfl | rfl | rfl | rfl | rfl | rfl | rfl | rfl | rfl <;> rfl

@[simp] theorem chan_decodeOn_same (c : Channel) (n : Nibble) (s : State) :
    (decodeOn c n s).chan c = (decodeSample s.cfg n (s.chan c)).2 := by simp [decodeOn]

theorem chan_decodeOn_of_ne (c d : Channel) (n : Nibble) (s : State) (h : d ≠ c) : (decodeOn c n s).chan d = s.chan d := by
  simp [decodeOn, chan_setChan_of_ne, h]

/-- `DecodeSample` changes the channel's registers alone (41_sample_decoder R127). -/
theorem decodeOn_frame (c : Channel) (n : Nibble) (s : State) : decodeOn c n s = s.setChan c ((decodeOn c n s).chan c) := by
  simp [decodeOn]

/-! ### Runs of nibbles -/

/-- The offset of sample `i` of a run of nibbles. -/
def sampleAddr (a stride : Word) (i : Nat) : Word := a + BitVec.ofNat 32 i * stride

theorem sampleAddr_zero (a stride : Word) : sampleAddr a stride 0 = a := by simp [sampleAddr]

theorem sampleAddr_succ (a stride : Word) (i : Nat) : sampleAddr (a + stride) stride i = sampleAddr a stride (i + 1) := by
  simp only [sampleAddr, BitVec.ofNat_add, BitVec.add_mul]
  rw [BitVec.add_assoc, BitVec.add_comm stride]
  simp

@[simp] theorem channelSamples_length (cfg : Config) (ns : List Nibble) (ch : ChannelState) :
    (channelSamples cfg ns ch).1.length = ns.length := by
  induction ns generalizing ch with
  | nil => rfl
  | cons n ns ih => simp [channelSamples, ih]

/-- The samples of nibbles in two parts: the second part starts from what the first left. -/
theorem channelSamples_append (cfg : Config) (ns ms : List Nibble) (ch : ChannelState) :
    channelSamples cfg (ns ++ ms) ch =
      ((channelSamples cfg ns ch).1 ++ (channelSamples cfg ms (channelSamples cfg ns ch).2).1,
       (channelSamples cfg ms (channelSamples cfg ns ch).2).2) := by
  induction ns generalizing ch with
  | nil => simp [channelSamples]
  | cons n ns ih => simp [channelSamples, ih]

@[simp] theorem chan_decodeAndWrite_same (c : Channel) (a : Word) (n : Nibble) (s : State) :
    (decodeAndWrite c a n s).chan c = (decodeSample s.cfg n (s.chan c)).2 := by simp [decodeAndWrite]

theorem chan_decodeAndWrite_of_ne (c d : Channel) (a : Word) (n : Nibble) (s : State) (h : d ≠ c) :
    (decodeAndWrite c a n s).chan d = s.chan d := by
  simp [decodeAndWrite, chan_decodeOn_of_ne, h]

theorem decodeAndWrite_eq (c : Channel) (a : Word) (n : Nibble) (s : State) :
    decodeAndWrite c a n s =
      (s.setChan c (decodeSample s.cfg n (s.chan c)).2).omemWriteHalf a (decodeSample s.cfg n (s.chan c)).1 := rfl

/-- A run of nibbles changes the channel's registers and `OMEM` alone. -/
theorem decodeRun_frame (c : Channel) (stride : Word) (ns : List Nibble) :
    ∀ (a : Word) (s : State),
      decodeRun c stride a ns s =
        { s.setChan c ((decodeRun c stride a ns s).chan c) with omem := (decodeRun c stride a ns s).omem } := by
  induction ns with
  | nil => intro a s; simp [decodeRun]
  | cons n ns ih =>
    intro a s
    simp only [decodeRun]
    rw [ih]
    cases c <;> rfl

/-- The other channel's registers stay. -/
theorem chan_decodeRun_of_ne (c d : Channel) (stride : Word) (ns : List Nibble) (a : Word) (s : State) (h : d ≠ c) :
    (decodeRun c stride a ns s).chan d = s.chan d := by
  rw [decodeRun_frame]
  cases c <;> cases d <;> first | rfl | exact absurd rfl h

/-! A run of nibbles keeps every other field. -/

@[simp] theorem decodeRun_icur (c : Channel) (stride : Word) (ns : List Nibble) (a : Word) (s : State) :
    (decodeRun c stride a ns s).icur = s.icur := by rw [decodeRun_frame]; simp

@[simp] theorem decodeRun_olen (c : Channel) (stride : Word) (ns : List Nibble) (a : Word) (s : State) :
    (decodeRun c stride a ns s).olen = s.olen := by rw [decodeRun_frame]; simp

@[simp] theorem decodeRun_runState (c : Channel) (stride : Word) (ns : List Nibble) (a : Word) (s : State) :
    (decodeRun c stride a ns s).runState = s.runState := by rw [decodeRun_frame]; simp

@[simp] theorem decodeRun_cause (c : Channel) (stride : Word) (ns : List Nibble) (a : Word) (s : State) :
    (decodeRun c stride a ns s).cause = s.cause := by rw [decodeRun_frame]; simp

@[simp] theorem decodeRun_nch (c : Channel) (stride : Word) (ns : List Nibble) (a : Word) (s : State) :
    (decodeRun c stride a ns s).nch = s.nch := by rw [decodeRun_frame]; simp

@[simp] theorem decodeRun_fsz (c : Channel) (stride : Word) (ns : List Nibble) (a : Word) (s : State) :
    (decodeRun c stride a ns s).fsz = s.fsz := by rw [decodeRun_frame]; simp

@[simp] theorem decodeRun_ilen (c : Channel) (stride : Word) (ns : List Nibble) (a : Word) (s : State) :
    (decodeRun c stride a ns s).ilen = s.ilen := by rw [decodeRun_frame]; simp

@[simp] theorem decodeRun_imem (c : Channel) (stride : Word) (ns : List Nibble) (a : Word) (s : State) :
    (decodeRun c stride a ns s).imem = s.imem := by rw [decodeRun_frame]; simp

@[simp] theorem decodeRun_cfg (c : Channel) (stride : Word) (ns : List Nibble) (a : Word) (s : State) :
    (decodeRun c stride a ns s).cfg = s.cfg := by rw [decodeRun_frame]; simp

@[simp] theorem decodeRun_inputs (c : Channel) (stride : Word) (ns : List Nibble) (a : Word) (s : State) :
    (decodeRun c stride a ns s).inputs = s.inputs := by rw [decodeRun_frame]; simp

@[simp] theorem decodeRun_replies (c : Channel) (stride : Word) (ns : List Nibble) (a : Word) (s : State) :
    (decodeRun c stride a ns s).replies = s.replies := by rw [decodeRun_frame]; simp

@[simp] theorem decodeRun_draws (c : Channel) (stride : Word) (ns : List Nibble) (a : Word) (s : State) :
    (decodeRun c stride a ns s).draws = s.draws := by rw [decodeRun_frame]; simp

/-- The registers a run of nibbles ends with. -/
theorem chan_decodeRun_same (c : Channel) (stride : Word) (ns : List Nibble) :
    ∀ (a : Word) (s : State),
      (decodeRun c stride a ns s).chan c = (channelSamples s.cfg ns (s.chan c)).2 := by
  induction ns with
  | nil => intro a s; rfl
  | cons n ns ih =>
    intro a s
    simp only [decodeRun, channelSamples]
    rw [ih]
    simp [decodeAndWrite_eq]

/-- A run of nibbles keeps the canonical form of `OMEM`. -/
theorem wf_decodeRun (c : Channel) (stride : Word) (ns : List Nibble) :
    ∀ (a : Word) (s : State), Memory.wf s.omem → Memory.wf (decodeRun c stride a ns s).omem := by
  induction ns with
  | nil => intro a s h; exact h
  | cons n ns ih =>
    intro a s h
    exact ih _ _ (wf_omemWriteHalf _ _ _ (by simpa [decodeOn] using h))

/-- A byte of `OMEM` that is no byte of a sample of the run stays. -/
theorem omemByte_decodeRun_of_ne (c : Channel) (stride : Word) (ns : List Nibble) :
    ∀ (a : Word) (s : State) (b : Nat),
      (∀ j < ns.length, b ≠ (sampleAddr a stride j).toNat ∧ b ≠ (sampleAddr a stride j + 1).toNat) →
      (decodeRun c stride a ns s).omemByte b = s.omemByte b := by
  induction ns with
  | nil => intro a s b _; rfl
  | cons n ns ih =>
    intro a s b h
    have h0 := h 0 (by simp)
    rw [sampleAddr_zero] at h0
    rw [decodeRun, ih _ _ _ (fun j hj => by
      have := h (j + 1) (by simpa using hj)
      rwa [← sampleAddr_succ] at this), decodeAndWrite_eq, omemByte_omemWriteHalf, if_neg h0.2, if_neg h0.1]
    exact omemByte_congr _ _ (setChan_omem _ _ _) _

/-- The two bytes of sample `i` of the run hold the sample, where no later sample overwrites them. -/
theorem omemByte_decodeRun_at_of_ne (c : Channel) (stride : Word) (ns : List Nibble) :
    ∀ (a : Word) (s : State) (i : Nat) (hi : i < ns.length),
      (∀ j, i < j → j < ns.length → ∀ k < 2, ∀ l < 2,
        (sampleAddr a stride i + BitVec.ofNat 32 k).toNat ≠ (sampleAddr a stride j + BitVec.ofNat 32 l).toNat) →
      (decodeRun c stride a ns s).omemByte (sampleAddr a stride i).toNat =
        loByte ((channelSamples s.cfg ns (s.chan c)).1[i]'(by simpa using hi)) ∧
      (decodeRun c stride a ns s).omemByte (sampleAddr a stride i + 1).toNat =
        hiByte ((channelSamples s.cfg ns (s.chan c)).1[i]'(by simpa using hi)) := by
  induction ns with
  | nil => intro a s i hi; exact absurd hi (by simp)
  | cons n ns ih =>
    intro a s i hi hd
    have hch : (decodeAndWrite c a n s).chan c = (decodeSample s.cfg n (s.chan c)).2 := chan_decodeAndWrite_same _ _ _ _
    have hcfg : (decodeAndWrite c a n s).cfg = s.cfg := by simp [decodeAndWrite_eq]
    cases i with
    | zero =>
      have hne : ∀ k < 2, ∀ j < ns.length,
          (a + BitVec.ofNat 32 k).toNat ≠ (sampleAddr (a + stride) stride j).toNat ∧
          (a + BitVec.ofNat 32 k).toNat ≠ (sampleAddr (a + stride) stride j + 1).toNat := by
        intro k hk j hj
        have h0 := hd (j + 1) (by omega) (by simpa using hj) k hk 0 (by omega)
        have h1 := hd (j + 1) (by omega) (by simpa using hj) k hk 1 (by omega)
        rw [← sampleAddr_succ, sampleAddr_zero] at h0 h1
        exact ⟨by simpa using h0, by simpa using h1⟩
      have ha := toNat_ne_succ a
      rw [sampleAddr_zero]
      simp only [decodeRun, channelSamples, List.getElem_cons_zero]
      constructor
      · rw [omemByte_decodeRun_of_ne _ _ _ _ _ _ (fun j hj => by simpa using hne 0 (by omega) j hj),
          decodeAndWrite_eq, omemByte_omemWriteHalf, if_neg ha, if_pos rfl]
      · rw [omemByte_decodeRun_of_ne _ _ _ _ _ _ (fun j hj => by simpa using hne 1 (by omega) j hj),
          decodeAndWrite_eq, omemByte_omemWriteHalf, if_pos rfl]
    | succ i =>
      have hi' : i < ns.length := by simpa using hi
      have := ih (a + stride) (decodeAndWrite c a n s) i hi' (by
        intro j hij hj k hk l hl
        rw [sampleAddr_succ, sampleAddr_succ]
        exact hd (j + 1) (by omega) (by simpa using hj) k hk l hl)
      rw [sampleAddr_succ] at this
      simp only [decodeRun, channelSamples, List.getElem_cons_succ]
      rw [hch, hcfg] at this
      exact this

/-- An offset plus a small number, as a number. -/
theorem add_ofNat_toNat (a : Word) (k : Nat) : (a + BitVec.ofNat 32 k).toNat = (a.toNat + k) % 2 ^ 32 := by
  simp [BitVec.toNat_add, Nat.add_mod]

theorem sampleAddr_toNat (a stride : Word) (i : Nat) :
    (sampleAddr a stride i).toNat = (a.toNat + i * stride.toNat) % 2 ^ 32 := by
  simp [sampleAddr, BitVec.toNat_add, BitVec.toNat_mul, Nat.add_mod, Nat.mul_mod]

/-- The two bytes of sample `i` of the run hold the sample, where the samples stand at least two bytes apart and do not
come round the address space. -/
theorem omemByte_decodeRun_at (c : Channel) (stride : Word) (ns : List Nibble) (a : Word) (s : State) (i : Nat)
    (hi : i < ns.length) (h2 : 2 ≤ stride.toNat) (hl : ns.length * stride.toNat ≤ 2 ^ 32) :
    (decodeRun c stride a ns s).omemByte (sampleAddr a stride i).toNat =
      loByte ((channelSamples s.cfg ns (s.chan c)).1.getD i 0) ∧
    (decodeRun c stride a ns s).omemByte (sampleAddr a stride i + 1).toNat =
      hiByte ((channelSamples s.cfg ns (s.chan c)).1.getD i 0) := by
  have h := omemByte_decodeRun_at_of_ne c stride ns a s i hi (by
    intro j hij hj k hk l hl'
    have h1 : i * stride.toNat + stride.toNat ≤ j * stride.toNat := by
      rw [← Nat.succ_mul]; exact Nat.mul_le_mul_right _ hij
    have h3 : j * stride.toNat + stride.toNat ≤ ns.length * stride.toNat := by
      rw [← Nat.succ_mul]; exact Nat.mul_le_mul_right _ hj
    rw [add_ofNat_toNat, add_ofNat_toNat, sampleAddr_toNat, sampleAddr_toNat]
    omega)
  have hlen : i < (channelSamples s.cfg ns (s.chan c)).1.length := by simpa using hi
  rw [List.getD_eq_getElem _ _ hlen]
  exact h

/-- The nibbles of data bytes: two of each byte, the low one first. -/
theorem nibblesOf_length (bs : List Byte) : (nibblesOf bs).length = 2 * bs.length := by
  induction bs with
  | nil => rfl
  | cons b bs ih => simp [nibblesOf, ih]; omega

end Sys2Proof.Machine
end

