-- ==== Sys2Proof/Laws/Steps.lean ====
section
/-! SUPPORT. What a fetch finds, what each meaning can do, and the cases of a step, said once. -/

namespace Sys2Proof.Machine

/-! ### What a fetch finds -/

/-- A preamble unit as it stands in `IMEM` at an offset (30_encoding R82). -/
def preambleAt (s : State) (a : Nat) : Preamble :=
  ⟨s.imemByte a, s.imemByte (a + 1), s.imemByte (a + 2), s.imemByte (a + 3)⟩

/-- The preamble units of the boundary at an offset (30_encoding R83). -/
def unitsAt (s : State) (m : Mode) (a : Nat) : PreUnits :=
  match m with
  | .mono => .mono (preambleAt s a)
  | .stereo => .stereo (preambleAt s a) (preambleAt s (a + 4))

@[simp] theorem unitsAt_mode (s : State) (m : Mode) (a : Nat) : (unitsAt s m a).mode = m := by cases m <;> rfl

/-- Preamble units that lie below `ILEN` are read as they stand. -/
theorem fetchUnit_boundary (s : State) (m : Mode) (h : s.icur.toNat + 4 * m.channels ≤ s.ilen.toNat) :
    fetchUnit s (.boundary m) (4 * m.channels) = .instr (boundaryInstr (unitsAt s m s.icur.toNat)) := by
  unfold fetchUnit
  rw [readInput_eq s _ _ h]
  cases m <;> rfl

/-- A mono data byte below `ILEN` is read as it stands. -/
theorem fetchUnit_mono (s : State) (h : s.icur.toNat + 1 ≤ s.ilen.toNat) :
    fetchUnit s (.region .mono) 1 = .instr (.db (s.imemByte s.icur.toNat)) := by
  unfold fetchUnit
  rw [readInput_eq s _ _ h]
  rfl

/-- A stereo group below `ILEN` is read as it stands. -/
theorem fetchUnit_stereo (s : State) (h : s.icur.toNat + 8 ≤ s.ilen.toNat) :
    fetchUnit s (.region .stereo) 8 =
      .instr (.dg (s.imemByte s.icur.toNat) (s.imemByte (s.icur.toNat + 1)) (s.imemByte (s.icur.toNat + 2))
        (s.imemByte (s.icur.toNat + 3)) (s.imemByte (s.icur.toNat + 4)) (s.imemByte (s.icur.toNat + 5))
        (s.imemByte (s.icur.toNat + 6)) (s.imemByte (s.icur.toNat + 7))) := by
  unfold fetchUnit
  rw [readInput_eq s _ _ h]
  rfl

/-- A fetch depends on the configuration, the cursor and the stream below `ILEN` alone (00_scope R13). -/
theorem fetch_congr (s t : State) (hc : s.icur = t.icur) (h : SameRunInputs s t) : fetch s = fetch t := by
  obtain ⟨hn, hf, hl, -, hb⟩ := h
  have hr : ∀ p n, fetchUnit s p n = fetchUnit t p n := by
    intro p n
    unfold fetchUnit
    rw [hc, readInput_congr s t n _ hl hb]
  have ha : s.atBoundary = t.atBoundary := by simp [State.atBoundary, hc, hf]
  have hm : s.remaining = t.remaining := by simp [State.remaining, hc, hl]
  unfold fetch fetchBoundary
  rw [ha, hm, hn, hr, hr, hr]

/-! ### What each meaning does -/

/-- Every field but the channel registers is kept by a preamble load. -/
theorem loadPreambles_frame (u : PreUnits) (s : State) :
    loadPreambles u s = { s with ch0 := (loadPreambles u s).ch0, ch1 := (loadPreambles u s).ch1 } := by
  cases u <;> rfl

@[simp] theorem loadPreambles_icur (u : PreUnits) (s : State) : (loadPreambles u s).icur = s.icur := by cases u <;> rfl
@[simp] theorem loadPreambles_olen (u : PreUnits) (s : State) : (loadPreambles u s).olen = s.olen := by cases u <;> rfl
@[simp] theorem loadPreambles_runState (u : PreUnits) (s : State) : (loadPreambles u s).runState = s.runState := by cases u <;> rfl
@[simp] theorem loadPreambles_cause (u : PreUnits) (s : State) : (loadPreambles u s).cause = s.cause := by cases u <;> rfl
@[simp] theorem loadPreambles_nch (u : PreUnits) (s : State) : (loadPreambles u s).nch = s.nch := by cases u <;> rfl
@[simp] theorem loadPreambles_fsz (u : PreUnits) (s : State) : (loadPreambles u s).fsz = s.fsz := by cases u <;> rfl
@[simp] theorem loadPreambles_ilen (u : PreUnits) (s : State) : (loadPreambles u s).ilen = s.ilen := by cases u <;> rfl
@[simp] theorem loadPreambles_imem (u : PreUnits) (s : State) : (loadPreambles u s).imem = s.imem := by cases u <;> rfl
@[simp] theorem loadPreambles_omem (u : PreUnits) (s : State) : (loadPreambles u s).omem = s.omem := by cases u <;> rfl
@[simp] theorem loadPreambles_cfg (u : PreUnits) (s : State) : (loadPreambles u s).cfg = s.cfg := by cases u <;> rfl
@[simp] theorem loadPreambles_inputs (u : PreUnits) (s : State) : (loadPreambles u s).inputs = s.inputs := by cases u <;> rfl
@[simp] theorem loadPreambles_replies (u : PreUnits) (s : State) : (loadPreambles u s).replies = s.replies := by cases u <;> rfl
@[simp] theorem loadPreambles_draws (u : PreUnits) (s : State) : (loadPreambles u s).draws = s.draws := by cases u <;> rfl

/-- The two outcomes of a `PRE`. -/
theorem execPre_cases (u : PreUnits) (s : State) :
    (s.remaining < s.fsz.toNat ∧ execPre u s = .next (s.raise .invalidInput)) ∨
    (¬ s.remaining < s.fsz.toNat ∧ execPre u s = .next ((loadPreambles u s).advanceInput (4 * u.mode.channels))) := by
  unfold execPre
  by_cases h : s.remaining < s.fsz.toNat
  · exact .inl ⟨h, if_pos h⟩
  · exact .inr ⟨h, if_neg h⟩

/-- Everything a `DB` can change: channel 0's registers, `OMEM`, and the two cursors. -/
theorem execDb_frame (b : Byte) (s : State) :
    ∃ t, execDb b s = .next t ∧
      t = { s with ch0 := t.ch0, omem := t.omem, olen := s.olen + 4, icur := s.icur + 1 } ∧
      t.ch0 = (channelSamples s.cfg (nibblesOf [b]) s.ch0).2 := by
  refine ⟨_, rfl, ?_, ?_⟩
  · rw [decodeRun_frame]; rfl
  · exact chan_decodeRun_same .ch0 _ _ _ _

/-- What the two runs of a stereo group change, whatever the nibbles. -/
theorem groupRuns_frame (ls rs : List Nibble) (s t : State)
    (ht : t = ((decodeRun .ch1 4 (s.olen + 2) rs (decodeRun .ch0 4 s.olen ls s)).advanceOutput 32).advanceInput 8) :
    t = { s with ch0 := t.ch0, ch1 := t.ch1, omem := t.omem, olen := s.olen + 32, icur := s.icur + 8 } ∧
    t.ch0 = (channelSamples s.cfg ls s.ch0).2 ∧ t.ch1 = (channelSamples s.cfg rs s.ch1).2 := by
  subst ht
  refine ⟨?_, ?_, ?_⟩
  · ext1 <;> simp
  · simp only [advanceInput_ch0, advanceOutput_ch0]
    rw [← chan_ch0, chan_decodeRun_of_ne _ _ _ _ _ _ (by decide), chan_decodeRun_same]
    simp
  · simp only [advanceInput_ch1, advanceOutput_ch1]
    rw [← chan_ch1, chan_decodeRun_same, chan_decodeRun_of_ne _ _ _ _ _ _ (by decide)]
    simp

/-- A `DG` is the two runs of its nibbles and the two cursors' moves. -/
theorem execDg_eq (g0 g1 g2 g3 g4 g5 g6 g7 : Byte) (s : State) :
    execDg g0 g1 g2 g3 g4 g5 g6 g7 s =
      .next (((decodeRun .ch1 4 (s.olen + 2) (nibblesOf [g4, g5, g6, g7])
        (decodeRun .ch0 4 s.olen (nibblesOf [g0, g1, g2, g3]) s)).advanceOutput 32).advanceInput 8) := rfl

/-- Everything a `DG` can change: both channels' registers, `OMEM`, and the two cursors. -/
theorem execDg_frame (g0 g1 g2 g3 g4 g5 g6 g7 : Byte) (s : State) :
    ∃ t, execDg g0 g1 g2 g3 g4 g5 g6 g7 s = .next t ∧
      t = { s with ch0 := t.ch0, ch1 := t.ch1, omem := t.omem, olen := s.olen + 32, icur := s.icur + 8 } ∧
      t.ch0 = (channelSamples s.cfg (nibblesOf [g0, g1, g2, g3]) s.ch0).2 ∧
      t.ch1 = (channelSamples s.cfg (nibblesOf [g4, g5, g6, g7]) s.ch1).2 :=
  ⟨_, execDg_eq _ _ _ _ _ _ _ _ _, groupRuns_frame _ _ _ _ rfl⟩

/-! The bytes a data step writes: where each sample stands, and that no other byte changes. -/

/-- A `DB` is the run of its two nibbles and the two cursors' moves. -/
theorem execDb_eq (b : Byte) (s : State) :
    execDb b s = .next (((decodeRun .ch0 2 s.olen (nibblesOf [b]) s).advanceOutput 4).advanceInput 1) := rfl

/-- A next state that is known is the one. -/
theorem next_inj {s t : State} (h : (Host.Outcome.next s : Host.Outcome State Fault Refusal) = .next t) : t = s := by
  cases h; rfl

/-- The two samples of a `DB` (43_nibble_interleaver R191). -/
theorem omemByte_execDb_at (b : Byte) (s t : State) (h : execDb b s = .next t) (i : Nat) (hi : i < 2) :
    t.omemByte (s.olen + BitVec.ofNat 32 (2 * i)).toNat =
      loByte ((channelSamples s.cfg (nibblesOf [b]) s.ch0).1.getD i 0) ∧
    t.omemByte (s.olen + BitVec.ofNat 32 (2 * i + 1)).toNat =
      hiByte ((channelSamples s.cfg (nibblesOf [b]) s.ch0).1.getD i 0) := by
  have two : (2 : Word).toNat = 2 := rfl
  have hlen : (nibblesOf [b]).length = 2 := nibblesOf_length _
  have ht := next_inj ((execDb_eq b s).symm.trans h)
  have hb : ∀ a, t.omemByte a = (decodeRun .ch0 2 s.olen (nibblesOf [b]) s).omemByte a := by
    intro a; rw [ht]; exact omemByte_congr _ _ (by simp) _
  have ha := omemByte_decodeRun_at .ch0 2 (nibblesOf [b]) s.olen s i (by omega) (by rw [two]) (by rw [hlen, two]; omega)
  have e0 : (sampleAddr s.olen 2 i).toNat = (s.olen + BitVec.ofNat 32 (2 * i)).toNat := by
    rw [sampleAddr_toNat, add_ofNat_toNat, two, Nat.mul_comm]
  have e1 : (sampleAddr s.olen 2 i + 1).toNat = (s.olen + BitVec.ofNat 32 (2 * i + 1)).toNat := by
    have := add_ofNat_toNat (sampleAddr s.olen 2 i) 1
    rw [show sampleAddr s.olen 2 i + 1 = sampleAddr s.olen 2 i + BitVec.ofNat 32 1 from rfl, this, sampleAddr_toNat,
      add_ofNat_toNat, two]
    omega
  rw [e0, e1] at ha
  rw [hb, hb]
  exact ha

/-- A `DB` changes no byte but the four from `OLEN` on. -/
theorem omemByte_execDb_of_ne (b : Byte) (s t : State) (h : execDb b s = .next t) (a : Nat)
    (ha : ∀ k < 4, a ≠ (s.olen + BitVec.ofNat 32 k).toNat) : t.omemByte a = s.omemByte a := by
  have two : (2 : Word).toNat = 2 := rfl
  have ht := next_inj ((execDb_eq b s).symm.trans h)
  have hb : t.omemByte a = (decodeRun .ch0 2 s.olen (nibblesOf [b]) s).omemByte a := by
    rw [ht]; exact omemByte_congr _ _ (by simp) _
  rw [hb]
  apply omemByte_decodeRun_of_ne
  intro j hj
  rw [nibblesOf_length] at hj
  have hj2 : j < 2 := hj
  have h0 := ha (2 * j) (by omega)
  have h1 := ha (2 * j + 1) (by omega)
  rw [add_ofNat_toNat] at h0 h1
  rw [show sampleAddr s.olen 2 j + 1 = sampleAddr s.olen 2 j + BitVec.ofNat 32 1 from rfl, add_ofNat_toNat,
    sampleAddr_toNat, two]
  omega

/-- The sixteen samples of a stereo group (43_nibble_interleaver R196, R197). -/
theorem omemByte_groupRuns_at (ls rs : List Nibble) (s : State) (hl : ls.length = 8) (hr : rs.length = 8) (i : Nat)
    (hi : i < 8) :
    let t := decodeRun .ch1 4 (s.olen + 2) rs (decodeRun .ch0 4 s.olen ls s)
    t.omemByte (s.olen + BitVec.ofNat 32 (4 * i)).toNat = loByte ((channelSamples s.cfg ls s.ch0).1.getD i 0) ∧
    t.omemByte (s.olen + BitVec.ofNat 32 (4 * i + 1)).toNat = hiByte ((channelSamples s.cfg ls s.ch0).1.getD i 0) ∧
    t.omemByte (s.olen + BitVec.ofNat 32 (4 * i + 2)).toNat = loByte ((channelSamples s.cfg rs s.ch1).1.getD i 0) ∧
    t.omemByte (s.olen + BitVec.ofNat 32 (4 * i + 3)).toNat = hiByte ((channelSamples s.cfg rs s.ch1).1.getD i 0) := by
  have four : (4 : Word).toNat = 4 := rfl
  have one : ∀ x : Word, (x + 1).toNat = (x.toNat + 1) % 2 ^ 32 := fun x => add_ofNat_toNat x 1
  have o2 : (s.olen + 2).toNat = (s.olen.toNat + 2) % 2 ^ 32 := add_ofNat_toNat _ 2
  intro t
  have aL := omemByte_decodeRun_at .ch0 4 ls s.olen s i (by omega) (by rw [four]; omega) (by rw [hl, four]; omega)
  have aR := omemByte_decodeRun_at .ch1 4 rs (s.olen + 2) (decodeRun .ch0 4 s.olen ls s) i (by omega)
    (by rw [four]; omega) (by rw [hr, four]; omega)
  have e0 : (sampleAddr s.olen 4 i).toNat = (s.olen + BitVec.ofNat 32 (4 * i)).toNat := by
    rw [sampleAddr_toNat, add_ofNat_toNat, four, Nat.mul_comm]
  have e1 : (sampleAddr s.olen 4 i + 1).toNat = (s.olen + BitVec.ofNat 32 (4 * i + 1)).toNat := by
    rw [one, sampleAddr_toNat, add_ofNat_toNat, four]; omega
  have e2 : (sampleAddr (s.olen + 2) 4 i).toNat = (s.olen + BitVec.ofNat 32 (4 * i + 2)).toNat := by
    rw [sampleAddr_toNat, add_ofNat_toNat, four, o2]; omega
  have e3 : (sampleAddr (s.olen + 2) 4 i + 1).toNat = (s.olen + BitVec.ofNat 32 (4 * i + 3)).toNat := by
    rw [one, sampleAddr_toNat, add_ofNat_toNat, four, o2]; omega
  have hne : ∀ x : Nat, (x = (s.olen + BitVec.ofNat 32 (4 * i)).toNat ∨ x = (s.olen + BitVec.ofNat 32 (4 * i + 1)).toNat) →
      t.omemByte x = (decodeRun .ch0 4 s.olen ls s).omemByte x := by
    intro x hx
    apply omemByte_decodeRun_of_ne
    intro j hj
    rw [hr] at hj
    rw [one, sampleAddr_toNat, four, o2]
    rw [add_ofNat_toNat, add_ofNat_toNat] at hx
    omega
  rw [e0, e1] at aL
  rw [e2, e3, decodeRun_cfg, chan_decodeRun_of_ne _ _ _ _ _ _ (by decide)] at aR
  exact ⟨(hne _ (.inl rfl)).trans aL.1, (hne _ (.inr rfl)).trans aL.2, aR.1, aR.2⟩

/-- A stereo group changes no byte but the 32 from `OLEN` on. -/
theorem omemByte_groupRuns_of_ne (ls rs : List Nibble) (s : State) (hl : ls.length = 8) (hr : rs.length = 8) (a : Nat)
    (ha : ∀ k < 32, a ≠ (s.olen + BitVec.ofNat 32 k).toNat) :
    (decodeRun .ch1 4 (s.olen + 2) rs (decodeRun .ch0 4 s.olen ls s)).omemByte a = s.omemByte a := by
  have four : (4 : Word).toNat = 4 := rfl
  have one : ∀ x : Word, (x + 1).toNat = (x.toNat + 1) % 2 ^ 32 := fun x => add_ofNat_toNat x 1
  have o2 : (s.olen + 2).toNat = (s.olen.toNat + 2) % 2 ^ 32 := add_ofNat_toNat _ 2
  rw [omemByte_decodeRun_of_ne, omemByte_decodeRun_of_ne]
  · intro j hj
    rw [hl] at hj
    have h0 := ha (4 * j) (by omega)
    have h1 := ha (4 * j + 1) (by omega)
    rw [add_ofNat_toNat] at h0 h1
    rw [one, sampleAddr_toNat, four]; omega
  · intro j hj
    rw [hr] at hj
    have h0 := ha (4 * j + 2) (by omega)
    have h1 := ha (4 * j + 3) (by omega)
    rw [add_ofNat_toNat] at h0 h1
    rw [one, sampleAddr_toNat, four, o2]; omega

/-- The bytes of `OMEM` after a `DG` are those after its two runs. -/
theorem omemByte_execDg (g0 g1 g2 g3 g4 g5 g6 g7 : Byte) (s t : State) (h : execDg g0 g1 g2 g3 g4 g5 g6 g7 s = .next t)
    (a : Nat) :
    t.omemByte a = (decodeRun .ch1 4 (s.olen + 2) (nibblesOf [g4, g5, g6, g7])
      (decodeRun .ch0 4 s.olen (nibblesOf [g0, g1, g2, g3]) s)).omemByte a := by
  have ht := next_inj ((execDg_eq g0 g1 g2 g3 g4 g5 g6 g7 s).symm.trans h)
  generalize nibblesOf [g0, g1, g2, g3] = ls at ht ⊢
  generalize nibblesOf [g4, g5, g6, g7] = rs at ht ⊢
  rw [ht]
  exact omemByte_congr _ _ (by simp) _

/-- A data step keeps the canonical form of `OMEM`. -/
theorem wf_execDb (b : Byte) (s t : State) (h : execDb b s = .next t) (hw : Memory.wf s.omem) : Memory.wf t.omem := by
  rw [next_inj ((execDb_eq b s).symm.trans h)]
  simpa using wf_decodeRun _ _ _ _ _ hw

/-- A group step keeps the canonical form of `OMEM`. -/
theorem wf_execDg (g0 g1 g2 g3 g4 g5 g6 g7 : Byte) (s t : State) (h : execDg g0 g1 g2 g3 g4 g5 g6 g7 s = .next t)
    (hw : Memory.wf s.omem) : Memory.wf t.omem := by
  have ht := next_inj ((execDg_eq g0 g1 g2 g3 g4 g5 g6 g7 s).symm.trans h)
  generalize nibblesOf [g0, g1, g2, g3] = ls at ht
  generalize nibblesOf [g4, g5, g6, g7] = rs at ht
  rw [ht]
  simpa using wf_decodeRun _ _ _ _ _ (wf_decodeRun _ _ _ _ _ hw)

/-- The test `START` makes is the rule's (10_state R31). -/
theorem configLegal_iff (s : State) : configLegal s.nch s.fsz s.ilen = true ↔ LegalConfig s := by
  unfold configLegal LegalConfig
  simp only [Bool.and_eq_true, Bool.or_eq_true, decide_eq_true_eq, ne_eq]
  omega

/-- The outcomes of a `START` (44_host_commands R211, R212). -/
theorem execStart_cases (x : BitVec 30) (s : State) :
    ((s.runState = .run ∨ s.runState = .fault) ∧ execStart x s = .next s) ∨
    ((s.runState = .idle ∨ s.runState = .done) ∧ LegalConfig s ∧
      execStart x s = .next { s.beginRun with runState := .run, cause := .noCause }) ∨
    ((s.runState = .idle ∨ s.runState = .done) ∧ ¬ LegalConfig s ∧
      execStart x s = .next (s.beginRun.raise .invalidConfig)) := by
  unfold execStart
  have hc := configLegal_iff s
  by_cases h : LegalConfig s
  · have hl : configLegal s.nch s.fsz s.ilen = true := hc.2 h
    cases hr : s.runState <;> simp [h, hl]
  · have hl : configLegal s.nch s.fsz s.ilen = false := by
      rw [← Bool.not_eq_true, hc]; exact h
    cases hr : s.runState <;> simp [h, hl]

/-- No instruction faults or is refused. -/
theorem exec_next (i : Instr) (s : State) : ∃ t, exec i s = .next t := by
  cases i
  case pre u => rcases execPre_cases u s with ⟨_, h⟩ | ⟨_, h⟩ <;> exact ⟨_, h⟩
  case start x => rcases execStart_cases x s with ⟨_, h⟩ | ⟨_, _, h⟩ | ⟨_, _, h⟩ <;> exact ⟨_, h⟩
  all_goals exact ⟨_, rfl⟩

/-! ### The host's moves -/

/-- The outcomes of a write of `CTRL` (44_host_commands R210). -/
theorem writeCtrl_cases (v : Word) (s : State) :
    (v.getLsbD 1 = true ∧ writeCtrl v s = .next s.resetRegisters) ∨
    (v.getLsbD 1 = false ∧ v.getLsbD 0 = true ∧ writeCtrl v s = execStart (v.extractLsb' 2 30) s) ∨
    (v.getLsbD 1 = false ∧ v.getLsbD 0 = false ∧ writeCtrl v s = .next s) := by
  have hd := decode_ctrl v []
  rw [List.append_nil] at hd
  unfold writeCtrl
  rw [hd]
  rcases decodeCtrl_cases v with ⟨h1, e⟩ | ⟨h1, h0, e⟩ | ⟨h1, h0, e⟩
  · exact .inl ⟨h1, by rw [e]; rfl⟩
  · exact .inr (.inl ⟨h1, h0, by rw [e]; rfl⟩)
  · exact .inr (.inr ⟨h1, h0, by rw [e]⟩)

/-! ### A step -/

/-- A step is the decoder's turn, with at most one entry taken from the pending moves, or one host move. -/
theorem step_cases (s : State) :
    (s.inputs = [] ∧ step s = decoderStep s) ∨
    (∃ rest, s.inputs = .decoder :: rest ∧ step s = decoderStep { s with inputs := rest }) ∨
    (∃ m rest, s.inputs = m :: rest ∧ m ≠ .decoder ∧ step s = hostMove m { s with inputs := rest }) := by
  unfold step nextMove
  cases h : s.inputs with
  | nil => exact .inl ⟨rfl, rfl⟩
  | cons m rest =>
    cases m
    case decoder => exact .inr (.inl ⟨rest, rfl, rfl⟩)
    all_goals exact .inr (.inr ⟨_, rest, rfl, by simp, rfl⟩)

/-- A pending move that does not leave the decoder its turn is what the step carries out. -/
theorem step_host (s : State) (m : Input) (rest : List Input) (h : s.inputs = m :: rest) (hm : m ≠ .decoder) :
    step s = hostMove m { s with inputs := rest } := by
  rcases step_cases s with ⟨e, _⟩ | ⟨_, e, _⟩ | ⟨m', r', e, _, e2⟩
  · rw [h] at e; cases e
  · rw [h] at e; cases e; exact absurd rfl hm
  · rw [h] at e; cases e; exact e2

/-- On the decoder's turn the step is the decoder's, with the entry that left it the turn taken. -/
theorem step_decoder (s : State) (h : DecoderTurn s) : step s = decoderStep { s with inputs := s.inputs.tail } := by
  rcases step_cases s with ⟨e, e2⟩ | ⟨r, e, e2⟩ | ⟨m, r, e, hm, _⟩
  · rw [e2, e, List.tail_nil, ← e]
  · rw [e2, e]; rfl
  · rcases h with h | ⟨r', h⟩
    · rw [e] at h; cases h
    · rw [e] at h; cases h; exact absurd rfl hm

/-- The decoder's turn in a run (42_block_framer R160). -/
theorem decoderStep_run (s : State) (h : s.runState = .run) :
    decoderStep s =
      match fetch s with
      | .instr i => exec i s
      | .raise c => .next (s.raise c)
      | .outOfRange => .fault .inputOutOfRange := by
  cases hf : fetch s <;> simp only [decoderStep, h, hf]

/-- The decoder's turn outside a run. -/
theorem decoderStep_still (s : State) (h : s.runState ≠ .run) : decoderStep s = .next s := by
  unfold decoderStep
  cases hr : s.runState <;> first | rfl | exact absurd hr h

/-! ### The moves that are not the decoder's -/

/-- A move kept out of runs that answers a next state: there is no run, and the move's own outcome is that state. -/
theorem unlessRunning_next {why : Refusal} {s t : State} {o : Host.Outcome State Fault Refusal}
    (h : unlessRunning why s o = .next t) : s.runState ≠ .run ∧ o = .next t := by
  unfold unlessRunning at h
  by_cases hr : s.runState = .run
  · rw [if_pos hr] at h; cases h
  · rw [if_neg hr] at h; exact ⟨hr, h⟩

/-- Outside a run such a move has its own outcome. -/
theorem unlessRunning_idle (why : Refusal) (s : State) (o : Host.Outcome State Fault Refusal) (h : s.runState ≠ .run) :
    unlessRunning why s o = o := if_neg h

/-- In a run it is refused for its reason. -/
theorem unlessRunning_run (why : Refusal) (s : State) (o : Host.Outcome State Fault Refusal) (h : s.runState = .run) :
    unlessRunning why s o = .refused why := if_pos h

/-- Everything a step can do that is not the decoder's, if it answers a next state: a `RESET`; a `START` that begins a run
or raises its fault; nothing (a `START` or `CTRL` write that is ignored); a write of a configuration register; a write of
a byte of `IMEM`; a reply to a read; a nibble presented alone. The write of `IMEM` and the nibble come outside a run. -/
theorem step_host_cases (s t : State) (h : step s = .next t) (hd : ¬ DecoderTurn s) :
    let u : State := { s with inputs := s.inputs.tail }
    (ResetNext s ∧ t = u.resetRegisters) ∨
    (StartNext s ∧ (s.runState = .idle ∨ s.runState = .done) ∧ LegalConfig s ∧
      t = { u.beginRun with runState := .run, cause := .noCause }) ∨
    (StartNext s ∧ (s.runState = .idle ∨ s.runState = .done) ∧ ¬ LegalConfig s ∧ t = u.beginRun.raise .invalidConfig) ∨
    t = u ∨
    (∃ n v, t = u.writeConfig n v) ∨
    (∃ a b, s.inputs = .writeIMem a b :: s.inputs.tail ∧ s.runState ≠ .run ∧ t = u.imemWrite a b) ∨
    (∃ v, t = u.reply v) ∨
    (∃ c n, s.runState ≠ .run ∧ t = decodeOn c n u) := by
  intro u
  rcases step_cases s with ⟨e, _⟩ | ⟨r, e, _⟩ | ⟨m, r, e, hm, e2⟩
  · exact absurd (.inl e) hd
  · exact absurd (.inr ⟨r, e⟩) hd
  · have hu : { s with inputs := r } = u := by simp only [u, e, List.tail_cons]
    rw [e2, hu] at h
    cases m with
    | decoder => exact absurd rfl hm
    | writeReg n v =>
      by_cases hn : n = 0
      · subst hn
        have h' : writeCtrl v u = .next t := h
        rcases writeCtrl_cases v u with ⟨h1, e3⟩ | ⟨h1, h0, e3⟩ | ⟨h1, h0, e3⟩
        · rw [e3] at h'; cases h'
          exact .inl ⟨⟨v, r, e, h1⟩, rfl⟩
        · rw [e3] at h'
          have hst : StartNext s := ⟨v, r, e, h1, h0⟩
          rcases execStart_cases (v.extractLsb' 2 30) u with ⟨_, e4⟩ | ⟨h4, h5, e4⟩ | ⟨h4, h5, e4⟩
          · rw [e4] at h'
            exact .inr (.inr (.inr (.inl (next_inj h'))))
          · rw [e4] at h'; cases h'
            exact .inr (.inl ⟨hst, h4, h5, rfl⟩)
          · rw [e4] at h'; cases h'
            exact .inr (.inr (.inl ⟨hst, h4, h5, rfl⟩))
        · rw [e3] at h'
          exact .inr (.inr (.inr (.inl (next_inj h'))))
      · simp only [hostMove, writeReg, if_neg hn] at h
        cases h
        exact .inr (.inr (.inr (.inr (.inl ⟨n, v, rfl⟩))))
    | readReg n =>
      simp only [hostMove] at h; cases h
      exact .inr (.inr (.inr (.inr (.inr (.inr (.inl ⟨_, rfl⟩))))))
    | writeIMem a b =>
      obtain ⟨hr, h⟩ := unlessRunning_next h
      cases h
      exact .inr (.inr (.inr (.inr (.inr (.inl ⟨a, b, by rw [e]; rfl, hr, rfl⟩)))))
    | readIMem a =>
      obtain ⟨-, h⟩ := unlessRunning_next h
      cases h
      exact .inr (.inr (.inr (.inr (.inr (.inr (.inl ⟨_, rfl⟩))))))
    | readOMem a =>
      obtain ⟨-, h⟩ := unlessRunning_next h
      cases h
      exact .inr (.inr (.inr (.inr (.inr (.inr (.inl ⟨_, rfl⟩))))))
    | nibble c n =>
      obtain ⟨hr, h⟩ := unlessRunning_next h
      rw [exec_nibbleInstr] at h
      cases h
      exact .inr (.inr (.inr (.inr (.inr (.inr (.inr ⟨c, n, hr, rfl⟩))))))

/-! ### The decoder does not see the pending moves nor the replies -/

/-- A state with the lists of pending moves and of replies replaced. -/
def State.withHost (s : State) (m : List Input) (r : List Word) : State := { s with inputs := m, replies := r }

/-- An outcome with these lists replaced. -/
def mapHost (m : List Input) (r : List Word) : Host.Outcome State Fault Refusal → Host.Outcome State Fault Refusal
  | .next t => .next (t.withHost m r)
  | .fault f => .fault f
  | .refused f => .refused f

@[simp] theorem withHost_runState (s : State) (m : List Input) (r : List Word) : (s.withHost m r).runState = s.runState := rfl
@[simp] theorem withHost_inputs (s : State) (m : List Input) (r : List Word) : (s.withHost m r).inputs = m := rfl
@[simp] theorem withHost_replies (s : State) (m : List Input) (r : List Word) : (s.withHost m r).replies = r := rfl
@[simp] theorem withHost_withHost (s : State) (m m' : List Input) (r r' : List Word) :
    (s.withHost m r).withHost m' r' = s.withHost m' r' := rfl
@[simp] theorem withHost_self (s : State) : s.withHost s.inputs s.replies = s := rfl

theorem decodeOn_withHost (c : Channel) (n : Nibble) (s : State) (m : List Input) (r : List Word) :
    decodeOn c n (s.withHost m r) = (decodeOn c n s).withHost m r := by cases c <;> rfl

theorem loadPreambles_withHost (u : PreUnits) (s : State) (m : List Input) (r : List Word) :
    loadPreambles u (s.withHost m r) = (loadPreambles u s).withHost m r := by cases u <;> rfl

/-- A run of nibbles neither reads nor changes them. -/
theorem decodeRun_withHost (c : Channel) (stride a : Word) (ns : List Nibble) (s : State) (m : List Input) (r : List Word) :
    decodeRun c stride a ns (s.withHost m r) = (decodeRun c stride a ns s).withHost m r := by
  induction ns generalizing a s with
  | nil => rfl
  | cons n ns ih =>
    have h : decodeAndWrite c a n (s.withHost m r) = (decodeAndWrite c a n s).withHost m r := by cases c <;> rfl
    rw [decodeRun, decodeRun, h, ih]

/-- What is added to the cursors does not depend on them either. -/
theorem advance_withHost (s : State) (k n : Nat) (m : List Input) (r : List Word) :
    ((s.withHost m r).advanceOutput k).advanceInput n = ((s.advanceOutput k).advanceInput n).withHost m r := rfl

/-- No instruction reads or changes them. -/
theorem exec_withHost (i : Instr) (s : State) (m : List Input) (r : List Word) :
    exec i (s.withHost m r) = mapHost m r (exec i s) := by
  cases i
  case pre u =>
    show execPre u _ = mapHost m r (execPre u s)
    unfold execPre
    rw [show (s.withHost m r).remaining = s.remaining from rfl, show (s.withHost m r).fsz = s.fsz from rfl,
      loadPreambles_withHost]
    by_cases h : s.remaining < s.fsz.toNat
    · rw [if_pos h, if_pos h]; rfl
    · rw [if_neg h, if_neg h]; rfl
  case start x =>
    show execStart x _ = mapHost m r (execStart x s)
    unfold execStart
    rw [withHost_runState,
      show configLegal (s.withHost m r).nch (s.withHost m r).fsz (s.withHost m r).ilen = configLegal s.nch s.fsz s.ilen from rfl]
    cases s.runState <;> cases configLegal s.nch s.fsz s.ilen <;> rfl
  case db b =>
    show execDb b _ = mapHost m r (execDb b s)
    rw [execDb, decodeRun_withHost, advance_withHost, execDb, mapHost]
    rfl
  case dg g0 g1 g2 g3 g4 g5 g6 g7 =>
    show execDg g0 g1 g2 g3 g4 g5 g6 g7 _ = mapHost m r (execDg g0 g1 g2 g3 g4 g5 g6 g7 s)
    rw [execDg_eq, execDg_eq, decodeRun_withHost, decodeRun_withHost, advance_withHost, mapHost]
    rfl
  case stop | endInput | reset => rfl
  all_goals exact congrArg Host.Outcome.next (decodeOn_withHost _ _ s m r)

/-- Nor does the decoder's turn (00_scope R13). -/
theorem decoderStep_withHost (s : State) (m : List Input) (r : List Word) :
    decoderStep (s.withHost m r) = mapHost m r (decoderStep s) := by
  have hf : fetch (s.withHost m r) = fetch s := fetch_congr _ _ rfl ⟨rfl, rfl, rfl, rfl, fun _ _ => rfl⟩
  by_cases hr : s.runState = .run
  · rw [decoderStep_run (s.withHost m r) hr, decoderStep_run s hr, hf]
    cases fetch s with
    | instr i => exact exec_withHost i s m r
    | raise c => rfl
    | outOfRange => rfl
  · rw [decoderStep_still s hr, decoderStep_still (s.withHost m r) hr]
    rfl

end Sys2Proof.Machine
end

