-- ==== Sys2Proof/Laws/Runs.lean ====
section
/-! SUPPORT. The decoder's step in a run, case by case, and how it moves the cursors. -/

namespace Sys2Proof.Machine

/-- Block and place in the block of a cursor, from the two numbers. -/
theorem divMod_of_eq (f k r x : Nat) (hr : r < f) (hx : x = k * f + r) : x / f = k ∧ x % f = r := by
  subst hx
  have hf : 0 < f := by omega
  constructor
  · rw [Nat.mul_comm, Nat.mul_add_div hf, Nat.div_eq_of_lt hr, Nat.add_zero]
  · rw [Nat.mul_comm, Nat.mul_add_mod, Nat.mod_eq_of_lt hr]

/-- A legal configuration has one of the two modes, which has the channels that `NCH` says. -/
theorem modeOf_channels (s : State) (h : s.nch.toNat = 1 ∨ s.nch.toNat = 2) :
    (modeOf s.nch).channels = s.nch.toNat := by
  unfold modeOf
  rcases h with h | h <;> simp [h, Mode.channels]

theorem modeOf_mono (s : State) (h : s.nch.toNat = 1) : modeOf s.nch = .mono := by simp [modeOf, h]

theorem modeOf_stereo (s : State) (h : s.nch.toNat = 2) : modeOf s.nch = .stereo := by simp [modeOf, h]

/-- Some reserved byte of the preamble units at an offset is not zero (42_block_framer R165). -/
def ReservedAt (s : State) (a : Nat) : Prop :=
  s.imemByte (a + 3) ≠ 0 ∨ (s.nch.toNat = 2 ∧ s.imemByte (a + 7) ≠ 0)

/-- The units at an offset have a reserved byte that is not zero exactly where `ReservedAt` says. -/
theorem unitsAt_reserved (s : State) (a : Nat) (h : s.nch.toNat = 1 ∨ s.nch.toNat = 2) :
    (unitsAt s (modeOf s.nch) a).allReservedZero = false ↔ ReservedAt s a := by
  rcases h with h | h
  · rw [modeOf_mono s h]
    simp [unitsAt, PreUnits.allReservedZero, PreUnits.units, preambleAt, ReservedAt, h]
  · rw [modeOf_stereo s h]
    simp [unitsAt, PreUnits.allReservedZero, PreUnits.units, preambleAt, ReservedAt, h]
    tauto

/-- What the decoder's step does at a block boundary of a run, in the order of the tests (42_block_framer R161, R169). -/
theorem boundaryStep_cases (s : State) (hr : s.runState = .run) (hb : s.icur.toNat % s.fsz.toNat = 0)
    (hn : s.nch.toNat = 1 ∨ s.nch.toNat = 2) (hle : s.icur.toNat ≤ s.ilen.toNat) :
    (s.icur.toNat = s.ilen.toNat ∧ decoderStep s = .next (s.finish .endOfInput)) ∨
    (s.icur.toNat < s.ilen.toNat ∧ s.ilen.toNat < s.icur.toNat + 4 * s.nch.toNat ∧
      decoderStep s = .next (s.raise .invalidInput)) ∨
    (s.icur.toNat + 4 * s.nch.toNat ≤ s.ilen.toNat ∧ ReservedAt s s.icur.toNat ∧
      decoderStep s = .next (s.finish .reservedStop)) ∨
    (s.icur.toNat + 4 * s.nch.toNat ≤ s.ilen.toNat ∧ ¬ ReservedAt s s.icur.toNat ∧
      s.ilen.toNat < s.icur.toNat + s.fsz.toNat ∧ decoderStep s = .next (s.raise .invalidInput)) ∨
    (s.icur.toNat + 4 * s.nch.toNat ≤ s.ilen.toNat ∧ ¬ ReservedAt s s.icur.toNat ∧
      s.icur.toNat + s.fsz.toNat ≤ s.ilen.toNat ∧
      decoderStep s = .next
        ((loadPreambles (unitsAt s (modeOf s.nch) s.icur.toNat) s).advanceInput (4 * s.nch.toNat))) := by
  have hf : fetch s = fetchBoundary s := by simp [fetch, State.atBoundary, hb]
  have hd := decoderStep_run s hr
  rw [hf] at hd
  have hch := modeOf_channels s hn
  have hrem : s.remaining = (s.ilen.toNat : Int) - s.icur.toNat := rfl
  by_cases h0 : s.icur.toNat = s.ilen.toNat
  · refine .inl ⟨h0, ?_⟩
    rw [hd, fetchBoundary, if_pos (by omega)]; rfl
  refine .inr ?_
  by_cases h1 : s.ilen.toNat < s.icur.toNat + 4 * s.nch.toNat
  · refine .inl ⟨by omega, h1, ?_⟩
    rw [hd, fetchBoundary, if_neg (by omega), if_pos (by omega)]
  refine .inr ?_
  have hle4 : s.icur.toNat + 4 * s.nch.toNat ≤ s.ilen.toNat := by omega
  have hu : fetchBoundary s = .instr (boundaryInstr (unitsAt s (modeOf s.nch) s.icur.toNat)) := by
    rw [fetchBoundary, if_neg (by omega), if_neg (by omega), fetchUnit_boundary]
    rw [hch]; exact hle4
  rw [hu] at hd
  have hrs := unitsAt_reserved s s.icur.toNat hn
  by_cases h2 : ReservedAt s s.icur.toNat
  · refine .inl ⟨hle4, h2, ?_⟩
    have : boundaryInstr (unitsAt s (modeOf s.nch) s.icur.toNat) = .stop (unitsAt s (modeOf s.nch) s.icur.toNat) := by
      simp [boundaryInstr, hrs.2 h2]
    rw [hd, this]; rfl
  refine .inr ?_
  have hz : (unitsAt s (modeOf s.nch) s.icur.toNat).allReservedZero = true := by
    rw [← Bool.not_eq_false, hrs]; exact h2
  have hp : decoderStep s = execPre (unitsAt s (modeOf s.nch) s.icur.toNat) s := by
    rw [hd, boundaryInstr, if_pos hz]; rfl
  rcases execPre_cases (unitsAt s (modeOf s.nch) s.icur.toNat) s with ⟨h3, e⟩ | ⟨h3, e⟩
  · exact .inl ⟨hle4, h2, by omega, hp.trans e⟩
  · refine .inr ⟨hle4, h2, by omega, ?_⟩
    rw [hp, e, unitsAt_mode, hch]

/-- What the decoder's step does in the sample region in mono (42_block_framer R160; 43_nibble_interleaver R191). -/
theorem monoStep_eq (s : State) (hr : s.runState = .run) (hb : s.icur.toNat % s.fsz.toNat ≠ 0) (hn : s.nch.toNat = 1)
    (hl : s.icur.toNat + 1 ≤ s.ilen.toNat) : decoderStep s = execDb (s.imemByte s.icur.toNat) s := by
  have hf : fetch s = .instr (.db (s.imemByte s.icur.toNat)) := by
    have ha : s.atBoundary = false := by simp [State.atBoundary, hb]
    simp only [fetch, ha, Bool.false_eq_true, if_false, modeOf_mono s hn, unitBytes]
    exact fetchUnit_mono s hl
  rw [decoderStep_run s hr, hf]
  rfl

/-- What the decoder's step does in the sample region in stereo (42_block_framer R160; 43_nibble_interleaver R196). -/
theorem stereoStep_eq (s : State) (hr : s.runState = .run) (hb : s.icur.toNat % s.fsz.toNat ≠ 0) (hn : s.nch.toNat = 2)
    (hl : s.icur.toNat + 8 ≤ s.ilen.toNat) :
    decoderStep s =
      execDg (s.imemByte s.icur.toNat) (s.imemByte (s.icur.toNat + 1)) (s.imemByte (s.icur.toNat + 2))
        (s.imemByte (s.icur.toNat + 3)) (s.imemByte (s.icur.toNat + 4)) (s.imemByte (s.icur.toNat + 5))
        (s.imemByte (s.icur.toNat + 6)) (s.imemByte (s.icur.toNat + 7)) s := by
  have hf := fetchUnit_stereo s hl
  have ha : s.atBoundary = false := by simp [State.atBoundary, hb]
  have he : fetch s = fetchUnit s (.region .stereo) 8 := by
    simp only [fetch, ha, Bool.false_eq_true, if_false, modeOf_stereo s hn, unitBytes]
  rw [decoderStep_run s hr, he, hf]
  generalize s.imemByte s.icur.toNat = g0
  generalize s.imemByte (s.icur.toNat + 1) = g1
  generalize s.imemByte (s.icur.toNat + 2) = g2
  generalize s.imemByte (s.icur.toNat + 3) = g3
  generalize s.imemByte (s.icur.toNat + 4) = g4
  generalize s.imemByte (s.icur.toNat + 5) = g5
  generalize s.imemByte (s.icur.toNat + 6) = g6
  generalize s.imemByte (s.icur.toNat + 7) = g7
  simp only [exec]

/-- Everything the decoder's step can do in a run, in every state, reached or not: it goes on, moving registers, cursors
and output alone, or it ends the run at a block boundary, changing the status alone (60_exceptions R250). -/
theorem decoderStep_cases (s t : State) (hr : s.runState = .run) (h : decoderStep s = .next t) :
    (t = { s with ch0 := t.ch0, ch1 := t.ch1, icur := t.icur, olen := t.olen, omem := t.omem }) ∨
    (s.icur.toNat % s.fsz.toNat = 0 ∧
      ((s.icur = s.ilen ∧ t = s.finish .endOfInput) ∨
       (s.icur.toNat + 4 * s.nch.toNat ≤ s.ilen.toNat ∧ t = s.finish .reservedStop) ∨
       t = s.raise .invalidInput)) := by
  have inj : ∀ a b : State, (Host.Outcome.next a : Host.Outcome State Fault Refusal) = .next b → b = a := by
    intro a b h; cases h; rfl
  rw [decoderStep_run s hr] at h
  unfold fetch at h
  by_cases hb : s.icur.toNat % s.fsz.toNat = 0
  · have ha : s.atBoundary = true := by simp [State.atBoundary, hb]
    rw [if_pos ha] at h
    unfold fetchBoundary at h
    have hrem : s.remaining = (s.ilen.toNat : Int) - s.icur.toNat := rfl
    by_cases h0 : s.remaining = 0
    · rw [if_pos h0] at h
      exact .inr ⟨hb, .inl ⟨BitVec.eq_of_toNat_eq (by omega), inj _ _ h⟩⟩
    rw [if_neg h0] at h
    by_cases h1 : s.remaining < 4 * s.nch.toNat
    · rw [if_pos h1] at h
      exact .inr ⟨hb, .inr (.inr (inj _ _ h))⟩
    rw [if_neg h1] at h
    unfold fetchUnit at h
    simp only [decode] at h
    generalize decodePreUnits (modeOf s.nch) (s.readInput s.icur.toNat (4 * (modeOf s.nch).channels)) = d at h
    cases d with
    | none => simp at h
    | some p =>
      obtain ⟨u, rest⟩ := p
      simp only at h
      rcases boundaryInstr_cases u with ⟨_, e⟩ | ⟨_, e⟩
      · rw [e] at h
        have h' : execPre u s = .next t := h
        rcases execPre_cases u s with ⟨_, e2⟩ | ⟨_, e2⟩
        · rw [e2] at h'; exact .inr ⟨hb, .inr (.inr (inj _ _ h'))⟩
        · rw [e2] at h'; left; rw [inj _ _ h']; ext1 <;> simp
      · rw [e] at h
        exact .inr ⟨hb, .inr (.inl ⟨by omega, inj _ _ h⟩)⟩
  · have ha : s.atBoundary = false := by simp [State.atBoundary, hb]
    rw [ha] at h
    left
    unfold fetchUnit at h
    simp only [Bool.false_eq_true, if_false, decode] at h
    generalize s.readInput s.icur.toNat (unitBytes (modeOf s.nch)) = bs at h
    cases hd : decodeData (modeOf s.nch) bs with
    | none => rw [hd] at h; simp at h
    | some p =>
      obtain ⟨i, rest⟩ := p
      rw [hd] at h
      simp only at h
      unfold decodeData at hd
      split at hd
      · cases hd
        obtain ⟨t', e, hfr, _⟩ := execDb_frame ‹_› s
        have h' : execDb _ s = .next t := h
        rw [e] at h'; rw [inj _ _ h', hfr]
      · cases hd
        rename_i g0 g1 g2 g3 g4 g5 g6 g7 _
        obtain ⟨t', e, hfr, _⟩ := execDg_frame g0 g1 g2 g3 g4 g5 g6 g7 s
        simp only [exec] at h
        rw [e] at h; rw [inj _ _ h, hfr]
      · cases hd

/-! ### How far a data step can reach -/

/-- Inside a block of a run, the rest of the block is present and the cursor stands between its preamble and its end. -/
theorem region_bounds (s : State) (h : RunInvariant s) (hb : s.icur.toNat % s.fsz.toNat ≠ 0) :
    4 * s.nch.toNat ≤ s.icur.toNat % s.fsz.toNat ∧ s.icur.toNat % s.fsz.toNat < s.fsz.toNat ∧
    s.icur.toNat = s.icur.toNat / s.fsz.toNat * s.fsz.toNat + s.icur.toNat % s.fsz.toNat ∧
    s.icur.toNat / s.fsz.toNat * s.fsz.toNat + s.fsz.toNat ≤ s.ilen.toNat ∧
    (s.nch.toNat = 2 → s.icur.toNat % s.fsz.toNat + 8 ≤ s.fsz.toNat) := by
  obtain ⟨⟨hn, hf, h8, -⟩, -, hblk, -⟩ := h
  obtain ⟨hend, hlo, hmod, -⟩ := hblk hb
  have hlt : s.icur.toNat % s.fsz.toNat < s.fsz.toNat := Nat.mod_lt _ (by omega)
  refine ⟨hlo, hlt, ?_, ?_, ?_⟩
  · rw [Nat.mul_comm]; exact (Nat.div_add_mod _ _).symm
  · rw [Nat.add_mul, Nat.one_mul] at hend; exact hend
  · intro h2
    have h1 := h8 h2
    have h3 := hmod h2
    omega

/-- The data bytes before the cursor are no more than the bytes before it (20_memory R67). -/
theorem dataBytesBefore_le (s : State) : dataBytesBefore s ≤ s.icur.toNat := by
  unfold dataBytesBefore
  have h1 : s.icur.toNat / s.fsz.toNat * (s.fsz.toNat - 4 * s.nch.toNat) ≤ s.icur.toNat / s.fsz.toNat * s.fsz.toNat :=
    Nat.mul_le_mul_left _ (Nat.sub_le _ _)
  have h2 := Nat.div_add_mod s.icur.toNat s.fsz.toNat
  rw [Nat.mul_comm] at h2
  omega

/-- `OLEN` in a run is at most four times the bytes before the cursor (20_memory R67). -/
theorem olen_le (s : State) (h : RunInvariant s) : s.olen.toNat ≤ 4 * s.icur.toNat := by
  have := h.2.2.2
  have := dataBytesBefore_le s
  omega

/-- A data step of `d` bytes that stays in the block's sample region keeps the run invariant: the block it leaves and
the one it may reach. -/
theorem runInvariant_data (s t : State) (d : Nat) (h : RunInvariant s) (hb : s.icur.toNat % s.fsz.toNat ≠ 0)
    (hd : 0 < d) (hfit : s.icur.toNat % s.fsz.toNat + d ≤ s.fsz.toNat) (hd8 : s.nch.toNat = 2 → d = 8)
    (hnch : t.nch = s.nch) (hfsz : t.fsz = s.fsz) (hilen : t.ilen = s.ilen)
    (hicur : t.icur.toNat = s.icur.toNat + d) (holen : t.olen.toNat = s.olen.toNat + 4 * d)
    (hch : ∀ c : Channel, c.num < s.nch.toNat → (s.chan c).loaded = true → (t.chan c).loaded = true) :
    RunInvariant t := by
  obtain ⟨hlo, hlt, heq, hend, h2⟩ := region_bounds s h hb
  obtain ⟨hlegal, hle, hblk, ho⟩ := h
  obtain ⟨-, -, hmod, hload⟩ := hblk hb
  have hdata : dataBytesBefore s = s.icur.toNat / s.fsz.toNat * (s.fsz.toNat - 4 * s.nch.toNat) +
    (s.icur.toNat % s.fsz.toNat - 4 * s.nch.toNat) := rfl
  generalize hk : s.icur.toNat / s.fsz.toNat = k at heq hend hdata
  generalize hr : s.icur.toNat % s.fsz.toNat = r at hlo hlt heq h2 hmod hfit hdata hb
  have hlegal' : LegalConfig t := by unfold LegalConfig at hlegal ⊢; rw [hnch, hfsz, hilen]; exact hlegal
  refine ⟨hlegal', by rw [hicur, hilen]; omega, ?_, ?_⟩
  · intro hne
    rw [hfsz] at hne ⊢
    by_cases hw : r + d = s.fsz.toNat
    · exfalso; apply hne
      rw [hicur, heq]
      have : k * s.fsz.toNat + r + d = s.fsz.toNat * (k + 1) := by rw [Nat.mul_add, Nat.mul_comm]; omega
      rw [this, Nat.mul_mod_right]
    · obtain ⟨e1, e2⟩ := divMod_of_eq s.fsz.toNat k (r + d) t.icur.toNat (by omega) (by omega)
      rw [e1, e2, hnch, hilen]
      refine ⟨by rw [Nat.add_mul, Nat.one_mul]; exact hend, by omega, ?_, fun c hc => hch c hc (hload c hc)⟩
      intro h22
      have := hmod h22
      have := hd8 h22
      omega
  · unfold dataBytesBefore
    rw [hfsz, hnch, holen, ho, hdata]
    by_cases hw : r + d = s.fsz.toNat
    · obtain ⟨e1, e2⟩ := divMod_of_eq s.fsz.toNat (k + 1) 0 t.icur.toNat (by omega)
        (by rw [Nat.add_mul, Nat.one_mul]; omega)
      rw [e1, e2, Nat.add_mul, Nat.one_mul]
      omega
    · obtain ⟨e1, e2⟩ := divMod_of_eq s.fsz.toNat k (r + d) t.icur.toNat (by omega) (by omega)
      rw [e1, e2]
      omega

/-- A preamble load keeps the run invariant. -/
theorem runInvariant_load (s t : State) (h : RunInvariant s) (hb : s.icur.toNat % s.fsz.toNat = 0)
    (hfit : s.icur.toNat + s.fsz.toNat ≤ s.ilen.toNat) (hnch : t.nch = s.nch) (hfsz : t.fsz = s.fsz)
    (hilen : t.ilen = s.ilen) (hicur : t.icur.toNat = s.icur.toNat + 4 * s.nch.toNat) (holen : t.olen = s.olen)
    (hch : ∀ c : Channel, c.num < s.nch.toNat → (t.chan c).loaded = true) : RunInvariant t := by
  obtain ⟨hlegal, hle, hblk, ho⟩ := h
  have hdata : dataBytesBefore s = s.icur.toNat / s.fsz.toNat * (s.fsz.toNat - 4 * s.nch.toNat) +
    (s.icur.toNat % s.fsz.toNat - 4 * s.nch.toNat) := rfl
  have heq := Nat.div_add_mod s.icur.toNat s.fsz.toNat
  rw [Nat.mul_comm] at heq
  rw [hb] at heq hdata
  obtain ⟨hn, hf, h8, hil⟩ := hlegal
  generalize hk : s.icur.toNat / s.fsz.toNat = k at heq hdata
  refine ⟨?_, by rw [hicur, hilen]; omega, ?_, ?_⟩
  · unfold LegalConfig; rw [hnch, hfsz, hilen]; exact ⟨hn, hf, h8, hil⟩
  · intro hne
    rw [hfsz] at hne ⊢
    by_cases hw : 4 * s.nch.toNat = s.fsz.toNat
    · exfalso; apply hne
      rw [hicur, hw, ← heq]
      have : k * s.fsz.toNat + 0 + s.fsz.toNat = s.fsz.toNat * (k + 1) := by rw [Nat.mul_add, Nat.mul_comm]; omega
      rw [this, Nat.mul_mod_right]
    · obtain ⟨e1, e2⟩ := divMod_of_eq s.fsz.toNat k (4 * s.nch.toNat) t.icur.toNat (by omega) (by omega)
      rw [e1, e2, hnch, hilen]
      refine ⟨by rw [Nat.add_mul, Nat.one_mul]; omega, by omega, fun _ => by omega, hch⟩
  · unfold dataBytesBefore
    rw [hfsz, hnch, holen, ho, hdata]
    by_cases hw : 4 * s.nch.toNat = s.fsz.toNat
    · have hz : s.fsz.toNat - 4 * s.nch.toNat = 0 := by omega
      obtain ⟨e1, e2⟩ := divMod_of_eq s.fsz.toNat (k + 1) 0 t.icur.toNat (by omega)
        (by rw [Nat.add_mul, Nat.one_mul]; omega)
      rw [e1, e2, hz]
      omega
    · obtain ⟨e1, e2⟩ := divMod_of_eq s.fsz.toNat k (4 * s.nch.toNat) t.icur.toNat (by omega) (by omega)
      rw [e1, e2]
      omega

/-- The registers a preamble load leaves (42_block_framer R166). -/
theorem chan_loadPreambles (u : PreUnits) (s : State) (c : Channel) :
    (loadPreambles u s).chan c =
      match u.units[c.num]? with
      | some p => initialChannel s.cfg p
      | none => s.chan c := by
  cases u <;> cases c <;> rfl

/-! ### Many steps -/

theorem run_zero (s : State) : Host.Core.run Sys2Proof.core 0 s = .next s := rfl

/-- One step, then the others. -/
theorem run_succ (k : Nat) (s t : State) (h : step s = .next t) :
    Host.Core.run Sys2Proof.core (k + 1) s = Host.Core.run Sys2Proof.core k t := by
  have hs : Sys2Proof.core.step s = .next t := h
  simp only [Host.Core.run, hs]

/-- A run of steps that reaches a state took a first step. -/
theorem run_succ_next (k : Nat) (s t : State) (h : Host.Core.run Sys2Proof.core (k + 1) s = .next t) :
    ∃ u, step s = .next u ∧ Host.Core.run Sys2Proof.core k u = .next t := by
  cases e : step s with
  | next u => exact ⟨u, rfl, (run_succ k s u e).symm.trans h⟩
  | fault f =>
    have hs : Sys2Proof.core.step s = .fault f := e
    simp [Host.Core.run, hs] at h
  | refused r =>
    have hs : Sys2Proof.core.step s = .refused r := e
    simp [Host.Core.run, hs] at h

/-- Steps one after another. -/
theorem run_add (j k : Nat) (s t : State) (h : Host.Core.run Sys2Proof.core j s = .next t) :
    Host.Core.run Sys2Proof.core (j + k) s = Host.Core.run Sys2Proof.core k t := by
  induction j generalizing s with
  | zero => rw [run_zero] at h; cases h; rw [Nat.zero_add]
  | succ j ih =>
    obtain ⟨u, hu, hr⟩ := run_succ_next j s t h
    have e : j + 1 + k = j + k + 1 := by omega
    rw [e]
    exact (run_succ _ _ _ hu).trans (ih u hr)

end Sys2Proof.Machine
end

