-- ==== Sys2Proof/Laws/Placement.lean ====
section
/-! SUPPORT. What placing bytes in `IMEM` leaves there. -/

namespace Sys2Proof.Machine

/-- Loading bytes changes `IMEM` alone. -/
theorem imemLoad_frame (bs : List Byte) (s : State) (a : Word) :
    s.imemLoad a bs = { s with imem := (s.imemLoad a bs).imem } := by
  induction bs generalizing s a with
  | nil => rfl
  | cons b bs ih => rw [State.imemLoad, ih]; rfl

/-- A byte before the loaded ones stays. -/
theorem imemByte_imemLoad_before (bs : List Byte) (s : State) (a : Word) (k : Nat) (hk : k < a.toNat)
    (hfit : a.toNat + bs.length ≤ 2 ^ 32) : (s.imemLoad a bs).imemByte k = s.imemByte k := by
  induction bs generalizing s a with
  | nil => rfl
  | cons b bs ih =>
    rw [List.length_cons] at hfit
    rw [State.imemLoad]
    by_cases hb : bs = []
    · subst hb
      rw [State.imemLoad, imemByte_imemWrite, if_neg (by omega)]
    · have hp : 0 < bs.length := List.length_pos_of_ne_nil hb
      have e : (a + 1).toNat = a.toNat + 1 := by
        have := add_ofNat_toNat a 1
        rw [Nat.mod_eq_of_lt (by omega)] at this
        exact this
      rw [ih _ _ (by omega) (by omega), imemByte_imemWrite, if_neg (by omega)]

/-- A byte after the loaded ones stays. -/
theorem imemByte_imemLoad_after (bs : List Byte) (s : State) (a : Word) (k : Nat) (hk : a.toNat + bs.length ≤ k)
    (hfit : a.toNat + bs.length ≤ 2 ^ 32) : (s.imemLoad a bs).imemByte k = s.imemByte k := by
  induction bs generalizing s a with
  | nil => rfl
  | cons b bs ih =>
    rw [List.length_cons] at hk hfit
    rw [State.imemLoad]
    by_cases hb : bs = []
    · subst hb
      rw [State.imemLoad, imemByte_imemWrite, if_neg (by omega)]
    · have hp : 0 < bs.length := List.length_pos_of_ne_nil hb
      have e : (a + 1).toNat = a.toNat + 1 := by
        have := add_ofNat_toNat a 1
        rw [Nat.mod_eq_of_lt (by omega)] at this
        exact this
      rw [ih _ _ (by omega) (by omega), imemByte_imemWrite, if_neg (by omega)]

/-- The loaded bytes, in order. -/
theorem imemByte_imemLoad (bs : List Byte) (s : State) (a : Word) (j : Nat) (hj : j < bs.length)
    (hfit : a.toNat + bs.length ≤ 2 ^ 32) : some ((s.imemLoad a bs).imemByte (a.toNat + j)) = bs[j]? := by
  induction bs generalizing s a j with
  | nil => simp at hj
  | cons b bs ih =>
    rw [List.length_cons] at hfit hj
    rw [State.imemLoad]
    by_cases hb : bs = []
    · subst hb
      have : j = 0 := by simpa using hj
      subst this
      rw [State.imemLoad, imemByte_imemWrite, if_pos (by omega)]
      rfl
    · have hp : 0 < bs.length := List.length_pos_of_ne_nil hb
      have e : (a + 1).toNat = a.toNat + 1 := by
        have := add_ofNat_toNat a 1
        rw [Nat.mod_eq_of_lt (by omega)] at this
        exact this
      cases j with
      | zero =>
        rw [imemByte_imemLoad_before _ _ _ _ (by omega) (by omega), imemByte_imemWrite, if_pos (by omega)]
        rfl
      | succ j =>
        have := ih (s.imemWrite a b) (a + 1) j (by omega) (by omega)
        rw [e] at this
        rw [show a.toNat + (j + 1) = a.toNat + 1 + j by omega, this]
        rfl

/-- A whole loaded unit is what the decoder reads at its offset. -/
theorem readInput_imemLoad (bs : List Byte) (s t : State) (a : Word) (hi : t.imem = (s.imemLoad a bs).imem)
    (hl : a.toNat + bs.length ≤ t.ilen.toNat) : t.readInput a.toNat bs.length = bs := by
  have hlt := t.ilen.isLt
  rw [readInput_eq _ _ _ hl]
  apply List.ext_getElem?
  intro j
  by_cases hj : j < bs.length
  · rw [← imemByte_imemLoad bs s a j hj (by omega)]
    simp only [List.getElem?_map, List.getElem?_range hj, Option.map_some]
    rw [imemByte_congr _ _ hi]
  · rw [List.getElem?_eq_none (by simpa using hj), List.getElem?_eq_none (by omega)]

/-- A placed run has the decoder's turn next, with the moves that were pending after it. -/
theorem inRun_turn (s : State) (nch fsz : Half) (a : Word) (bs : List Byte) :
    DecoderTurn (s.inRun nch fsz a bs) ∧ (s.inRun nch fsz a bs).inputs.tail = s.inputs := by
  have hi : (s.inRun nch fsz a bs).inputs = if s.inputs = [] then [] else .decoder :: s.inputs := by
    have := congrArg State.inputs (imemLoad_frame bs s a)
    show (if (s.imemLoad a bs).inputs = [] then [] else Input.decoder :: (s.imemLoad a bs).inputs) = _
    rw [this]
  by_cases h : s.inputs = []
  · rw [if_pos h] at hi
    exact ⟨.inl hi, by rw [hi, h]; rfl⟩
  · rw [if_neg h] at hi
    exact ⟨.inr ⟨_, hi⟩, by rw [hi]; rfl⟩

/-- How many bytes a table word has. -/
theorem tableBytes_length (nbits w : Nat) : (tableBytes nbits w).length = (nbits + 7) / 8 := by simp [tableBytes]

end Sys2Proof.Machine
end

