-- ==== Sys2Proof/Tests/Slice0.lean ====
section
/-! SUPPORT. The model's own tests: ill-formed terms, words written out from the spec's encodings, the spec's worked
examples, and for every obligation with hypotheses a concrete case that meets them. -/

namespace Sys2Proof.Tests

open Sys2Proof.Machine

/-! ### Helpers -/

/-- The next state, where the outcome is one. -/
def after : Host.Outcome State Fault Refusal → Option State
  | .next t => some t
  | .fault _ => none
  | .refused _ => none

/-- What a computed next state shows of the outcome. -/
theorem next_of_map {α : Type} (f : State → α) (o : Host.Outcome State Fault Refusal) (a : α)
    (h : (after o).map f = some a) : ∃ t, o = .next t ∧ f t = a := by
  cases o with
  | next t => exact ⟨t, rfl, Option.some.inj h⟩
  | fault _ => cases h
  | refused _ => cases h

/-- The reset state with a predictor and an index in channel 0. -/
def withChan (p : Int) (i : Fin 89) : State := { State.reset with ch0 := ⟨BitVec.ofInt 16 p, i, true⟩ }

/-- Predictor and index of channel 0 after an outcome. -/
def sampleOf (o : Host.Outcome State Fault Refusal) : Option (Int × Nat) :=
  (after o).map fun t => (t.ch0.pred.toInt, t.ch0.idx.val)

/-- A run in progress on these bytes, which stand in `IMEM` from offset 0. -/
def runAt (nch fsz : Half) (at_ ilen : Word) (bs : List Byte) : State :=
  { State.reset.imemLoad 0 bs with runState := .run, nch := nch, fsz := fsz, icur := at_, ilen := ilen }

/-- Status and cursors. -/
def shown (t : State) : RunState × Cause × Word × Word := (t.runState, t.cause, t.icur, t.olen)

/-- The first `n` output bytes. -/
def output (n : Nat) (t : State) : List Byte := t.outputBytes 0 n

/-- A run at offset 0 of a legal configuration has just begun. -/
theorem justStarted_runAt (nch fsz : Half) (ilen : Word) (bs : List Byte) (hc : configLegal nch fsz ilen = true)
    (hw : Memory.wf (runAt nch fsz 0 ilen bs).imem) : JustStarted (runAt nch fsz 0 ilen bs) := by
  have hf := imemLoad_frame bs State.reset 0
  have ho : (runAt nch fsz 0 ilen bs).olen = 0 := congrArg State.olen hf
  have hcfg : LegalConfig (runAt nch fsz 0 ilen bs) := (configLegal_iff (runAt nch fsz 0 ilen bs)).1 hc
  have hca : (runAt nch fsz 0 ilen bs).cause = .noCause := congrArg State.cause hf
  have hom : (runAt nch fsz 0 ilen bs).omem = [] := congrArg State.omem hf
  have hin : (runAt nch fsz 0 ilen bs).inputs = [] := congrArg State.inputs hf
  have hi : (runAt nch fsz 0 ilen bs).icur.toNat = 0 := rfl
  refine ⟨⟨hw, by rw [hom]; exact Memory.wf_nil, hca, by rw [ho]; rfl, fun _ => ⟨hcfg, by rw [hi]; omega, ?_, ?_⟩⟩, rfl, rfl, ho, hin⟩
  · intro h; rw [hi, Nat.zero_mod] at h; exact absurd rfl h
  · rw [ho, dataBytesBefore, hi]; simp

/-! ### Ill-formed terms: the two checks of `Instr.wf` refuse -/

theorem smoke_pre_reserved_left : (Instr.pre (.mono ⟨0x64, 0x00, 0x00, 0x01⟩)).wf = false := by decide
theorem smoke_pre_reserved_right :
    (Instr.pre (.stereo ⟨0x64, 0x00, 0x00, 0x00⟩ ⟨0x9C, 0xFF, 0x00, 0x01⟩)).wf = false := by decide
theorem smoke_stop_no_reserved : (Instr.stop (.mono ⟨0x64, 0x00, 0x00, 0x00⟩)).wf = false := by decide
theorem smoke_wf_pre : (Instr.pre (.mono ⟨0x64, 0x00, 0x00, 0x00⟩)).wf = true := by decide

/-! ### Words written out bit by bit from the spec's encodings (30_encoding R82, R83, R88, R89, R91; 44_host_commands R210) -/

theorem test_decode_nibbles :
    [decode (.lane .ch0) [0b00000000], decode (.lane .ch0) [0b00000001], decode (.lane .ch0) [0b00000010],
     decode (.lane .ch0) [0b00000011], decode (.lane .ch0) [0b00000100], decode (.lane .ch0) [0b00000101],
     decode (.lane .ch0) [0b00000110], decode (.lane .ch0) [0b00000111], decode (.lane .ch1) [0b00001000],
     decode (.lane .ch1) [0b00001001], decode (.lane .ch1) [0b00001010], decode (.lane .ch1) [0b00001011],
     decode (.lane .ch1) [0b00001100], decode (.lane .ch1) [0b00001101], decode (.lane .ch1) [0b00001110],
     decode (.lane .ch1) [0b00001111]] =
    [Instr.n0 .ch0, .n1 .ch0, .n2 .ch0, .n3 .ch0, .n4 .ch0, .n5 .ch0, .n6 .ch0, .n7 .ch0,
     .n8 .ch1, .n9 .ch1, .nA .ch1, .nB .ch1, .nC .ch1, .nD .ch1, .nE .ch1, .nF .ch1].map (Decoded.instr · []) := by decide

/-- The first preamble of program P3 (95_test_vectors), then its data byte left over. -/
theorem test_decode_pre :
    decode (.boundary .mono) [0b11101000, 0b00000011, 0b00101100, 0b00000000, 0x7F] =
      .instr (.pre (.mono ⟨0xE8, 0x03, 0x2C, 0x00⟩)) [0x7F] := by decide

/-- The preambles of program P8: the right channel's reserved byte is 1. -/
theorem test_decode_stop :
    decode (.boundary .stereo) [0x64, 0x00, 0x00, 0b00000000, 0x9C, 0xFF, 0x00, 0b00000001] =
      .instr (.stop (.stereo ⟨0x64, 0x00, 0x00, 0x00⟩ ⟨0x9C, 0xFF, 0x00, 0x01⟩)) [] := by decide

theorem test_decode_db : decode (.region .mono) [0b01110100] = .instr (.db 0b01110100) [] := by decide

/-- The group of program P2. -/
theorem test_decode_dg :
    decode (.region .stereo) [0x10, 0x32, 0x54, 0x76, 0x98, 0xBA, 0xDC, 0xFE] =
      .instr (.dg 0x10 0x32 0x54 0x76 0x98 0xBA 0xDC 0xFE) [] := by decide

theorem test_decode_end : decode .finished [] = .instr .endInput [] := by decide

/-- `CTRL` values: START with ignored bits set, both bits set, RESET alone, neither bit. -/
theorem test_decode_ctrl :
    decode .ctrl [0b00000101, 0x00, 0x00, 0x80] = .instr (.start 0x20000001) [] ∧
    decode .ctrl [0b00000011, 0x00, 0x00, 0x00] = .instr (.reset 0 true) [] ∧
    decode .ctrl [0b00000010, 0x00, 0x00, 0x00] = .instr (.reset 0 false) [] ∧
    decode .ctrl [0b00000100, 0x00, 0x00, 0x00] = .reject .noCommand := by decide

/-- Too few bytes for the unit, and more than four bits given as a nibble. -/
theorem test_decode_rejects :
    decode (.boundary .mono) [0x00, 0x00, 0x00] = .reject .tooShort ∧
    decode (.region .stereo) [0, 1, 2, 3, 4, 5, 6] = .reject .tooShort ∧
    decode (.lane .ch0) [0x10] = .reject .nibbleTooWide := by decide

/-- Rows of opcode_table.json, as bits and value, with the instruction each is. -/
def tableRows : List (Nat × Nat × Instr) :=
  [(8, 0x0, .n0 .ch0), (8, 0x1, .n1 .ch0), (8, 0x2, .n2 .ch0), (8, 0x3, .n3 .ch0), (8, 0x4, .n4 .ch0), (8, 0x5, .n5 .ch0),
   (8, 0x6, .n6 .ch0), (8, 0x7, .n7 .ch0), (8, 0x8, .n8 .ch0), (8, 0x9, .n9 .ch0), (8, 0xA, .nA .ch0), (8, 0xB, .nB .ch0)] ++
  [(8, 0xC, .nC .ch0), (8, 0xD, .nD .ch0), (8, 0xE, .nE .ch0), (8, 0xF, .nF .ch0),
   (32, 0x002C03E8, .pre (.mono ⟨0xE8, 0x03, 0x2C, 0x00⟩)), (32, 0x01201234, .stop (.mono ⟨0x34, 0x12, 0x20, 0x01⟩)),
   (8, 0x74, .db 0x74), (64, 0xFEDCBA9876543210, .dg 0x10 0x32 0x54 0x76 0x98 0xBA 0xDC 0xFE),
   (0, 0, .endInput), (32, 1, .start 0), (32, 2, .reset 0 false)]

theorem test_table_rows : ∀ r ∈ tableRows, decodeTableWord r.1 r.2.1 = some r.2.2 := by decide

/-- A placed row is what the very next step after reset runs, and it gives a next state. -/
theorem test_placed_rows : ∀ r ∈ tableRows, (after (step (State.reset.withFetchWord r.1 r.2.1))).isSome = true := by decide

/-- A nibble placed in the middle of a run leaves the run first (log 8). -/
theorem test_placed_nibble_in_run :
    (after (step ((runAt 1 8 0 8 []).withFetchWord 8 0x7))).map (fun t => (t.runState, t.ch0)) =
      some (.idle, ⟨11, 8, true⟩) := by decide

/-- A placed data byte: the step is `DB` at offset 4, from the registers after reset (43_nibble_interleaver R191). -/
theorem test_placed_db :
    (after (step (State.reset.withFetchWord 8 0x74))).map (fun t => (shown t, output 4 t)) =
      some ((.run, .noCause, 5, 4), [0x07, 0x00, 0x17, 0x00]) := by decide

/-! ### The sixteen codes (the worked examples of 41_sample_decoder R130 to R145) -/

theorem test_n0 : sampleOf (exec (.n0 .ch0) (withChan 1000 44)) = some (1061, 43) := by decide
theorem test_n1 : sampleOf (exec (.n1 .ch0) (withChan (-5) 0)) = some (-4, 0) := by decide
theorem test_n2 : sampleOf (exec (.n2 .ch0) (withChan 1000 44)) = some (1308, 43) := by decide
theorem test_n3 : sampleOf (exec (.n3 .ch0) (withChan 1000 44)) = some (1431, 43) := by decide
theorem test_n4 : sampleOf (exec (.n4 .ch0) (withChan 30000 88)) = some (32767, 88) := by decide
theorem test_n5 : sampleOf (exec (.n5 .ch0) (withChan 1000 44)) = some (1678, 48) := by decide
theorem test_n6 : sampleOf (exec (.n6 .ch0) (withChan (-5) 0)) = some (5, 6) := by decide
theorem test_n7 : sampleOf (exec (.n7 .ch0) (withChan 1000 44)) = some (1925, 52) := by decide
theorem test_n8 : sampleOf (exec (.n8 .ch0) (withChan (-30000) 88)) = some (-32768, 87) := by decide
theorem test_n9 : sampleOf (exec (.n9 .ch0) (withChan 1000 44)) = some (816, 43) := by decide
theorem test_nA : sampleOf (exec (.nA .ch0) (withChan (-5) 0)) = some (-8, 0) := by decide
theorem test_nB : sampleOf (exec (.nB .ch0) (withChan 1000 44)) = some (569, 43) := by decide
theorem test_nC : sampleOf (exec (.nC .ch0) (withChan 1000 44)) = some (445, 46) := by decide
theorem test_nD : sampleOf (exec (.nD .ch0) (withChan (-5) 0)) = some (-13, 4) := by decide
theorem test_nE : sampleOf (exec (.nE .ch0) (withChan 1000 44)) = some (198, 50) := by decide
theorem test_nF : sampleOf (exec (.nF .ch0) (withChan 1000 44)) = some (75, 52) := by decide

/-- The mask of 41_sample_decoder R122 shows at a table entry of 65535 (95_test_vectors V3): code 7 gives the magnitude 57340. -/
theorem test_mask : (magnitude 65535 7).toNat = 57340 := by decide

/-! ### The stream units -/

/-- Program P2's preamble: both channels loaded, `ICUR` 8. -/
theorem test_pre :
    (after (step (runAt 2 16 0 16 [0x64, 0x00, 0x10, 0x00, 0x9C, 0xFF, 0x10, 0x00]))).map
      (fun t => (shown t, t.ch0, t.ch1)) =
      some ((.run, .noCause, 8, 0), ⟨100, 16, true⟩, ⟨-100, 16, true⟩) := by decide

/-- Program P6's preamble: index byte 200, with the byte read as unsigned and as signed. -/
theorem test_pre_index :
    (after (step (runAt 1 5 0 5 [0x00, 0x00, 0xC8, 0x00, 0x80]))).map (·.ch0.idx) = some 88 ∧
    (after (step { runAt 1 5 0 5 [0x00, 0x00, 0xC8, 0x00, 0x80] with
      cfg := { defaultConfig with idxByteSigned := true } })).map (·.ch0.idx) = some 0 := by decide

/-- Program P8: the right channel's reserved byte alone stops the run; nothing is loaded. -/
theorem test_stop :
    (after (step (runAt 2 16 0 16 [0x64, 0x00, 0x00, 0x00, 0x9C, 0xFF, 0x00, 0x01]))).map
      (fun t => (shown t, t.ch0.loaded, t.ch1.loaded)) =
      some ((.done, .reservedStop, 0, 0), false, false) := by decide

/-- Program P1's second data byte, 0xF3, from predictor 23 and index 10: samples 38 and 7. -/
theorem test_db :
    (after (exec (.db 0xF3) (withChan 23 10))).map (fun t => (t.ch0, output 4 t)) =
      some (⟨7, 17, true⟩, [0x26, 0x00, 0x07, 0x00]) := by decide

/-- Program P2's group: the 32 output bytes and both channels' end values. -/
theorem test_dg :
    (after (exec (.dg 0x10 0x32 0x54 0x76 0x98 0xBA 0xDC 0xFE)
      { State.reset with ch0 := ⟨100, 16, true⟩, ch1 := ⟨-100, 16, true⟩ })).map
      (fun t => (t.olen, t.ch0, t.ch1, output 32 t)) =
      some (32, ⟨417, 32, true⟩, ⟨-417, 32, true⟩,
        [0x68, 0x00, 0x98, 0xFF, 0x72, 0x00, 0x8E, 0xFF, 0x83, 0x00, 0x7D, 0xFF, 0x98, 0x00, 0x68, 0xFF] ++
        [0xB1, 0x00, 0x4F, 0xFF, 0xD7, 0x00, 0x29, 0xFF, 0x19, 0x01, 0xE7, 0xFE, 0xA1, 0x01, 0x5F, 0xFE]) := by decide

/-- 95_test_vectors V5, first row: an empty stream ends at once. -/
theorem test_end : (after (step (runAt 1 8 0 0 []))).map shown = some (.done, .endOfInput, 0, 0) := by decide

/-! ### The host's commands and registers (95_test_vectors V7, P9) -/

theorem test_start_after_reset : (after (exec (.start 0) State.reset)).map shown = some (.fault, .invalidConfig, 0, 0) := by
  decide
theorem test_start_legal :
    (after (exec (.start 0) { State.reset with nch := 1, fsz := 8, ilen := 8, icur := 3, olen := 4 })).map shown =
      some (.run, .noCause, 0, 0) := by decide
theorem test_reset :
    (after (exec (.reset 0 true) (runAt 2 16 8 16 [0x64]))).map (fun t => (shown t, t.nch, t.fsz, t.ilen, t.imemByte 0)) =
      some ((.idle, .noCause, 0, 0), 0, 0, 0, 0x64) := by decide

/-- `STATUS` of `DONE` with `RESERVED_STOP` is 2 + 16 * 2 (10_state R30, R33, R34). -/
theorem test_status :
    (after (step { State.reset with runState := .done, cause := .reservedStop, inputs := [.readReg 1] })).map (·.replies) =
      some [0x22] := by decide

/-- A write of `FSZ` keeps 16 bits outside a run and is ignored in one (10_state R30, R32). -/
theorem test_write_fsz :
    (after (step { State.reset with inputs := [.writeReg 3 0xABCD0100] })).map (·.fsz) = some 0x0100 ∧
    (after (step { runAt 1 8 0 8 [] with inputs := [.writeReg 3 0xABCD0100] })).map (·.fsz) = some 8 := by decide

theorem test_memory_wf_reset : Memory.wf State.reset.imem ∧ Memory.wf State.reset.omem := by decide

/-- A byte written is the byte read, and the list stays sorted whatever the order of the writes. -/
theorem test_memory_order : Memory.set (Memory.set (Memory.set [] 5 1) 2 3) 5 4 = [(2, 3), (5, 4)] := by decide

/-- The default tables: the entries 40_luts R112, R114 print at some places, and the sum of R112. -/
theorem test_tables :
    (defaultStepEntries.map BitVec.toNat).sum = 360393 ∧ (defaultConfig.stepLut.get 88).toNat = 32767 ∧
    (defaultConfig.stepLut.get 44).toNat = 494 ∧ (defaultConfig.adjLut.get 13).toInt = 4 := by decide

/-! ### A case that meets the hypotheses of each obligation that has some

Where a statement has several clauses there is a case for each, at a boundary of its range. -/

/-- The worked examples of R130 to R137: predictor and index of each exist in a state with the default tables. -/
theorem witness_PositiveCodesAddTheirMagnitude :
    ∀ x ∈ [((1000 : Int), (44 : Fin 89)), (30000, 88), (-5, 0)],
      (withChan x.1 x.2).cfg = defaultConfig ∧ ((withChan x.1 x.2).chan .ch0).pred.toInt = x.1 ∧
      ((withChan x.1 x.2).chan .ch0).idx.val = x.2.val := by decide

/-- The worked examples of R138 to R145. -/
theorem witness_NegativeCodesSubtractTheirMagnitude :
    ∀ x ∈ [((1000 : Int), (44 : Fin 89)), (-30000, 88), (-5, 0)],
      (withChan x.1 x.2).cfg = defaultConfig ∧ ((withChan x.1 x.2).chan .ch0).pred.toInt = x.1 ∧
      ((withChan x.1 x.2).chan .ch0).idx.val = x.2.val := by decide

/-- The largest step for which no sum wraps, and the largest plain sum (95_test_vectors V3). -/
theorem witness_MagnitudeIsThePlainSumBelowTheWrap :
    (34952 : Half).toNat ≤ 34952 ∧ 34952 / 8 + 34952 + 34952 / 2 + 34952 / 4 < 65536 ∧
    (magnitude 34952 7).toNat = 65535 := by decide

/-- Both rails at their boundary values. -/
theorem witness_DefaultTableMovesStayInRange :
    ((withChan (-28669) 88).cfg = defaultConfig ∧ ((withChan (-28669) 88).chan .ch0).idx = 88 ∧
      -28669 ≤ ((withChan (-28669) 88).chan .ch0).pred.toInt ∧
      sampleOf (exec (.n7 .ch0) (withChan (-28669) 88)) = some (32767, 88)) ∧
    ((withChan 28668 88).cfg = defaultConfig ∧ ((withChan 28668 88).chan .ch0).idx = 88 ∧
      ((withChan 28668 88).chan .ch0).pred.toInt ≤ 28668 ∧
      sampleOf (exec (.nF .ch0) (withChan 28668 88)) = some (-32768, 88)) := by decide

/-- FJ2's example: the default tables, index 0. -/
theorem witness_CodeZeroAtIndexZeroStays :
    ((withChan 0 0).cfg.stepLut.get 0).toNat / 8 = 0 ∧ ((withChan 0 0).cfg.adjLut.get 0).toInt ≤ 0 ∧
    ((withChan 0 0).chan .ch0).idx = 0 ∧ sampleOf (exec (.n0 .ch0) (withChan 0 0)) = some (0, 0) := by decide

/-- The rows of 95_test_vectors V5 at the boundaries between the clauses: 0, 3, 4 and 7 bytes of an 8-byte block, with and
without the reserved byte, and the whole block; and a stereo block cut short. -/
theorem witness_BoundaryStepTestsInOrder :
    (∀ s ∈ [runAt 1 8 0 0 [], runAt 1 8 0 3 [0, 0, 1], runAt 1 8 0 4 [0, 0, 0, 1], runAt 1 8 0 4 [0, 0, 0, 0],
        runAt 1 8 0 7 [0, 0, 0, 0, 0, 0, 0], runAt 1 8 0 8 [0, 0, 0, 0, 0, 0, 0, 0], runAt 2 16 0 15 [0, 0, 0, 0, 0, 0, 0, 0]],
      s.inputs = [] ∧ s.runState = .run ∧ s.icur.toNat % s.fsz.toNat = 0 ∧ (s.nch.toNat = 1 ∨ s.nch.toNat = 2)) ∧
    (after (step (runAt 1 8 0 0 []))).map shown = some (.done, .endOfInput, 0, 0) ∧
    (after (step (runAt 1 8 0 3 [0, 0, 1]))).map shown = some (.fault, .invalidInput, 0, 0) ∧
    (after (step (runAt 1 8 0 4 [0, 0, 0, 1]))).map shown = some (.done, .reservedStop, 0, 0) ∧
    (after (step (runAt 1 8 0 4 [0, 0, 0, 0]))).map shown = some (.fault, .invalidInput, 0, 0) ∧
    (after (step (runAt 1 8 0 7 [0, 0, 0, 0, 0, 0, 0]))).map shown = some (.fault, .invalidInput, 0, 0) ∧
    (after (step (runAt 1 8 0 8 [0, 0, 0, 0, 0, 0, 0, 0]))).map shown = some (.run, .noCause, 4, 0) ∧
    (after (step (runAt 2 16 0 15 [0, 0, 0, 0, 0, 0, 0, 0]))).map shown = some (.fault, .invalidInput, 0, 0) :=
  ⟨by decide, by decide, by decide, by decide, by decide, by decide, by decide, by decide⟩

/-- The boundary bytes of the three ranges of 30_encoding R86. -/
theorem witness_InitIndexClampsBothReadings :
    (0x58 : Byte).toNat ≤ 0x58 ∧ (0x59 ≤ (0x59 : Byte).toNat ∧ (0x7F : Byte).toNat ≤ 0x7F) ∧ 0x80 ≤ (0x80 : Byte).toNat ∧
    initIndex true 0x58 = 88 ∧ initIndex true 0x59 = 88 ∧ initIndex true 0x7F = 88 ∧ initIndex true 0x80 = 0 ∧
    initIndex false 0x80 = 88 ∧ initIndex true 0xFF = 0 := by decide

/-- A block just present, and one byte short. -/
theorem witness_PreambleLoadsOrFaults :
    ((runAt 1 8 0 8 []).fsz.toNat : Int) ≤ ((runAt 1 8 0 8 []).ilen.toNat : Int) - (runAt 1 8 0 8 []).icur.toNat ∧
    ((runAt 1 8 0 7 []).ilen.toNat : Int) - (runAt 1 8 0 7 []).icur.toNat < (runAt 1 8 0 7 []).fsz.toNat := by decide

/-- The last byte of a mono block, and the worked example of 43_nibble_interleaver R191. -/
theorem witness_MonoDataStep :
    (let s := runAt 1 5 4 5 [0x00, 0x00, 0x00, 0x00, 0x74]
     s.inputs = [] ∧ s.runState = .run ∧ s.icur.toNat % s.fsz.toNat ≠ 0 ∧ s.nch.toNat = 1 ∧ s.icur.toNat < s.ilen.toNat) ∧
    (withChan 0 0).cfg = defaultConfig ∧ (withChan 0 0).ch0.pred = 0 ∧ (withChan 0 0).ch0.idx = 0 ∧
    (after (exec (.db 0x74) (withChan 0 0))).map (fun t => (t.ch0, output 4 t)) =
      some (⟨23, 10, true⟩, [0x07, 0x00, 0x17, 0x00]) := by decide

/-- A stereo block of one group, its group the last of the input. -/
theorem witness_StereoGroupStep :
    (let s := runAt 2 16 8 16 []
     s.inputs = [] ∧ s.runState = .run ∧ s.icur.toNat % s.fsz.toNat ≠ 0 ∧ s.nch.toNat = 2 ∧
       s.icur.toNat + 8 ≤ s.ilen.toNat) := by decide

/-- One of the written values of 20_memory R56, and an offset beside the two bytes. -/
theorem witness_SampleWriteIsLittleEndian :
    ((-100 : Int), (0x9C : Byte), (0xFF : Byte)) ∈
      [((100 : Int), (0x64 : Byte), (0x00 : Byte)), (-100, 0x9C, 0xFF), (-32768, 0x00, 0x80), (32767, 0xFF, 0x7F)] ∧
    (9 : Nat) ≠ (7 : Word).toNat ∧ (9 : Nat) ≠ ((7 : Word) + 1).toNat := by decide

/-- `IDLE` and `DONE`, each with a legal configuration at its boundary, and with one just illegal (95_test_vectors V6). -/
theorem witness_StartBeginsARunOrFaults :
    (∀ r ∈ [RunState.idle, RunState.done],
      (after (exec (.start 0) { State.reset with runState := r, nch := 1, fsz := 4, ilen := 8 })).map (·.runState) = some .run ∧
      (after (exec (.start 0) { State.reset with runState := r, nch := 2, fsz := 12, ilen := 16 })).map (·.runState) =
        some .fault) ∧
    LegalConfig { State.reset with nch := 2, fsz := 16, ilen := 16 } ∧ ¬ LegalConfig State.reset :=
  ⟨by decide, (configLegal_iff { State.reset with nch := 2, fsz := 16, ilen := 16 }).1 (by decide),
    fun h => absurd ((configLegal_iff State.reset).2 h) (by decide)⟩

/-- 95_test_vectors V6, the configurations at a boundary. -/
theorem test_config_legal :
    configLegal 1 4 8 = true ∧ configLegal 2 16 16 = true ∧ configLegal 2 12 16 = false ∧ configLegal 1 3 8 = false ∧
    configLegal 2 7 16 = false ∧ configLegal 3 8 8 = false ∧ configLegal 1 8 0x40000000 = false := by decide

theorem witness_StartIsIgnoredInRunAndFault :
    (runAt 1 8 0 8 []).runState = .run ∧ { State.reset with runState := .fault }.runState = .fault := by decide

/-- The four writes of 95_test_vectors V7, and a read of `CTRL`. -/
theorem witness_CtrlWriteIsACommand :
    ((2 : Word).getLsbD 1 = true ∧ (3 : Word).getLsbD 1 = true) ∧
    ((1 : Word).getLsbD 1 = false ∧ (1 : Word).getLsbD 0 = true) ∧
    ((0 : Word).getLsbD 1 = false ∧ (0 : Word).getLsbD 0 = false) ∧
    (∀ v : Word, { State.reset with inputs := [.writeReg 0 v] }.inputs = .writeReg 0 v :: []) ∧
    { State.reset with inputs := [.readReg 0] }.inputs = .readReg 0 :: [] :=
  ⟨by decide, by decide, by decide, fun _ => rfl, rfl⟩

/-- Every register number of the map and the first beyond it. -/
theorem witness_RegisterReadsFollowTheMap :
    ∀ n ∈ [0, 1, 2, 3, 4, 5, 6, 7], { State.reset with inputs := [.readReg n] }.inputs = .readReg n :: [] := by decide

/-- Every register number but 0, outside a run and in one. -/
theorem witness_RegisterWritesFollowTheMap :
    ∀ n ∈ [1, 2, 3, 4, 5, 6, 7], n ≠ 0 ∧
      { State.reset with inputs := [.writeReg n 5] }.inputs = .writeReg n 5 :: [] ∧ State.reset.runState ≠ .run ∧
      { runAt 1 8 0 8 [] with inputs := [.writeReg n 5] }.inputs = .writeReg n 5 :: [] ∧ (runAt 1 8 0 8 []).runState = .run := by
  decide

theorem witness_HostMemoryMovesOnlyOutsideARun :
    (∀ m ∈ [Input.writeIMem 3 7, .readIMem 3, .readOMem 3],
      { State.reset with inputs := [m] }.inputs = m :: [] ∧ { runAt 1 8 0 8 [] with inputs := [m] }.inputs = m :: []) ∧
    State.reset.runState ≠ .run ∧ (runAt 1 8 0 8 []).runState = .run := by decide

/-- In `FAULT`: a `START` comes next, which is no `RESET`; a `RESET` comes next; the decoder has the turn. -/
theorem witness_FaultIsLeftOnlyByReset :
    (∃ s t : State, step s = .next t ∧ s.runState = .fault ∧ ¬ ResetNext s ∧ StartNext s) ∧
    (∃ s t : State, step s = .next t ∧ s.runState = .fault ∧ ResetNext s) ∧
    ∃ s t : State, step s = .next t ∧ s.runState = .fault ∧ DecoderTurn s := by
  obtain ⟨t, ht, -⟩ := next_of_map State.runState
    (step { State.reset with runState := .fault, cause := .invalidConfig, inputs := [.writeReg 0 1] }) .fault (by decide)
  obtain ⟨u, hu, -⟩ := next_of_map State.runState
    (step { State.reset with runState := .fault, cause := .invalidConfig, inputs := [.writeReg 0 3] }) .idle (by decide)
  obtain ⟨w, hw, -⟩ := next_of_map State.runState
    (step { State.reset with runState := .fault, cause := .invalidConfig }) .fault (by decide)
  refine ⟨⟨_, t, ht, rfl, ?_, 1, [], rfl, by decide, by decide⟩, ⟨_, u, hu, rfl, 3, [], rfl, by decide⟩, ⟨_, w, hw, rfl, .inl rfl⟩⟩
  rintro ⟨v, rest, h, hv⟩
  cases h
  exact absurd hv (by decide)

/-- One step into each of the four run states. -/
theorem witness_RunStateChangesOnlyByRule :
    (∃ s t : State, step s = .next t ∧ s.runState = .fault ∧ t.runState = .idle) ∧
    (∃ s t : State, step s = .next t ∧ s.runState = .done ∧ t.runState = .run) ∧
    (∃ s t : State, step s = .next t ∧ s.runState = .run ∧ t.runState = .done) ∧
    (∃ s t : State, step s = .next t ∧ s.runState = .run ∧ t.runState = .fault) := by
  refine ⟨?_, ?_, ?_, ?_⟩
  · obtain ⟨t, ht, h⟩ := next_of_map State.runState
      (step { State.reset with runState := .fault, inputs := [.writeReg 0 2] }) .idle (by decide)
    exact ⟨_, t, ht, rfl, h⟩
  · obtain ⟨t, ht, h⟩ := next_of_map State.runState
      (step { State.reset with runState := .done, nch := 1, fsz := 4, inputs := [.writeReg 0 1] }) .run (by decide)
    exact ⟨_, t, ht, rfl, h⟩
  · obtain ⟨t, ht, h⟩ := next_of_map State.runState (step (runAt 1 8 0 0 [])) .done (by decide)
    exact ⟨_, t, ht, rfl, h⟩
  · obtain ⟨t, ht, h⟩ := next_of_map State.runState (step (runAt 1 8 0 3 [])) .fault (by decide)
    exact ⟨_, t, ht, rfl, h⟩

/-- A run whose one block is cut short. -/
theorem witness_DecoderFaultIsPrecise :
    ∃ s t : State, Inv s ∧ step s = .next t ∧ s.runState = .run ∧ t.runState = .fault := by
  obtain ⟨t, ht, h⟩ := next_of_map State.runState (step (runAt 1 8 0 4 [0, 0, 0, 0])) .fault (by decide)
  exact ⟨_, t, (justStarted_runAt 1 8 4 [0, 0, 0, 0] (by decide) (by decide)).1, ht, rfl, h⟩

theorem witness_DecoderIsStillOutsideARun :
    ∃ s : State, s.runState ≠ .run ∧ DecoderTurn s := ⟨State.reset, by decide, .inl rfl⟩

/-- The end of input, a preamble, a mono and a stereo data unit, a command, a nibble outside a run and in one. -/
theorem witness_StepRunsTheDecodedInstruction :
    (DecoderTurn (runAt 1 8 0 0 []) ∧ (runAt 1 8 0 0 []).runState = .run ∧
      (runAt 1 8 0 0 []).icur.toNat % (runAt 1 8 0 0 []).fsz.toNat = 0) ∧
    decode (.boundary .mono) ((runAt 1 8 0 8 [1, 2, 3, 0]).readInput 0 4) = .instr (.pre (.mono ⟨1, 2, 3, 0⟩)) [] ∧
    decode (.region .mono) ((runAt 1 8 4 8 [1, 2, 3, 0, 5]).readInput 4 1) = .instr (.db 5) [] ∧
    decode (.region .stereo) ((runAt 2 16 8 16 [0, 0, 0, 0, 0, 0, 0, 0, 1, 2, 3, 4, 5, 6, 7, 8]).readInput 8 8) =
      .instr (.dg 1 2 3 4 5 6 7 8) [] ∧
    decode .ctrl (bytesOfWord 1) = .instr (.start 0) [] ∧
    ({ State.reset with inputs := [.nibble .ch1 7] }.inputs = .nibble .ch1 7 :: [] ∧ State.reset.runState ≠ .run) ∧
    { runAt 1 8 0 8 [] with inputs := [.nibble .ch1 7] }.runState = .run :=
  ⟨⟨.inl (by decide), by decide, by decide⟩, by decide, by decide, by decide, by decide, by decide, by decide⟩

/-- `test_table_rows` gives a word for every constructor; here one. -/
theorem witness_PlacedWordRunsNext : decodeTableWord 32 0x01201234 = some (.stop (.mono ⟨0x34, 0x12, 0x20, 0x01⟩)) := by
  decide

/-- One well-formed instruction of each shape. -/
theorem witness_DecodeOfEncodeIsTheInstruction :
    ∀ i ∈ [Instr.nF .ch1, .pre (.mono ⟨1, 2, 3, 0⟩), .stop (.stereo ⟨1, 2, 3, 0⟩ ⟨4, 5, 6, 7⟩), .db 0xFF,
      .dg 1 2 3 4 5 6 7 8, .endInput, .start 0x3FFFFFFF, .reset 5 false], i.wf = true := by decide

theorem witness_EncodeOfDecodeIsTheBytes :
    decode (.lane .ch0) [0x0B, 0x55] = .instr (.nB .ch0) [0x55] ∧
    decode .ctrl [0x03, 0x00, 0x00, 0x80] = .instr (.reset 0x20000000 true) [] := by decide

/-- As many bytes as the units have, and no more. -/
theorem witness_NoStreamByteIsIllegal :
    4 * Mode.mono.channels ≤ [(0xFF : Byte), 0xFF, 0xFF, 0xFF].length ∧
    4 * Mode.stereo.channels ≤ (List.replicate 8 (0xFF : Byte)).length ∧ 1 ≤ [(0xFF : Byte)].length ∧
    8 ≤ (List.replicate 8 (0xFF : Byte)).length := by decide

/-- From the first state of a run the decoder steps. -/
theorem witness_EveryStepKeepsTheInvariant : ∃ s t : State, Inv s ∧ step s = .next t := by
  obtain ⟨t, ht, -⟩ := next_of_map State.runState (step (runAt 1 5 0 5 [0, 0, 0, 0, 0x74])) .run (by decide)
  exact ⟨_, t, (justStarted_runAt 1 5 5 [0, 0, 0, 0, 0x74] (by decide) (by decide)).1, ht⟩

/-- Host moves from power-on to inside a stereo block: nine bytes that matter are written, the run is begun, and the
decoder takes its first step. -/
theorem witness_ReachableRunsKeepTheBlockInvariant :
    ∃ (moves : List Input) (t : State),
      Host.Core.run Sys2Proof.core 9 { State.reset with cfg := defaultConfig, inputs := moves } = .next t ∧
      t.runState = .run ∧ t.icur.toNat % t.fsz.toNat ≠ 0 ∧ t.nch.toNat = 2 := by
  obtain ⟨t, ht, h⟩ := next_of_map (fun t => (t.runState, decide (t.icur.toNat % t.fsz.toNat ≠ 0), t.nch.toNat))
    (Host.Core.run Sys2Proof.core 9 { State.reset with
      cfg := defaultConfig
      inputs := [.writeIMem 3 0, .writeIMem 7 0, .writeIMem 0 0, .writeReg 2 2, .writeReg 3 16, .writeReg 4 16,
        .readReg 1, .writeReg 0 1] })
    (.run, true, 2) (by decide)
  simp only [Prod.mk.injEq, decide_eq_true_eq] at h
  exact ⟨_, t, ht, h.1, h.2.1, h.2.2⟩

/-- In a run: the host's breach by a write of `IMEM`, and the model's nibble entry. -/
theorem witness_NoReadBeyondTheInput :
    Inv (runAt 1 8 0 8 []) ∧ (∃ s : State, Inv s ∧ step s = .refused .hostBreach) ∧
      ∃ s : State, Inv s ∧ step s = .refused .nibbleInRun := by
  have h := (justStarted_runAt 1 8 8 [] (by decide) (by decide)).1
  exact ⟨h, ⟨{ runAt 1 8 0 8 [] with inputs := [.writeIMem 0 0] }, ⟨h.1, h.2, h.3, h.4, h.5⟩, rfl⟩,
    { runAt 1 8 0 8 [] with inputs := [.nibble .ch0 7] }, ⟨h.1, h.2, h.3, h.4, h.5⟩, rfl⟩

theorem witness_TablesAreNeverWritten :
    ∃ s t : State, step s = .next t ∧ s.runState = .run := by
  obtain ⟨t, ht, -⟩ := next_of_map State.runState (step (runAt 1 5 4 5 [0, 0, 0, 0, 0x74])) .run (by decide)
  exact ⟨_, t, ht, rfl⟩

/-- A host write that changes `IMEM`. -/
theorem witness_InputMemoryIsWrittenByTheHostOnly :
    ∃ s t : State, step s = .next t ∧ t.imem ≠ s.imem := by
  obtain ⟨t, ht, h⟩ := next_of_map State.imem (step { State.reset with inputs := [.writeIMem 3 7] }) [(3, 7)] (by decide)
  exact ⟨_, t, ht, by rw [h]; decide⟩

/-- A run that has taken its first preamble, with a data byte next: the state is given, and the step moves `OLEN` by 4. -/
theorem witness_OutputGrowsOnlyAtItsEnd :
    ∃ s t : State, Inv s ∧ step s = .next t ∧ s.runState = .run ∧ DecoderTurn s ∧ t.olen.toNat = s.olen.toNat + 4 := by
  obtain ⟨t, ht, h⟩ := next_of_map State.olen
    (step { State.reset with
      runState := .run, nch := 1, fsz := 5, ilen := 5, icur := 4, imem := [(4, 0x74)], ch0 := ⟨0, 0, true⟩ }) 4 (by decide)
  have hi : Inv { State.reset with
      runState := .run, nch := 1, fsz := 5, ilen := 5, icur := 4, imem := [(4, 0x74)], ch0 := ⟨0, 0, true⟩ } := by
    refine ⟨by decide, by decide, rfl, rfl, fun _ => ⟨?_, by decide, ?_, rfl⟩⟩
    · exact (configLegal_iff { State.reset with
        runState := .run, nch := 1, fsz := 5, ilen := 5, icur := 4, imem := [(4, 0x74)], ch0 := ⟨0, 0, true⟩ }).1 (by decide)
    · intro _
      refine ⟨by decide, by decide, fun h => absurd h (by decide), fun c hc => ?_⟩
      cases c
      · rfl
      · exact absurd hc (by decide)
  exact ⟨_, t, hi, ht, rfl, .inl rfl, by rw [h]; rfl⟩

theorem witness_EveryRunEnds : ∃ s : State, Inv s ∧ s.runState = .run ∧ s.inputs = [] :=
  ⟨_, (justStarted_runAt 1 8 8 [] (by decide) (by decide)).1, rfl, rfl⟩

/-- A case for each row of 42_block_framer R174, with blocks of 6 bytes: a stop at block 0; two whole blocks and none left;
3 bytes left; 4 bytes left with the reserved byte set; 4 and 5 bytes left without. -/
theorem witness_RunEndsAsTheTableSays :
    (JustStarted (runAt 1 6 0 12 [0, 0, 0, 1]) ∧ 0 < 12 / 6 ∧ ReservedSet (runAt 1 6 0 12 [0, 0, 0, 1]) 0) ∧
    (JustStarted (runAt 1 6 0 12 (List.replicate 12 0)) ∧ 12 % 6 = 0 ∧
      ∀ j < 2, ¬ ReservedSet (runAt 1 6 0 12 (List.replicate 12 0)) j) ∧
    (JustStarted (runAt 1 6 0 9 (List.replicate 9 0)) ∧ 0 < 9 % 6 ∧ 9 % 6 < 4 ∧
      ∀ j < 1, ¬ ReservedSet (runAt 1 6 0 9 (List.replicate 9 0)) j) ∧
    (JustStarted (runAt 1 6 0 10 (List.replicate 9 0 ++ [0xAA])) ∧ 4 ≤ 10 % 6 ∧
      (∀ j < 1, ¬ ReservedSet (runAt 1 6 0 10 (List.replicate 9 0 ++ [0xAA])) j) ∧
      ReservedSet (runAt 1 6 0 10 (List.replicate 9 0 ++ [0xAA])) 1) ∧
    (JustStarted (runAt 1 6 0 11 (List.replicate 11 0)) ∧ 4 ≤ 11 % 6 ∧
      ∀ j < 2, ¬ ReservedSet (runAt 1 6 0 11 (List.replicate 11 0)) j) := by
  refine ⟨⟨justStarted_runAt _ _ _ _ (by decide) (by decide), by decide, ?_⟩,
    ⟨justStarted_runAt _ _ _ _ (by decide) (by decide), by decide, ?_⟩,
    ⟨justStarted_runAt _ _ _ _ (by decide) (by decide), by decide, by decide, ?_⟩,
    ⟨justStarted_runAt _ _ _ _ (by decide) (by decide), by decide, ?_, ?_⟩,
    ⟨justStarted_runAt _ _ _ _ (by decide) (by decide), by decide, ?_⟩⟩ <;> unfold ReservedSet <;> decide

/-- Three steps of a run whose block has been decoded whole by then: its `OLEN` is that of one block. -/
theorem witness_OutputIsTheBlocksDecoded :
    JustStarted (runAt 1 6 0 6 [0, 0, 0, 0, 0x74, 0x21]) ∧
    ∃ t : State, Host.Core.run Sys2Proof.core 3 (runAt 1 6 0 6 [0, 0, 0, 0, 0x74, 0x21]) = .next t ∧
      (0 + 1) * blockOutputBytes (runAt 1 6 0 6 [0, 0, 0, 0, 0x74, 0x21]) ≤ t.olen.toNat := by
  obtain ⟨t, ht, h⟩ := next_of_map State.olen
    (Host.Core.run Sys2Proof.core 3 (runAt 1 6 0 6 [0, 0, 0, 0, 0x74, 0x21])) 8 (by decide)
  exact ⟨justStarted_runAt _ _ _ _ (by decide) (by decide), t, ht, by rw [h]; decide⟩

/-- Two runs on the same stream, the second with another register content and older output in `OMEM`. -/
theorem witness_RunDependsOnItsInputsAlone :
    ∃ s t : State, JustStarted s ∧ JustStarted t ∧ SameRunInputs s t ∧ s ≠ t := by
  have h := justStarted_runAt 1 6 6 [0, 0, 0, 0, 0x74, 0x21] (by decide) (by decide)
  refine ⟨_, { runAt 1 6 0 6 [0, 0, 0, 0, 0x74, 0x21] with ch0 := ⟨9, 9, true⟩, omem := [(0, 0x55)] }, h, ?_,
    ⟨rfl, rfl, rfl, rfl, fun _ _ => rfl⟩, by decide⟩
  obtain ⟨⟨h1, h2, h3, h4, h5⟩, h6, h7, h8, h9⟩ := h
  refine ⟨⟨h1, (by decide), h3, h4, fun hr => ?_⟩, h6, h7, h8, h9⟩
  obtain ⟨a, b, c, d⟩ := h5 hr
  exact ⟨a, b, fun hb => absurd rfl hb, d⟩

/-- In a run: a write of `NCH`, which is ignored, and a `RESET`. -/
theorem witness_DuringARunOnlyTheDecoderActs :
    ∀ m ∈ [Input.writeReg 2 1, .writeReg 0 2], ∃ s t : State,
      step s = .next t ∧ s.runState = .run ∧ ¬ DecoderTurn s ∧ s.inputs = [m] := by
  intro m hm
  have hd : m ≠ .decoder := by rintro rfl; exact absurd hm (by decide)
  obtain ⟨t, ht⟩ : ∃ t, step { runAt 1 8 0 8 [] with inputs := [m] } = .next t := by
    simp only [List.mem_cons, List.not_mem_nil, or_false] at hm
    rcases hm with rfl | rfl <;> exact ⟨_, rfl⟩
  refine ⟨_, t, ht, rfl, ?_, rfl⟩
  rintro (h | ⟨r, h⟩)
  · cases h
  · cases h; exact hd rfl

/-- A run that the host watches and disturbs: five steps, of which two are the decoder's. -/
theorem witness_HostMovesDoNotDisturbARun :
    (runAt 1 6 0 6 [0, 0, 0, 0, 0x74, 0x21]).inputs = [] ∧
    ∀ j ≤ 5, ∃ u : State, Host.Core.run Sys2Proof.core j { runAt 1 6 0 6 [0, 0, 0, 0, 0x74, 0x21] with
      inputs := [.readReg 1, .decoder, .writeReg 2 2, .writeReg 0 1, .decoder] } = .next u ∧ u.runState = .run := by
  refine ⟨rfl, fun j hj => ?_⟩
  interval_cases j <;> exact next_of_map State.runState _ .run (by decide)

theorem witness_ResultIsTheOutputOfADoneRun :
    { State.reset with runState := .done, omem := [(0, 0x07), (1, 0x00)], olen := 2 }.runState = .done ∧
    State.reset.runState ≠ .done ∧
    { State.reset with runState := .done, omem := [(0, 0x07), (1, 0x00)], olen := 2 }.result = some [0x07, 0x00] := by decide

/-- FJ2's example with 8 samples. -/
theorem witness_OutputHeaderFields :
    (⟨1, 8000, 1, 256⟩ : WavFormatInfo).sampleRate = 8000 ∧ (⟨1, 8000, 1, 256⟩ : WavFormatInfo).numChannels = 1 ∧
    36 + 8 * 2 < 2 ^ 32 ∧ headerWord (outputHeader ⟨1, 8000, 1, 256⟩ 16) 28 = 16000 := by decide

/-- A file of a header of zeros and one byte, whose framing is illegal: one write of the stream, three of the configuration, `START`. A header that
declares one byte more than is present is not refused; a file with legal framing has the like moves; a file without a whole header gives no move. -/
theorem witness_HostMovesLoadTheStream :
    hostMoves .bytesPresent (List.replicate 44 0 ++ [7]) =
      some [.writeIMem 0 7, .writeReg 2 0, .writeReg 3 0, .writeReg 4 1, .writeReg 0 1] ∧
    State.reset.runState = .idle ∧ State.reset.runState ≠ .run ∧
    hostMoves .headerDataSize (List.replicate 40 0 ++ [1, 0, 0, 0, 7]) =
      some [.writeIMem 0 7, .writeReg 2 0, .writeReg 3 0, .writeReg 4 1, .writeReg 0 1] ∧
    hostMoves .headerDataSize (List.replicate 40 0 ++ [2, 0, 0, 0, 7]) =
      some [.writeIMem 0 7, .writeReg 2 0, .writeReg 3 0, .writeReg 4 2, .writeReg 0 1] ∧
    hostMoves .bytesPresent
        (List.replicate 22 0 ++ [1, 0] ++ List.replicate 8 0 ++ [4, 0] ++ List.replicate 10 0 ++ [1, 2, 3, 0]) =
      some [.writeIMem 0 1, .writeIMem 1 2, .writeIMem 2 3, .writeIMem 3 0,
        .writeReg 2 1, .writeReg 3 4, .writeReg 4 4, .writeReg 0 1] ∧
    configLegal 0 0 1 = false ∧ configLegal 1 4 4 = true ∧
    hostMoves .bytesPresent (List.replicate 43 0) = none := by decide

end Sys2Proof.Tests
end

section
/-! PROOF. O42 (00_scope R13): two runs on the same inputs keep in lockstep. The relation between the two states holds when
both runs have just begun, every decoder step keeps it, and it gives the agreement of the outputs. -/

namespace Sys2Proof.Machine

/-! ### The relation between the two runs -/

/-- Two states of runs on the same inputs, at the same point: they show the host the same, and inside a block the channel
registers in use agree as well. What they may differ in: the registers at a block boundary or of a channel not in use,
`IMEM` at or beyond `ILEN`, `OMEM` at or beyond `OLEN`, the replies and the free values drawn. -/
structure Lockstep (s t : State) : Prop where
  inputs : SameRunInputs s t
  outputs : SameRunOutputs s t
  quiet_left : s.inputs = []
  quiet_right : t.inputs = []
  run_inv : s.runState = .run → RunInvariant s
  channels : s.runState = .run → s.icur.toNat % s.fsz.toNat ≠ 0 →
    ∀ c : Channel, c.num < s.nch.toNat → s.chan c = t.chan c

/-- Both outcomes are next states, and these are in lockstep. -/
def NextInLockstep (o o' : Host.Outcome State Fault Refusal) : Prop :=
  ∃ s' t' : State, o = .next s' ∧ o' = .next t' ∧ Lockstep s' t'

/-- What a decoder step that goes on with the run leaves unchanged (the first case of `decoderStep_cases`). -/
def RunGoesOn (s s' : State) : Prop :=
  s' = { s with ch0 := s'.ch0, ch1 := s'.ch1, icur := s'.icur, olen := s'.olen, omem := s'.omem }

/-- What a data step of `d` bytes leaves unchanged, and how it moves the cursors (43_nibble_interleaver R191, R196). -/
def DataStepFrame (d : Nat) (s s' : State) : Prop :=
  s' = { s with
    ch0 := s'.ch0
    ch1 := s'.ch1
    omem := s'.omem
    olen := s.olen + BitVec.ofNat 32 (4 * d)
    icur := s.icur + BitVec.ofNat 32 d }

/-- The fields that a step which goes on with the run keeps. -/
theorem RunGoesOn.fields {s s' : State} (h : RunGoesOn s s') :
    s'.runState = s.runState ∧ s'.cause = s.cause ∧ s'.nch = s.nch ∧ s'.fsz = s.fsz ∧ s'.ilen = s.ilen ∧
    s'.cfg = s.cfg ∧ s'.imem = s.imem ∧ s'.inputs = s.inputs := by
  unfold RunGoesOn at h
  refine ⟨?_, ?_, ?_, ?_, ?_, ?_, ?_, ?_⟩ <;> rw [h]

theorem DataStepFrame.runGoesOn {d : Nat} {s s' : State} (h : DataStepFrame d s s') : RunGoesOn s s' := by
  unfold DataStepFrame at h
  unfold RunGoesOn
  rw [h]

theorem DataStepFrame.cursors {d : Nat} {s s' : State} (h : DataStepFrame d s s') :
    s'.icur = s.icur + BitVec.ofNat 32 d ∧ s'.olen = s.olen + BitVec.ofNat 32 (4 * d) := by
  unfold DataStepFrame at h
  constructor <;> rw [h]

/-- Two runs that have just begun on the same inputs are in lockstep. -/
theorem lockstep_of_justStarted {s t : State} (hs : JustStarted s) (ht : JustStarted t) (h : SameRunInputs s t) :
    Lockstep s t := by
  obtain ⟨hinv, hrun, hicur, holen, hin⟩ := hs
  obtain ⟨hinv', hrun', hicur', holen', hin'⟩ := ht
  have hcause : s.cause = .noCause := by simpa [hrun, CauseFits] using hinv.cause_fits
  have hcause' : t.cause = .noCause := by simpa [hrun', CauseFits] using hinv'.cause_fits
  exact {
    inputs := h
    outputs := ⟨hrun.trans hrun'.symm, hcause.trans hcause'.symm, hicur.trans hicur'.symm, holen.trans holen'.symm,
      fun a ha => by simp [holen] at ha⟩
    quiet_left := hin
    quiet_right := hin'
    run_inv := hinv.run_inv
    channels := fun _ hb => by simp [hicur] at hb }

/-- Where both runs end in the same status, nothing else being changed, they end in lockstep: `finish` and `raise` are
such ends. -/
theorem Lockstep.ended {s t : State} (h : Lockstep s t) (r : RunState) (hr : r ≠ .run) (c : Cause) :
    Lockstep { s with runState := r, cause := c } { t with runState := r, cause := c } where
  inputs := h.inputs
  outputs := by
    obtain ⟨-, -, hrest⟩ := h.outputs
    exact ⟨rfl, rfl, hrest⟩
  quiet_left := h.quiet_left
  quiet_right := h.quiet_right
  run_inv := fun hrun => absurd hrun hr
  channels := fun hrun => absurd hrun hr

/-- Two steps that go on with the runs keep the lockstep where the cursors, the output and the channel registers in use
agree after them. -/
theorem Lockstep.goesOn {s t s' t' : State} (h : Lockstep s t) (hs : RunGoesOn s s') (ht : RunGoesOn t t')
    (hicur : s'.icur = t'.icur) (holen : s'.olen = t'.olen)
    (hbytes : ∀ a, a < s'.olen.toNat → s'.omemByte a = t'.omemByte a) (hinv : RunInvariant s')
    (hch : ∀ c : Channel, c.num < s.nch.toNat → s'.chan c = t'.chan c) : Lockstep s' t' := by
  obtain ⟨⟨hnch, hfsz, hilen, hcfg, himem⟩, ⟨hrun, hcause, -⟩, hin, hin', -⟩ := h
  obtain ⟨sRun, sCause, sNch, sFsz, sIlen, sCfg, sImem, sIn⟩ := hs.fields
  obtain ⟨tRun, tCause, tNch, tFsz, tIlen, tCfg, tImem, tIn⟩ := ht.fields
  exact {
    inputs := by
      refine ⟨by rw [sNch, tNch, hnch], by rw [sFsz, tFsz, hfsz], by rw [sIlen, tIlen, hilen], by rw [sCfg, tCfg, hcfg],
        fun a ha => ?_⟩
      rw [imemByte_congr s s' sImem, imemByte_congr t t' tImem]
      exact himem a (sIlen ▸ ha)
    outputs := ⟨by rw [sRun, tRun, hrun], by rw [sCause, tCause, hcause], hicur, holen, hbytes⟩
    quiet_left := sIn.trans hin
    quiet_right := tIn.trans hin'
    run_inv := fun _ => hinv
    channels := fun _ _ c hc => hch c (sNch ▸ hc) }

/-! ### What the decoder can fetch in a run -/

/-- The unit a decoder step of a run finds: at a block boundary the end of the input, the fault, or preamble units of the
run's mode; inside a block the data unit of the mode (42_block_framer R160, R161, R170). -/
theorem fetch_cases (s : State) (h : RunInvariant s) :
    (s.icur.toNat % s.fsz.toNat = 0 ∧
      (fetch s = .instr .endInput ∨ fetch s = .raise .invalidInput ∨
        ∃ u : PreUnits, u.mode.channels = s.nch.toNat ∧ (fetch s = .instr (.stop u) ∨ fetch s = .instr (.pre u)))) ∨
    (s.icur.toNat % s.fsz.toNat ≠ 0 ∧ s.nch.toNat = 1 ∧ ∃ b, fetch s = .instr (.db b)) ∨
    (s.icur.toNat % s.fsz.toNat ≠ 0 ∧ s.nch.toNat = 2 ∧
      ∃ g0 g1 g2 g3 g4 g5 g6 g7, fetch s = .instr (.dg g0 g1 g2 g3 g4 g5 g6 g7)) := by
  have hn : s.nch.toNat = 1 ∨ s.nch.toNat = 2 := h.1.1
  by_cases hb : s.icur.toNat % s.fsz.toNat = 0
  · refine .inl ⟨hb, ?_⟩
    have hf : fetch s = fetchBoundary s := by simp [fetch, State.atBoundary, hb]
    rw [hf, fetchBoundary]
    by_cases h0 : s.remaining = 0
    · exact .inl (by rw [if_pos h0]; rfl)
    by_cases h1 : s.remaining < 4 * s.nch.toNat
    · exact .inr (.inl (by rw [if_neg h0, if_pos h1]))
    have hrem : s.remaining = (s.ilen.toNat : Int) - s.icur.toNat := rfl
    have hch := modeOf_channels s hn
    refine .inr (.inr ⟨unitsAt s (modeOf s.nch) s.icur.toNat, by rw [unitsAt_mode, hch], ?_⟩)
    rw [if_neg h0, if_neg h1, fetchUnit_boundary s _ (by omega)]
    rcases boundaryInstr_cases (unitsAt s (modeOf s.nch) s.icur.toNat) with ⟨-, e⟩ | ⟨-, e⟩
    · exact .inr (by rw [e])
    · exact .inl (by rw [e])
  · have hf : fetch s = fetchUnit s (.region (modeOf s.nch)) (unitBytes (modeOf s.nch)) := by
      simp [fetch, State.atBoundary, hb]
    obtain ⟨-, hlt, heq, hend, h8⟩ := region_bounds s h hb
    rcases hn with h1 | h2
    · refine .inr (.inl ⟨hb, h1, s.imemByte s.icur.toNat, ?_⟩)
      rw [hf, modeOf_mono s h1]
      exact fetchUnit_mono s (by omega)
    · have := h8 h2
      have hu := fetchUnit_stereo s (by omega)
      rw [hf, modeOf_stereo s h2]
      exact .inr (.inr ⟨hb, h2, _, _, _, _, _, _, _, _, hu⟩)

/-! ### The bytes a data step leaves below `OLEN` -/

/-- An offset below `base + n`, where that does not come round the address space, lies below `base` and is none of the `n`
offsets from `base` on, or it is one of them. -/
theorem below_or_at (base : Word) (n a : Nat) (hfit : base.toNat + n ≤ 2 ^ 32) (ha : a < base.toNat + n) :
    (a < base.toNat ∧ ∀ k < n, a ≠ (base + BitVec.ofNat 32 k).toNat) ∨
    ∃ k < n, a = (base + BitVec.ofNat 32 k).toNat := by
  by_cases h : a < base.toNat
  · refine .inl ⟨h, fun k hk => ?_⟩
    rw [add_ofNat_toNat]
    omega
  · refine .inr ⟨a - base.toNat, by omega, ?_⟩
    rw [add_ofNat_toNat]
    omega

/-- After a `DB` in two states that agree in the tables, `OLEN`, channel 0 and the bytes below `OLEN`, they agree in the
bytes below the new `OLEN`. -/
theorem omemByte_execDb_congr (b : Byte) {s t s' t' : State} (hs : execDb b s = .next s') (ht : execDb b t = .next t')
    (hcfg : s.cfg = t.cfg) (holen : s.olen = t.olen) (hch : s.ch0 = t.ch0) (hfit : s.olen.toNat + 4 ≤ 2 ^ 32)
    (hbytes : ∀ a, a < s.olen.toNat → s.omemByte a = t.omemByte a) (a : Nat) (ha : a < s.olen.toNat + 4) :
    s'.omemByte a = t'.omemByte a := by
  rcases below_or_at s.olen 4 a hfit ha with ⟨hlt, hne⟩ | ⟨k, hk, rfl⟩
  · rw [omemByte_execDb_of_ne b s s' hs a hne, omemByte_execDb_of_ne b t t' ht a (holen ▸ hne), hbytes a hlt]
  · obtain ⟨i, hi, hki⟩ : ∃ i < 2, k = 2 * i ∨ k = 2 * i + 1 := ⟨k / 2, by omega, by omega⟩
    obtain ⟨slo, shi⟩ := omemByte_execDb_at b s s' hs i hi
    obtain ⟨tlo, thi⟩ := omemByte_execDb_at b t t' ht i hi
    rw [← hcfg, ← holen, ← hch] at tlo thi
    rcases hki with rfl | rfl
    · exact slo.trans tlo.symm
    · exact shi.trans thi.symm

/-- The same for the two runs of nibbles of a stereo group and both channels. -/
theorem omemByte_groupRuns_congr (ls rs : List Nibble) (hl : ls.length = 8) (hr : rs.length = 8) {s t : State}
    (hcfg : s.cfg = t.cfg) (holen : s.olen = t.olen) (hch0 : s.ch0 = t.ch0) (hch1 : s.ch1 = t.ch1)
    (hfit : s.olen.toNat + 32 ≤ 2 ^ 32) (hbytes : ∀ a, a < s.olen.toNat → s.omemByte a = t.omemByte a) (a : Nat)
    (ha : a < s.olen.toNat + 32) :
    (decodeRun .ch1 4 (s.olen + 2) rs (decodeRun .ch0 4 s.olen ls s)).omemByte a =
      (decodeRun .ch1 4 (t.olen + 2) rs (decodeRun .ch0 4 t.olen ls t)).omemByte a := by
  rcases below_or_at s.olen 32 a hfit ha with ⟨hlt, hne⟩ | ⟨k, hk, rfl⟩
  · rw [omemByte_groupRuns_of_ne ls rs s hl hr a hne, omemByte_groupRuns_of_ne ls rs t hl hr a (holen ▸ hne), hbytes a hlt]
  · obtain ⟨i, hi, hki⟩ : ∃ i < 8, k = 4 * i ∨ k = 4 * i + 1 ∨ k = 4 * i + 2 ∨ k = 4 * i + 3 :=
      ⟨k / 4, by omega, by omega⟩
    obtain ⟨s0, s1, s2, s3⟩ := omemByte_groupRuns_at ls rs s hl hr i hi
    obtain ⟨t0, t1, t2, t3⟩ := omemByte_groupRuns_at ls rs t hl hr i hi
    rw [← hcfg, ← holen, ← hch0] at t0 t1
    rw [← hcfg, ← holen, ← hch1] at t2 t3
    rw [← holen]
    rcases hki with rfl | rfl | rfl | rfl
    · exact s0.trans t0.symm
    · exact s1.trans t1.symm
    · exact s2.trans t2.symm
    · exact s3.trans t3.symm

/-- Registers that hold values still do after a run of nibbles. -/
theorem channelSamples_loaded (cfg : Config) (ns : List Nibble) (ch : ChannelState) (h : ch.loaded = true) :
    (channelSamples cfg ns ch).2.loaded = true := by
  induction ns generalizing ch with
  | nil => exact h
  | cons n ns ih => exact ih _ (decodeSample_loaded cfg n ch)

/-- A preamble load gives a channel in use the values of its unit, whatever the channel held. -/
theorem chan_loadPreambles_inUse (u : PreUnits) (c : Channel) (hc : c.num < u.mode.channels) :
    ∃ p : Preamble, ∀ s : State, (loadPreambles u s).chan c = initialChannel s.cfg p := by
  cases u with
  | mono p =>
    cases c with
    | ch0 => exact ⟨p, fun _ => rfl⟩
    | ch1 => exact absurd hc (Nat.lt_irrefl 1)
  | stereo l r =>
    cases c with
    | ch0 => exact ⟨l, fun _ => rfl⟩
    | ch1 => exact ⟨r, fun _ => rfl⟩

/-! ### Each unit keeps the lockstep -/

/-- `PRE`: both states load the same preambles, or both find the block short. -/
theorem execPre_keeps_lockstep {s t : State} (h : Lockstep s t) (hrun : s.runState = .run)
    (hb : s.icur.toNat % s.fsz.toNat = 0) (u : PreUnits) (hu : u.mode.channels = s.nch.toNat) :
    NextInLockstep (execPre u s) (execPre u t) := by
  obtain ⟨-, hfsz, hilen, hcfg, -⟩ := h.inputs
  obtain ⟨-, -, hicur, holen, hbytes⟩ := h.outputs
  have hrem : s.remaining = t.remaining := by rw [State.remaining, State.remaining, hilen, hicur]
  rcases execPre_cases u s with ⟨hs, es⟩ | ⟨hs, es⟩ <;> rcases execPre_cases u t with ⟨ht, et⟩ | ⟨ht, et⟩
  · exact ⟨_, _, es, et, h.ended .fault (by decide) .invalidInput⟩
  · exact absurd (by rwa [← hrem, ← hfsz]) ht
  · exact absurd (by rwa [hrem, hfsz]) hs
  · refine ⟨_, _, es, et, h.goesOn (by cases u <;> rfl) (by cases u <;> rfl) (by simp [hicur]) (by simp [holen]) ?_ ?_ ?_⟩
    · intro a ha
      calc _ = s.omemByte a := omemByte_congr s _ (loadPreambles_omem u s) a
        _ = t.omemByte a := hbytes a (by simpa using ha)
        _ = _ := (omemByte_congr t _ (loadPreambles_omem u t) a).symm
    · have hinv := h.run_inv hrun
      obtain ⟨⟨-, hf, -, hil⟩, -⟩ := h.run_inv hrun
      have hfit : s.icur.toNat + s.fsz.toNat ≤ s.ilen.toNat := by rw [State.remaining] at hs; omega
      refine runInvariant_load s _ hinv hb hfit (by simp) (by simp) (by simp) ?_ (by simp) fun c hc => ?_
      · rw [advanceInput_icur, loadPreambles_icur, add_ofNat_toNat, hu]
        omega
      · obtain ⟨p, hp⟩ := chan_loadPreambles_inUse u c (hu ▸ hc)
        rw [chan_advanceInput, hp]
        rfl
    · intro c hc
      obtain ⟨p, hp⟩ := chan_loadPreambles_inUse u c (hu ▸ hc)
      rw [chan_advanceInput, chan_advanceInput, hp, hp, hcfg]

/-- A data step of `d` bytes in both states, where each channel in use decodes the same nibbles and the bytes below the
new `OLEN` agree. -/
theorem Lockstep.dataStep {s t s' t' : State} (h : Lockstep s t) (hrun : s.runState = .run)
    (hb : s.icur.toNat % s.fsz.toNat ≠ 0) (d : Nat) (hd : 0 < d)
    (hfit : s.icur.toNat % s.fsz.toNat + d ≤ s.fsz.toNat) (hd8 : s.nch.toNat = 2 → d = 8)
    (hs : DataStepFrame d s s') (ht : DataStepFrame d t t')
    (hch : ∀ c : Channel, c.num < s.nch.toNat → ∃ ns,
      s'.chan c = (channelSamples s.cfg ns (s.chan c)).2 ∧ t'.chan c = (channelSamples t.cfg ns (t.chan c)).2)
    (hbytes : s.olen.toNat + 4 * d ≤ 2 ^ 32 → ∀ a, a < s.olen.toNat + 4 * d → s'.omemByte a = t'.omemByte a) :
    Lockstep s' t' := by
  obtain ⟨-, -, -, hcfg, -⟩ := h.inputs
  obtain ⟨-, -, hicur, holen, -⟩ := h.outputs
  have hinv := h.run_inv hrun
  obtain ⟨⟨-, -, -, hil⟩, -⟩ := h.run_inv hrun
  obtain ⟨-, -, heq, hend, -⟩ := region_bounds s hinv hb
  have hol := olen_le s hinv
  obtain ⟨sIcur, sOlen⟩ := hs.cursors
  obtain ⟨tIcur, tOlen⟩ := ht.cursors
  obtain ⟨-, -, sNch, sFsz, sIlen, -⟩ := hs.runGoesOn.fields
  have icurNat : s'.icur.toNat = s.icur.toNat + d := by
    rw [sIcur, add_ofNat_toNat, Nat.mod_eq_of_lt (by omega)]
  have olenNat : s'.olen.toNat = s.olen.toNat + 4 * d := by
    rw [sOlen, add_ofNat_toNat, Nat.mod_eq_of_lt (by omega)]
  refine h.goesOn hs.runGoesOn ht.runGoesOn (by rw [sIcur, tIcur, hicur]) (by rw [sOlen, tOlen, holen]) ?_ ?_ ?_
  · rw [olenNat]
    exact hbytes (by omega)
  · refine runInvariant_data s s' d hinv hb hd hfit hd8 sNch sFsz sIlen icurNat olenNat fun c hc hl => ?_
    obtain ⟨ns, e, -⟩ := hch c hc
    rw [e]
    exact channelSamples_loaded _ _ _ hl
  · intro c hc
    obtain ⟨ns, e, e'⟩ := hch c hc
    rw [e, e', hcfg, h.channels hrun hb c hc]

/-- `DB`: both states decode the byte from the same registers of channel 0. -/
theorem execDb_keeps_lockstep {s t : State} (h : Lockstep s t) (hrun : s.runState = .run)
    (hb : s.icur.toNat % s.fsz.toNat ≠ 0) (hn : s.nch.toNat = 1) (b : Byte) :
    NextInLockstep (execDb b s) (execDb b t) := by
  obtain ⟨-, -, -, hcfg, -⟩ := h.inputs
  obtain ⟨-, -, -, holen, hbytes⟩ := h.outputs
  obtain ⟨s', es, hs, sch⟩ := execDb_frame b s
  obtain ⟨t', et, ht, tch⟩ := execDb_frame b t
  obtain ⟨-, hlt, -⟩ := region_bounds s (h.run_inv hrun) hb
  have hch : s.ch0 = t.ch0 := h.channels hrun hb .ch0 (by rw [hn]; decide)
  refine ⟨s', t', es, et, h.dataStep hrun hb 1 (by omega) (by omega) (by omega) ?_ ?_ ?_ fun hfit =>
    omemByte_execDb_congr b es et hcfg holen hch hfit hbytes⟩
  · unfold DataStepFrame; rw [hs]; rfl
  · unfold DataStepFrame; rw [ht]; rfl
  · intro c hc
    cases c with
    | ch0 => exact ⟨_, sch, tch⟩
    | ch1 => exact absurd hc (by rw [hn]; decide)

/-- `DG`: both states decode each channel's bytes from the same registers of that channel. -/
theorem execDg_keeps_lockstep {s t : State} (h : Lockstep s t) (hrun : s.runState = .run)
    (hb : s.icur.toNat % s.fsz.toNat ≠ 0) (hn : s.nch.toNat = 2) (g0 g1 g2 g3 g4 g5 g6 g7 : Byte) :
    NextInLockstep (execDg g0 g1 g2 g3 g4 g5 g6 g7 s) (execDg g0 g1 g2 g3 g4 g5 g6 g7 t) := by
  obtain ⟨-, -, -, hcfg, -⟩ := h.inputs
  obtain ⟨-, -, -, holen, hbytes⟩ := h.outputs
  obtain ⟨s', es, hs, sch0, sch1⟩ := execDg_frame g0 g1 g2 g3 g4 g5 g6 g7 s
  obtain ⟨t', et, ht, tch0, tch1⟩ := execDg_frame g0 g1 g2 g3 g4 g5 g6 g7 t
  obtain ⟨-, -, -, -, h8⟩ := region_bounds s (h.run_inv hrun) hb
  have hch0 : s.ch0 = t.ch0 := h.channels hrun hb .ch0 (by rw [hn]; decide)
  have hch1 : s.ch1 = t.ch1 := h.channels hrun hb .ch1 (by rw [hn]; decide)
  refine ⟨s', t', es, et, h.dataStep hrun hb 8 (by omega) (h8 hn) (fun _ => rfl) ?_ ?_ ?_ fun hfit a ha => ?_⟩
  · unfold DataStepFrame; rw [hs]; rfl
  · unfold DataStepFrame; rw [ht]; rfl
  · intro c _
    cases c with
    | ch0 => exact ⟨_, sch0, tch0⟩
    | ch1 => exact ⟨_, sch1, tch1⟩
  · rw [omemByte_execDg _ _ _ _ _ _ _ _ s s' es, omemByte_execDg _ _ _ _ _ _ _ _ t t' et]
    exact omemByte_groupRuns_congr _ _ (nibblesOf_length _) (nibblesOf_length _) hcfg holen hch0 hch1 hfit hbytes a ha

/-! ### A step, and many -/

/-- The decoder's turn keeps the lockstep: the two states fetch the same unit, and each unit keeps it; outside a run
nothing changes. -/
theorem decoderStep_keeps_lockstep {s t : State} (h : Lockstep s t) : NextInLockstep (decoderStep s) (decoderStep t) := by
  obtain ⟨hrunEq, -, hicur, -, -⟩ := h.outputs
  by_cases hrun : s.runState = .run
  · have hfetch := fetch_congr s t hicur h.inputs
    rw [decoderStep_run s hrun, decoderStep_run t (hrunEq ▸ hrun), ← hfetch]
    rcases fetch_cases s (h.run_inv hrun) with
      ⟨hb, e | e | ⟨u, hu, e | e⟩⟩ | ⟨hb, hn, b, e⟩ | ⟨hb, hn, g0, g1, g2, g3, g4, g5, g6, g7, e⟩ <;> rw [e]
    · exact ⟨_, _, rfl, rfl, h.ended .done (by decide) .endOfInput⟩
    · exact ⟨_, _, rfl, rfl, h.ended .fault (by decide) .invalidInput⟩
    · exact ⟨_, _, rfl, rfl, h.ended .done (by decide) .reservedStop⟩
    · exact execPre_keeps_lockstep h hrun hb u hu
    · exact execDb_keeps_lockstep h hrun hb hn b
    · exact execDg_keeps_lockstep h hrun hb hn g0 g1 g2 g3 g4 g5 g6 g7
  · rw [decoderStep_still s hrun, decoderStep_still t (hrunEq ▸ hrun)]
    exact ⟨s, t, rfl, rfl, h⟩

/-- With no host move pending the step is the decoder's. -/
theorem step_of_noInputs (s : State) (h : s.inputs = []) : step s = decoderStep s := by
  rcases step_cases s with ⟨-, e⟩ | ⟨r, e, -⟩ | ⟨m, r, e, -⟩
  · exact e
  · simp [h] at e
  · simp [h] at e

/-- One step of each run keeps the lockstep. -/
theorem step_keeps_lockstep {s t : State} (h : Lockstep s t) : NextInLockstep (step s) (step t) := by
  rw [step_of_noInputs s h.quiet_left, step_of_noInputs t h.quiet_right]
  exact decoderStep_keeps_lockstep h

/-- Any number of steps keeps it. -/
theorem run_keeps_lockstep {s t : State} (h : Lockstep s t) (k : Nat) :
    NextInLockstep (Host.Core.run Sys2Proof.core k s) (Host.Core.run Sys2Proof.core k t) := by
  induction k generalizing s t with
  | zero => exact ⟨s, t, run_zero s, run_zero t, h⟩
  | succ k ih =>
    obtain ⟨s', t', hs, ht, h'⟩ := step_keeps_lockstep h
    rw [run_succ k s s' hs, run_succ k t t' ht]
    exact ih h'

/-- Settles O42, by the lockstep of the two runs. -/
theorem runDependsOnItsInputsAlone : Obligations.RunDependsOnItsInputsAlone := by
  intro s t hs ht hin k
  obtain ⟨s', t', es, et, h⟩ := run_keeps_lockstep (lockstep_of_justStarted hs ht hin) k
  exact ⟨s', t', es, et, h.outputs⟩

end Sys2Proof.Machine
end

section
/-! PROOF. O14 (20_memory R56): what a 16-bit write leaves in its two bytes, by the law of `omemWriteHalf`; the rule's
examples are then the bytes of four closed values. -/

namespace Sys2Proof.Machine

/-- The byte at the offset of a 16-bit write, which the write of the high byte, at another offset, leaves. -/
theorem omemByte_omemWriteHalf_lo (s : State) (a : Word) (v : Half) :
    (s.omemWriteHalf a v).omemByte a.toNat = loByte v := by
  rw [omemByte_omemWriteHalf, if_neg (toNat_ne_succ a), if_pos rfl]

/-- The byte after it; the last offset's successor is offset 0. -/
theorem omemByte_omemWriteHalf_hi (s : State) (a : Word) (v : Half) :
    (s.omemWriteHalf a v).omemByte (a + 1).toNat = hiByte v := by
  rw [omemByte_omemWriteHalf, if_pos rfl]

/-- Every other byte. -/
theorem omemByte_omemWriteHalf_of_ne (s : State) (a : Word) (v : Half) (b : Nat) (h0 : b ≠ a.toNat)
    (h1 : b ≠ (a + 1).toNat) : (s.omemWriteHalf a v).omemByte b = s.omemByte b := by
  rw [omemByte_omemWriteHalf, if_neg h1, if_neg h0]

/-- The two bytes of each value that 20_memory R56 lists. -/
theorem loByte_hiByte_examples :
    ∀ e ∈ [((100 : Int), (0x64 : Byte), (0x00 : Byte)), (-100, 0x9C, 0xFF), (-32768, 0x00, 0x80), (32767, 0xFF, 0x7F)],
      loByte (BitVec.ofInt 16 e.1) = e.2.1 ∧ hiByte (BitVec.ofInt 16 e.1) = e.2.2 := by decide

/-- Settles O14, by the law of the 16-bit write at each of its two offsets and beside them. -/
theorem sampleWriteIsLittleEndian : Obligations.SampleWriteIsLittleEndian := by
  refine ⟨fun s a v => ⟨?low, ?high, omemByte_omemWriteHalf_of_ne s a v, rfl⟩, fun s a v lo hi hmem => ?examples⟩
  case low => rw [omemByte_omemWriteHalf_lo, loByte_toNat]
  case high => rw [omemByte_omemWriteHalf_hi, hiByte_toNat]
  case examples =>
    rw [omemByte_omemWriteHalf_lo, omemByte_omemWriteHalf_hi]
    exact loByte_hiByte_examples (v, lo, hi) hmem

end Sys2Proof.Machine
end

section
/-! PROOF. O9 (30_encoding R86): the initial index under each reading of its byte, by the law of the index clamp; each
range of the byte is then a case of that closed form. -/

namespace Sys2Proof.Machine

/-- The unsigned reading of 30_encoding R86. -/
theorem initIndex_unsigned_val (b : Byte) : ((initIndex false b).val : Int) = max 0 (min 88 (b.toNat : Int)) :=
  clampIndex_val _

/-- The signed reading of 30_encoding R86, its value written out by the byte's sign. -/
theorem initIndex_signed_val (b : Byte) :
    ((initIndex true b).val : Int) =
      max 0 (min 88 (if b.toNat < 128 then (b.toNat : Int) else (b.toNat : Int) - 256)) := by
  have hread : b.toInt = if b.toNat < 128 then (b.toNat : Int) else (b.toNat : Int) - 256 := by
    by_cases hpos : b.toNat < 128
    · rw [if_pos hpos, BitVec.toInt_eq_toNat_of_lt (by omega)]
    · rw [if_neg hpos, BitVec.toInt_eq_toNat_cond, if_neg (by omega)]
      rfl
  rw [← hread]
  exact clampIndex_val _

/-- Settles O9, by the clamped value under each reading; in each range of the byte the clamp is linear arithmetic. -/
theorem initIndexClampsBothReadings : Obligations.InitIndexClampsBothReadings := by
  refine ⟨rfl, fun b => ?_⟩
  have hu := initIndex_unsigned_val b
  have hs := initIndex_signed_val b
  have hb : b.toNat < 256 := b.isLt
  refine ⟨hu, hs, fun hle => ?inRange, fun hlo hhi => ?above, fun hge => ?signBit⟩
  case inRange => rw [if_pos (by omega)] at hs; omega
  case above => rw [if_pos (by omega)] at hs; omega
  case signBit => rw [if_neg (by omega)] at hs; omega

end Sys2Proof.Machine
end

section
/-! PROOF. O1 (41_sample_decoder R121 to R126): a nibble code leaves the effect of one `DecodeSample` with the model's own
difference; that difference is FJ2's masked sum, and the widths of the registers and of the table entries bound the exact
values. -/

namespace Sys2Proof.Machine

/-- `DecodeSample` leaves what the rules ask for, with the model's signed difference. -/
theorem sampleEffect_decodeOn (c : Channel) (n : Nibble) (s : State) :
    SampleEffect c n (difference (s.cfg.stepLut.get (s.chan c).idx) n) s (decodeOn c n s) := by
  refine ⟨?predictor, ?index, ?loaded, decodeOn_frame c n s⟩
  case predictor => rw [chan_decodeOn_same, decodeSample_pred, decodeSample_toInt]
  case index => rw [chan_decodeOn_same, decodeSample_idx, indexAdjust]
  case loaded => rw [chan_decodeOn_same, decodeSample_loaded]

/-- The range of the difference (41_sample_decoder R123): the magnitude is a 16-bit number, under either sign. -/
theorem difference_bounds (step : Half) (n : Nibble) : -65535 ≤ difference step n ∧ difference step n ≤ 65535 := by
  have hmag : (magnitude step n).toNat < 65536 := (magnitude step n).isLt
  unfold difference
  split <;> omega

/-- The range of the predictor before the clamp (41_sample_decoder R124). -/
theorem predictorSum_bounds (p step : Half) (n : Nibble) :
    -98303 ≤ p.toInt + difference step n ∧ p.toInt + difference step n ≤ 98302 := by
  have hlo : -32768 ≤ p.toInt := BitVec.le_toInt p
  have hhi : p.toInt < 32768 := BitVec.toInt_lt
  have hdiff := difference_bounds step n
  omega

/-- The range of the index before the clamp (41_sample_decoder R126): an index below 89 and a signed byte. -/
theorem indexSum_bounds (i : Fin 89) (adj : Byte) : -128 ≤ (i.val : Int) + adj.toInt ∧ (i.val : Int) + adj.toInt ≤ 215 := by
  have hlo : -128 ≤ adj.toInt := BitVec.le_toInt adj
  have hhi : adj.toInt < 128 := BitVec.toInt_lt
  omega

/-- Settles O1, by the effect of `DecodeSample` and the law of the magnitude as masked sums. -/
theorem decodeSampleFollowsSevenSteps : Obligations.DecodeSampleFollowsSevenSteps := by
  intro c n s step d0 d1 d2 m diff
  have hm : (magnitude (s.cfg.stepLut.get (s.chan c).idx) n).toNat = m := magnitude_toNat _ n
  have hdiff : diff = difference (s.cfg.stepLut.get (s.chan c).idx) n := by rw [difference, hm]
  rw [hdiff]
  refine ⟨⟨decodeOn c n s, exec_nibbleInstr c n s, sampleEffect_decodeOn c n s, ?sample⟩, difference_bounds _ n,
    predictorSum_bounds _ _ n, indexSum_bounds _ _⟩
  case sample => rw [chan_decodeOn_same, decodeSample_pred]

end Sys2Proof.Machine
end

section
/-! PROOF. O10 (42_block_framer R166, R168): the two outcomes of `PRE`, and what the loaded registers hold. -/

namespace Sys2Proof.Machine

/-- A block that is not wholly present makes `PRE` raise the fault (42_block_framer R168). -/
theorem exec_pre_of_short (u : PreUnits) (s : State) (h : s.remaining < s.fsz.toNat) :
    exec (.pre u) s = .next (s.raise .invalidInput) := if_pos h

/-- A block that is wholly present makes `PRE` load the preambles (42_block_framer R166). -/
theorem exec_pre_of_whole (u : PreUnits) (s : State) (h : (s.fsz.toNat : Int) ≤ s.remaining) :
    exec (.pre u) s = .next ((loadPreambles u s).advanceInput (4 * u.mode.channels)) := if_neg (not_lt.mpr h)

/-- A mode has one preamble unit for each of its channels (30_encoding R83). -/
theorem units_length (u : PreUnits) : u.units.length = u.mode.channels := by cases u <;> rfl

/-- `PRE`'s load writes the channel registers and the input cursor, nothing else. -/
theorem loadAndAdvance_frame (u : PreUnits) (s : State) (n : Nat) :
    let t := (loadPreambles u s).advanceInput n
    t = { s with ch0 := t.ch0, ch1 := t.ch1, icur := s.icur + BitVec.ofNat 32 n } := by
  cases u <;> rfl

/-- Settles O10, by the two outcomes of `PRE` and the law of the preamble load. -/
theorem preambleLoadsOrFaults : Obligations.PreambleLoadsOrFaults := by
  refine fun u s => ⟨fun hwhole => ⟨_, exec_pre_of_whole u s hwhole, ?frame, fun c => ?channel⟩, exec_pre_of_short u s⟩
  case frame =>
    rw [units_length]
    exact loadAndAdvance_frame u s _
  case channel =>
    rw [chan_advanceInput, chan_loadPreambles]
    cases u.units[c.num]? with
    | none => rfl
    | some p => exact ⟨halfOf_toNat p.pLo p.pHi, rfl, rfl⟩

end Sys2Proof.Machine
end

section
/-! PROOF. O8 (42_block_framer R161 to R168): the head of the boundary step makes the first two tests; past them the units
are fetched, their reserved bytes select `STOP` or `PRE`, and what `PRE` does is O10. -/

namespace Sys2Proof.Machine

/-! ### What the boundary fetch finds, test by test -/

/-- The first test (42_block_framer R162). -/
theorem fetchBoundary_of_inputEnd (s : State) (h : s.remaining = 0) : fetchBoundary s = .instr .endInput := if_pos h

/-- The second test (42_block_framer R163); the preamble is out of reach also where `ICUR` stands beyond `ILEN`. -/
theorem fetchBoundary_of_outOfReach (s : State) (h0 : s.remaining ≠ 0) (h : s.remaining < 4 * s.nch.toNat) :
    fetchBoundary s = .raise .invalidInput := by
  rw [fetchBoundary, if_neg h0, if_pos h]

/-- Preamble units in reach are decoded before the short-block test (42_block_framer R161; log 14). -/
theorem fetchBoundary_of_inReach (s : State) (hn : s.nch.toNat = 1 ∨ s.nch.toNat = 2)
    (h : 4 * s.nch.toNat ≤ s.remaining) :
    fetchBoundary s = .instr (boundaryInstr (unitsAt s (modeOf s.nch) s.icur.toNat)) := by
  have hrem : s.remaining = (s.ilen.toNat : Int) - s.icur.toNat := rfl
  have hch := modeOf_channels s hn
  rw [fetchBoundary, if_neg (by omega), if_neg (by omega), fetchUnit_boundary s _ (by omega)]

/-! ### The step at a boundary -/

/-- Step selection at a block boundary (42_block_framer R160). -/
theorem fetch_of_boundary (s : State) (hb : s.icur.toNat % s.fsz.toNat = 0) : fetch s = fetchBoundary s :=
  if_pos (decide_eq_true hb)

section
variable {s : State} (hin : s.inputs = []) (hrun : s.runState = .run) (hb : s.icur.toNat % s.fsz.toNat = 0)
include hin hrun hb

/-- The step executes the instruction that the boundary fetch finds. -/
theorem step_of_fetchBoundary_instr {i : Instr} (h : fetchBoundary s = .instr i) : step s = exec i s := by
  rw [step_of_noInputs s hin, decoderStep_run s hrun, fetch_of_boundary s hb, h]

/-- The step enters the fault that the boundary fetch finds. -/
theorem step_of_fetchBoundary_raise {c : Cause} (h : fetchBoundary s = .raise c) : step s = .next (s.raise c) := by
  rw [step_of_noInputs s hin, decoderStep_run s hrun, fetch_of_boundary s hb, h]

end

/-! ### The preamble units of a boundary, channel by channel -/

/-- `ReservedAt` by the channels that `NCH` counts (42_block_framer R165). -/
theorem reservedAt_iff_channel (s : State) (a : Nat) (hn : s.nch.toNat = 1 ∨ s.nch.toNat = 2) :
    ReservedAt s a ↔ ∃ c : Channel, c.num < s.nch.toNat ∧ s.imemByte (a + 4 * c.num + 3) ≠ 0 := by
  constructor
  · rintro (h | ⟨h2, h⟩)
    · exact ⟨.ch0, by simp only [Channel.num]; omega, h⟩
    · exact ⟨.ch1, by simp only [Channel.num]; omega, h⟩
  · rintro ⟨c, hc, h⟩
    cases c with
    | ch0 => exact .inl h
    | ch1 => exact .inr ⟨by simp only [Channel.num] at hc; omega, h⟩

/-- The unit of each channel of the mode stands 4 bytes after the one before it (30_encoding R83). -/
theorem unitsAt_units_getElem? (s : State) (m : Mode) (a : Nat) (c : Channel) :
    (unitsAt s m a).units[c.num]? = if c.num < m.channels then some (preambleAt s (a + 4 * c.num)) else none := by
  cases m <;> cases c <;> rfl

/-- A 16-bit word as a signed number, by its sign bit. -/
theorem half_toInt (h : Half) : h.toInt = if h.toNat < 32768 then (h.toNat : Int) else (h.toNat : Int) - 65536 := by
  rw [BitVec.toInt_eq_toNat_cond]
  split <;> split <;> omega

/-! ### Which unit the reserved bytes select -/

/-- A reserved byte that is not zero makes the units a `STOP` (42_block_framer R165). -/
theorem boundaryInstr_of_reserved (s : State) (a : Nat) (hn : s.nch.toNat = 1 ∨ s.nch.toNat = 2) (h : ReservedAt s a) :
    boundaryInstr (unitsAt s (modeOf s.nch) a) = .stop (unitsAt s (modeOf s.nch) a) := by
  rw [boundaryInstr, (unitsAt_reserved s a hn).2 h]
  rfl

/-- Reserved bytes that are all zero make the units a `PRE` (42_block_framer R166). -/
theorem boundaryInstr_of_not_reserved (s : State) (a : Nat) (hn : s.nch.toNat = 1 ∨ s.nch.toNat = 2)
    (h : ¬ ReservedAt s a) : boundaryInstr (unitsAt s (modeOf s.nch) a) = .pre (unitsAt s (modeOf s.nch) a) := by
  have hzero : (unitsAt s (modeOf s.nch) a).allReservedZero = true := by
    rwa [← Bool.not_eq_false, unitsAt_reserved s a hn]
  exact if_pos hzero

/-- Settles O8, by the test that each path passes first; the two outcomes of `PRE` are those of O10. -/
theorem boundaryStepTestsInOrder : Obligations.BoundaryStepTestsInOrder := by
  intro s hin hrun hb hn rem rsvd
  have hres : ReservedAt s s.icur.toNat ↔ rsvd := reservedAt_iff_channel s s.icur.toNat hn
  have hch : (modeOf s.nch).channels = s.nch.toNat := modeOf_channels s hn
  have hpre : 4 * s.nch.toNat ≤ rem → ¬ rsvd → step s = exec (.pre (unitsAt s (modeOf s.nch) s.icur.toNat)) s := by
    intro hreach hzero
    rw [← boundaryInstr_of_not_reserved s _ hn (mt hres.1 hzero)]
    exact step_of_fetchBoundary_instr hin hrun hb (fetchBoundary_of_inReach s hn hreach)
  obtain ⟨hload, hshort⟩ := preambleLoadsOrFaults (unitsAt s (modeOf s.nch) s.icur.toNat) s
  refine ⟨fun h0 => ?inputEnd, fun h0 hlt => ?outOfReach, fun hreach hset => ?reserved,
    fun hreach hzero hlt => (hpre hreach hzero).trans (hshort hlt), fun hreach hzero hwhole => ?load⟩
  case inputEnd => exact step_of_fetchBoundary_instr hin hrun hb (fetchBoundary_of_inputEnd s h0)
  case outOfReach => exact step_of_fetchBoundary_raise hin hrun hb (fetchBoundary_of_outOfReach s h0 hlt)
  case reserved =>
    rw [step_of_fetchBoundary_instr hin hrun hb (fetchBoundary_of_inReach s hn hreach),
      boundaryInstr_of_reserved s _ hn (hres.2 hset)]
    rfl
  case load =>
    obtain ⟨t, hexec, hframe, hchan⟩ := hload hwhole
    rw [units_length, unitsAt_mode, hch] at hframe
    have hicur : t.icur = s.icur + BitVec.ofNat 32 (4 * s.nch.toNat) := by rw [hframe]
    refine ⟨t, (hpre hreach hzero).trans hexec, by rw [hicur]; exact hframe, ?cursor,
      fun c => ⟨fun hc => ?kept, fun hc => ?loaded⟩⟩
    case cursor =>
      have hrem : rem = (s.ilen.toNat : Int) - s.icur.toNat := rfl
      rw [hicur, add_ofNat_toNat, Nat.mod_eq_of_lt (by omega)]
    case kept =>
      have hnone := hchan c
      rwa [unitsAt_units_getElem?, if_neg (by omega)] at hnone
    case loaded =>
      have hsome := hchan c
      rw [unitsAt_units_getElem?, if_pos (by omega)] at hsome
      obtain ⟨hpred, hidx, hloaded⟩ := hsome
      refine ⟨?_, hidx, hloaded⟩
      rw [half_toInt, hpred]
      rfl

end Sys2Proof.Machine
end

section
/-! PROOF. O12 (43_nibble_interleaver R191): a data byte is a run of two nibbles, so the laws of `DB` say what the two
`DecodeSample` operations leave; the worked example is that effect with the two samples computed. -/

namespace Sys2Proof.Machine

/-- The step of a mono run off a boundary executes `DB` on the byte at `ICUR`. -/
theorem step_mono (s : State) (hturn : DecoderTurn s) (hrun : s.runState = .run)
    (hb : s.icur.toNat % s.fsz.toNat ≠ 0) (hn : s.nch.toNat = 1) (hl : s.icur.toNat < s.ilen.toNat) :
    step s = exec (.db (s.imemByte s.icur.toNat)) { s with inputs := s.inputs.tail } :=
  (step_decoder s hturn).trans (monoStep_eq { s with inputs := s.inputs.tail } hrun hb hn hl)

/-- What `DB` leaves, from the results of its two `DecodeSample` operations: the low nibble's, then the high one's from
the registers that the first left. -/
theorem exec_db_effect (b : Byte) (s : State) {first second : Half × ChannelState}
    (hfirst : decodeSample s.cfg (lowNibble b) s.ch0 = first)
    (hsecond : decodeSample s.cfg (highNibble b) first.2 = second) :
    ∃ t, exec (.db b) s = .next t ∧ t.ch0 = second.2 ∧
      t = { s with ch0 := t.ch0, omem := t.omem, olen := s.olen + 4, icur := s.icur + 1 } ∧
      t.omemByte s.olen.toNat = loByte first.1 ∧ t.omemByte (s.olen + 1).toNat = hiByte first.1 ∧
      t.omemByte (s.olen + 2).toNat = loByte second.1 ∧ t.omemByte (s.olen + 3).toNat = hiByte second.1 ∧
      ∀ a : Nat, (∀ k < 4, a ≠ (s.olen + BitVec.ofNat 32 k).toNat) → t.omemByte a = s.omemByte a := by
  subst hfirst hsecond
  obtain ⟨t, ht, hframe, hch0⟩ := execDb_frame b s
  obtain ⟨hlo0, hhi0⟩ := omemByte_execDb_at b s t ht 0 (by omega)
  obtain ⟨hlo1, hhi1⟩ := omemByte_execDb_at b s t ht 1 (by omega)
  rw [Nat.mul_zero, BitVec.add_zero] at hlo0
  exact ⟨t, ht, hch0, hframe, hlo0, hhi0, hlo1, hhi1, omemByte_execDb_of_ne b s t ht⟩

theorem ofNat_mod_eq_lowNibble (b : Byte) : BitVec.ofNat 4 (b.toNat % 16) = lowNibble b := by
  rw [← lowNibble_toNat, BitVec.ofNat_toNat, BitVec.setWidth_eq]

theorem ofNat_div_eq_highNibble (b : Byte) : BitVec.ofNat 4 (b.toNat / 16) = highNibble b := by
  rw [← highNibble_toNat, BitVec.ofNat_toNat, BitVec.setWidth_eq]

/-- The low nibble of the example of 43_nibble_interleaver R191: nibble 4 at predictor 0 and index 0. -/
theorem decodeSample_default_four (ch : ChannelState) (hpred : ch.pred = 0) (hidx : ch.idx = 0) :
    decodeSample defaultConfig 4 ch = (7, ⟨7, 2, true⟩) := by
  rw [decodeSample_congr defaultConfig 4 ch ⟨0, 0, false⟩ hpred hidx]
  decide

/-- The high nibble of the example: nibble 7 from what the low one left. -/
theorem decodeSample_default_seven : decodeSample defaultConfig 7 ⟨7, 2, true⟩ = (23, ⟨23, 10, true⟩) := by decide

/-- Settles O12, by the effect of `DB`; its worked example has the two samples 7 and 23. -/
theorem monoDataStep : Obligations.MonoDataStep := by
  refine ⟨step_mono, fun b s => ?effect, fun s hcfg hpred hidx => ?worked⟩
  case effect =>
    obtain ⟨t, ht, hch0, hframe, hlo0, hhi0, hlo1, hhi1, hkept⟩ := exec_db_effect b s rfl rfl
    rw [ofNat_mod_eq_lowNibble, ofNat_div_eq_highNibble]
    refine ⟨t, ht, hch0, hframe, ?_, ?_, ?_, ?_, hkept⟩
    · rw [hlo0, loByte_toNat]
    · rw [hhi0, hiByte_toNat]
    · rw [hlo1, loByte_toNat]
    · rw [hhi1, hiByte_toNat]
  case worked =>
    have hfirst : decodeSample s.cfg (lowNibble 0x74) s.ch0 = (7, ⟨7, 2, true⟩) := by
      rw [hcfg]; exact decodeSample_default_four s.ch0 hpred hidx
    have hsecond : decodeSample s.cfg (highNibble 0x74) ⟨7, 2, true⟩ = (23, ⟨23, 10, true⟩) := by
      rw [hcfg]; exact decodeSample_default_seven
    obtain ⟨t, ht, hch0, -, hlo0, hhi0, hlo1, hhi1, -⟩ := exec_db_effect 0x74 s hfirst hsecond
    exact ⟨t, ht, by rw [hch0], by rw [hch0], hlo0, hhi0, hlo1, hhi1⟩

end Sys2Proof.Machine
end

section
/-! PROOF. O13 (43_nibble_interleaver R196; 30_encoding R89): the formula for the nibbles of a group lists them in the
decoding order, so the laws of the two runs of a group say what `DG` leaves. -/

namespace Sys2Proof.Machine

/-! ### The nibbles of data bytes by the formula -/

theorem nibbleAt_cons_zero (b : Byte) (bs : List Byte) : nibbleAt (b :: bs) 0 = lowNibble b := rfl

theorem nibbleAt_cons_one (b : Byte) (bs : List Byte) : nibbleAt (b :: bs) 1 = highNibble b := rfl

/-- Two nibbles on is the next byte. -/
theorem nibbleAt_cons_add_two (b : Byte) (bs : List Byte) (i : Nat) : nibbleAt (b :: bs) (i + 2) = nibbleAt bs i := by
  have hdiv : (i + 2) / 2 = i / 2 + 1 := by omega
  have hmod : (i + 2) % 2 = i % 2 := by omega
  rw [nibbleAt, nibbleAt, hdiv, hmod, List.getD_cons_succ]

/-- The formula of 30_encoding R89 and the decoding order of 20_memory R57 list the same nibbles. -/
theorem map_nibbleAt_range (bs : List Byte) : (List.range (2 * bs.length)).map (nibbleAt bs) = nibblesOf bs := by
  induction bs with
  | nil => rfl
  | cons b bs ih =>
    rw [List.length_cons, Nat.mul_succ, List.range_succ_eq_map, List.range_succ_eq_map, nibblesOf, ← ih]
    simp [nibbleAt_cons_zero, nibbleAt_cons_one, nibbleAt_cons_add_two, Function.comp_def]

/-- The eight nibbles of one channel of a group. -/
theorem nibblesAt_four (b0 b1 b2 b3 : Byte) :
    (List.range 8).map (nibbleAt [b0, b1, b2, b3]) = nibblesOf [b0, b1, b2, b3] := map_nibbleAt_range [b0, b1, b2, b3]

/-! ### The step and the meaning -/

/-- The step of a stereo run off a boundary executes `DG` on the eight bytes at `ICUR`. -/
theorem step_stereo (s : State) (hturn : DecoderTurn s) (hrun : s.runState = .run)
    (hb : s.icur.toNat % s.fsz.toNat ≠ 0) (hn : s.nch.toNat = 2) (hl : s.icur.toNat + 8 ≤ s.ilen.toNat) :
    let g := fun j : Nat => s.imemByte (s.icur.toNat + j)
    step s = exec (.dg (g 0) (g 1) (g 2) (g 3) (g 4) (g 5) (g 6) (g 7)) { s with inputs := s.inputs.tail } :=
  (step_decoder s hturn).trans (stereoStep_eq { s with inputs := s.inputs.tail } hrun hb hn hl)

/-- An offset within `OMEM` in two parts. -/
theorem add_ofNat_add (a : Word) (m k : Nat) : a + BitVec.ofNat 32 (m + k) = a + BitVec.ofNat 32 m + BitVec.ofNat 32 k := by
  rw [BitVec.ofNat_add, BitVec.add_assoc]

/-- Settles O13, by the frame of `DG`, the bytes of its two runs, and the formula for their nibbles. -/
theorem stereoGroupStep : Obligations.StereoGroupStep := by
  refine ⟨step_stereo, ?_⟩
  intro g0 g1 g2 g3 g4 g5 g6 g7 s
  rw [nibblesAt_four, nibblesAt_four]
  intro left right
  obtain ⟨t, ht, hframe, hch0, hch1⟩ := execDg_frame g0 g1 g2 g3 g4 g5 g6 g7 s
  have hbyte := omemByte_execDg g0 g1 g2 g3 g4 g5 g6 g7 s t ht
  have hlenL : (nibblesOf [g0, g1, g2, g3]).length = 8 := nibblesOf_length _
  have hlenR : (nibblesOf [g4, g5, g6, g7]).length = 8 := nibblesOf_length _
  refine ⟨t, ht, hch0, hch1, hframe, fun i hi => ?written, fun a ha => ?kept⟩
  case written =>
    have hat := omemByte_groupRuns_at _ _ s hlenL hlenR i hi
    simp only [← hbyte, add_ofNat_add s.olen (4 * i)] at hat
    exact hat
  case kept => rw [hbyte, omemByte_groupRuns_of_ne _ _ s hlenL hlenR a ha]

end Sys2Proof.Machine
end

section
/-! PROOF. O18 (44_host_commands R210): the step carries out the pending move, and the two command bits of a `CTRL` write
decide which command it is. -/

namespace Sys2Proof.Machine

/-- A pending write of `CTRL` is what the step carries out. -/
theorem step_writeCtrl (s : State) (v : Word) (rest : List Input) (h : s.inputs = .writeReg 0 v :: rest) :
    step s = writeCtrl v { s with inputs := rest } :=
  step_host s (.writeReg 0 v) rest h (by simp)

/-- So is a pending read of a register. -/
theorem step_readReg (s : State) (n : Nat) (rest : List Input) (h : s.inputs = .readReg n :: rest) :
    step s = .next ({ s with inputs := rest }.reply (s.readReg n)) :=
  step_host s (.readReg n) rest h (by simp)

/-- Bit 1 makes the write a `RESET`, whatever the other bits. -/
theorem writeCtrl_of_resetBit (v : Word) (s : State) (h1 : v.getLsbD 1 = true) (x : BitVec 30) (startBit : Bool) :
    writeCtrl v s = exec (.reset x startBit) s := by
  rcases writeCtrl_cases v s with ⟨-, e⟩ | ⟨h, -, -⟩ | ⟨h, -, -⟩
  · exact e
  · exact nomatch h.symm.trans h1
  · exact nomatch h.symm.trans h1

/-- Bit 0 without bit 1 makes it a `START`, whatever the other bits. -/
theorem writeCtrl_of_startBit (v : Word) (s : State) (h1 : v.getLsbD 1 = false) (h0 : v.getLsbD 0 = true)
    (x : BitVec 30) : writeCtrl v s = exec (.start x) s := by
  rcases writeCtrl_cases v s with ⟨h, -⟩ | ⟨-, -, e⟩ | ⟨-, h, -⟩
  · exact nomatch h.symm.trans h1
  · exact e
  · exact nomatch h.symm.trans h0

/-- With neither bit it does nothing. -/
theorem writeCtrl_of_noCommand (v : Word) (s : State) (h1 : v.getLsbD 1 = false) (h0 : v.getLsbD 0 = false) :
    writeCtrl v s = .next s := by
  rcases writeCtrl_cases v s with ⟨h, -⟩ | ⟨-, h, -⟩ | ⟨-, -, e⟩
  · exact nomatch h.symm.trans h1
  · exact nomatch h.symm.trans h0
  · exact e

/-- Settles O18, by the command that the two bits of a `CTRL` write select. -/
theorem ctrlWriteIsACommand : Obligations.CtrlWriteIsACommand := by
  refine ⟨fun v rest s h => ?write, fun rest s h => step_readReg s 0 rest h⟩
  case write =>
    rw [step_writeCtrl s v rest h]
    exact ⟨writeCtrl_of_resetBit v _, writeCtrl_of_startBit v _, writeCtrl_of_noCommand v _⟩

end Sys2Proof.Machine
end

section
/-! PROOF. O15, O16, O17 (44_host_commands R211 to R213): `START` where it is accepted and where it is ignored, and
`RESET`. The worked example of R211 is a `START` after three configuration writes. -/

namespace Sys2Proof.Machine

/-- No state both accepts and ignores a `START`. -/
theorem not_run_or_fault (s : State) (hr : s.runState = .idle ∨ s.runState = .done) :
    ¬ (s.runState = .run ∨ s.runState = .fault) := by
  rcases hr with h | h <;> simp [h]

/-- `START` is ignored in a run and in `FAULT` (44_host_commands R212). -/
theorem exec_start_of_ignored (x : BitVec 30) (s : State) (h : s.runState = .run ∨ s.runState = .fault) :
    exec (.start x) s = .next s := by
  rcases execStart_cases x s with ⟨-, e⟩ | ⟨hr, -, -⟩ | ⟨hr, -, -⟩
  · exact e
  · exact absurd h (not_run_or_fault s hr)
  · exact absurd h (not_run_or_fault s hr)

/-- An accepted `START` with a legal configuration begins the run (44_host_commands R211). -/
theorem exec_start_of_legal (x : BitVec 30) (s : State) (hr : s.runState = .idle ∨ s.runState = .done)
    (hl : LegalConfig s) : exec (.start x) s = .next { s.beginRun with runState := .run, cause := .noCause } := by
  rcases execStart_cases x s with ⟨h, -⟩ | ⟨-, -, e⟩ | ⟨-, h, -⟩
  · exact absurd h (not_run_or_fault s hr)
  · exact e
  · exact absurd hl h

/-- With one that is not legal it raises the fault (44_host_commands R211). -/
theorem exec_start_of_illegal (x : BitVec 30) (s : State) (hr : s.runState = .idle ∨ s.runState = .done)
    (hl : ¬ LegalConfig s) : exec (.start x) s = .next (s.beginRun.raise .invalidConfig) := by
  rcases execStart_cases x s with ⟨h, -⟩ | ⟨-, h, -⟩ | ⟨-, -, e⟩
  · exact absurd h (not_run_or_fault s hr)
  · exact absurd h hl
  · exact e

/-- The worked example of 44_host_commands R211 after its configuration writes, with the `CTRL` write pending. -/
def exampleConfigured : State :=
  { State.reset with nch := 1, fsz := 8, ilen := 8, inputs := [.writeReg 0 1] }

/-- The three configuration writes of the example. -/
theorem run_exampleWrites :
    Host.Core.run Sys2Proof.core 3
      { State.reset with inputs := [.writeReg 2 1, .writeReg 3 8, .writeReg 4 8, .writeReg 0 1] } =
      .next exampleConfigured := rfl

/-- The example's configuration: one channel, blocks of 8 bytes, 8 input bytes. -/
theorem exampleConfigured_legal : LegalConfig exampleConfigured :=
  (configLegal_iff exampleConfigured).1 (by decide)

/-- The example at the end: the run begun and no move pending. -/
def exampleStarted : State :=
  { { exampleConfigured with inputs := [] }.beginRun with runState := .run, cause := .noCause }

/-- Its `CTRL` write of 1 begins the run. -/
theorem step_exampleConfigured : step exampleConfigured = .next exampleStarted := by
  rw [step_writeCtrl exampleConfigured 1 [] rfl, writeCtrl_of_startBit 1 _ (by decide) (by decide) 0]
  exact exec_start_of_legal 0 { exampleConfigured with inputs := [] } (.inl rfl) exampleConfigured_legal

/-- Settles O15, by the two outcomes of an accepted `START`. -/
theorem startBeginsARunOrFaults : Obligations.StartBeginsARunOrFaults := by
  refine ⟨fun x s hr => ?accepted, exampleStarted, ?worked, rfl, rfl, rfl⟩
  case accepted =>
    by_cases hl : LegalConfig s
    · exact ⟨_, exec_start_of_legal x s hr hl, rfl, rfl, rfl, fun _ => ⟨rfl, rfl⟩, absurd hl⟩
    · exact ⟨_, exec_start_of_illegal x s hr hl, rfl, rfl, rfl, fun h => absurd h hl, fun _ => ⟨rfl, rfl⟩⟩
  case worked => exact (run_add 3 1 _ _ run_exampleWrites).trans (run_succ 0 _ _ step_exampleConfigured)

/-- Settles O16, by the first outcome of `START`. -/
theorem startIsIgnoredInRunAndFault : Obligations.StartIsIgnoredInRunAndFault := exec_start_of_ignored

/-- `RESET` gives every register its reset value and changes nothing else (44_host_commands R213). -/
theorem exec_reset (x : BitVec 30) (startBit : Bool) (s : State) :
    exec (.reset x startBit) s = .next s.resetRegisters := rfl

/-- Settles O17, by the laws of `resetRegisters`; the state after power-on holds the same values. -/
theorem resetGivesEveryRegisterItsResetValue : Obligations.ResetGivesEveryRegisterItsResetValue := by
  refine fun x startBit s => ⟨s.resetRegisters, exec_reset x startBit s, fun u hu => ?registers, rfl⟩
  case registers =>
    rcases hu with rfl | rfl
    · simp [ChannelState.reset]
    · decide

end Sys2Proof.Machine
end

section
/-! PROOF. O22 (60_exceptions R258): what the decoder's turn, a `START` and a `RESET` do there is one equation each for
the step; the inversion of the host's moves gives that no other move writes the status. -/

namespace Sys2Proof.Machine

/-- The decoder's turn outside a run only takes the entry that left it the turn (10_state R33). -/
theorem step_decoder_still (s : State) (hturn : DecoderTurn s) (hr : s.runState ≠ .run) :
    step s = .next { s with inputs := s.inputs.tail } :=
  (step_decoder s hturn).trans (decoderStep_still { s with inputs := s.inputs.tail } hr)

/-- A pending `START` that is ignored is only taken off the pending moves (44_host_commands R212). -/
theorem step_start_of_ignored (s : State) (hstart : StartNext s) (hr : s.runState = .run ∨ s.runState = .fault) :
    step s = .next { s with inputs := s.inputs.tail } := by
  obtain ⟨v, rest, hin, h1, h0⟩ := hstart
  rw [step_writeCtrl s v rest hin, writeCtrl_of_startBit v _ h1 h0 0, hin]
  exact exec_start_of_ignored 0 { s with inputs := rest } hr

/-- A pending `RESET` is carried out in every state (44_host_commands R213). -/
theorem step_reset (s : State) (hreset : ResetNext s) :
    step s = .next { s with inputs := s.inputs.tail }.resetRegisters := by
  obtain ⟨v, rest, hin, h1⟩ := hreset
  rw [step_writeCtrl s v rest hin, writeCtrl_of_resetBit v _ h1 0 false, hin]
  exact exec_reset 0 false { s with inputs := rest }

/-- A step answers one next state at most. -/
theorem next_unique {s t u : State} (ht : step s = .next t) (hu : step s = .next u) : t = u :=
  next_inj (hu.symm.trans ht)

/-- No state in `FAULT` accepts a `START`. -/
theorem not_accepting_of_fault (s : State) (hf : s.runState = .fault) : ¬ (s.runState = .idle ∨ s.runState = .done) :=
  fun hr => not_run_or_fault s hr (.inr hf)

/-- A nibble presented alone changes no status. -/
theorem decodeOn_status (c : Channel) (n : Nibble) (s : State) :
    (decodeOn c n s).runState = s.runState ∧ (decodeOn c n s).cause = s.cause := by
  rw [decodeOn_frame]
  exact ⟨setChan_runState s c _, setChan_cause s c _⟩

/-- In `FAULT` a step other than a `RESET` keeps the status: the decoder stands still, a `START` is not accepted, and no
other move of the host writes the status. -/
theorem step_keeps_fault (s t : State) (h : step s = .next t) (hf : s.runState = .fault) (hreset : ¬ ResetNext s) :
    t.runState = .fault ∧ t.cause = s.cause := by
  rw [← hf]
  by_cases hturn : DecoderTurn s
  · rw [next_unique h (step_decoder_still s hturn (by simp [hf]))]
    exact ⟨rfl, rfl⟩
  · rcases step_host_cases s t h hturn with ⟨hres, -⟩ | ⟨-, hr, -⟩ | ⟨-, hr, -⟩ | rfl | ⟨n, v, rfl⟩ | ⟨a, b, -, -, rfl⟩ |
      ⟨v, rfl⟩ | ⟨c, n, -, rfl⟩
    · exact absurd hres hreset
    · exact absurd hr (not_accepting_of_fault s hf)
    · exact absurd hr (not_accepting_of_fault s hf)
    · exact ⟨rfl, rfl⟩
    · exact ⟨writeConfig_runState _ n v, writeConfig_cause _ n v⟩
    · exact ⟨imemWrite_runState _ a b, imemWrite_cause _ a b⟩
    · exact ⟨reply_runState _ v, reply_cause _ v⟩
    · exact decodeOn_status c n _

/-- Settles O22, by the step laws of the decoder's turn, `START` and `RESET`. -/
theorem faultIsLeftOnlyByReset : Obligations.FaultIsLeftOnlyByReset := by
  refine fun s t h hf => ⟨step_keeps_fault s t h hf, fun hreset => ?reset, fun hidle => ?nothing⟩
  case reset =>
    rw [next_unique h (step_reset s hreset)]
    exact ⟨rfl, rfl⟩
  case nothing =>
    rcases hidle with hturn | hstart
    · exact next_unique h (step_decoder_still s hturn (by simp [hf]))
    · exact next_unique h (step_start_of_ignored s hstart (.inr hf))

end Sys2Proof.Machine
end

section
/-! PROOF. O28 to O31 (30_encoding R81 to R94; 44_host_commands R210): the decoder and the encoder are inverse at each of
the five kinds of place, said once per place and assembled along the constructors. -/

namespace Sys2Proof

/-! ### A nibble at a lane -/

/-- The byte that stands for a nibble holds it low, with a zero high nibble (log 9). -/
theorem nibbleByte_nibbles (n : Nibble) :
    lowNibble (BitVec.ofNat 8 n.toNat) = n ∧ highNibble (BitVec.ofNat 8 n.toNat) = 0 := by
  revert n; decide

/-- A byte whose high nibble is zero stands for its low nibble. -/
theorem nibbleByte_lowNibble (b : Byte) (h : highNibble b = 0) : BitVec.ofNat 8 (lowNibble b).toNat = b := by
  have hhigh : b.toNat / 16 = 0 := by rw [← Machine.highNibble_toNat, h]; rfl
  have hb : b.toNat < 256 := b.isLt
  apply BitVec.eq_of_toNat_eq
  rw [Machine.lowNibble_toNat, BitVec.toNat_ofNat]
  omega

/-- The encoding of a nibble code (30_encoding R91). -/
theorem encode_nibbleInstr (c : Channel) (n : Nibble) : encode (nibbleInstr c n) = [BitVec.ofNat 8 n.toNat] := by
  cases c <;> revert n <;> decide

/-- At a lane the byte of a nibble is read as its code (30_encoding R91). -/
theorem decode_lane (c : Channel) (n : Nibble) (rest : List Byte) :
    decode (.lane c) (BitVec.ofNat 8 n.toNat :: rest) = .instr (nibbleInstr c n) rest := by
  obtain ⟨hlow, hhigh⟩ := nibbleByte_nibbles n
  simp only [decode, hlow, hhigh, if_true]

/-- What an encoded nibble code decodes to. -/
theorem decode_encode_nibbleInstr (c : Channel) (n : Nibble) (rest : List Byte) :
    decode (placeOf (nibbleInstr c n)) (encode (nibbleInstr c n) ++ rest) = .instr (nibbleInstr c n) rest := by
  rw [placeOf_nibbleInstr, encode_nibbleInstr]
  exact decode_lane c n rest

/-! ### Preamble units at a boundary -/

/-- At a boundary the bytes of preamble units are read as `PRE` or `STOP` of these units (30_encoding R82, R83). -/
theorem decode_boundary (u : PreUnits) (rest : List Byte) :
    decode (.boundary u.mode) (u.units.flatMap Preamble.bytes ++ rest) = .instr (boundaryInstr u) rest := by
  cases u <;> rfl

theorem boundaryInstr_of_allZero (u : PreUnits) (h : u.allReservedZero = true) : boundaryInstr u = .pre u := if_pos h

theorem boundaryInstr_of_not_allZero (u : PreUnits) (h : u.allReservedZero = false) : boundaryInstr u = .stop u := by
  rw [boundaryInstr, h]; rfl

/-- `PRE` and `STOP` of the same units have the same place and the same bytes. -/
theorem boundaryInstr_placed (u : PreUnits) :
    placeOf (boundaryInstr u) = .boundary u.mode ∧ encode (boundaryInstr u) = u.units.flatMap Preamble.bytes := by
  rcases boundaryInstr_cases u with ⟨-, e⟩ | ⟨-, e⟩ <;> rw [e] <;> exact ⟨rfl, rfl⟩

/-- The units read at a boundary are of its mode, and their bytes are the ones read. -/
theorem bytes_of_decodePreUnits {m : Mode} {bs rest : List Byte} {u : PreUnits}
    (h : decodePreUnits m bs = some (u, rest)) : u.mode = m ∧ u.units.flatMap Preamble.bytes ++ rest = bs := by
  unfold decodePreUnits at h
  split at h <;> cases h <;> exact ⟨rfl, rfl⟩

/-! ### Data units in a sample region -/

/-- The unit read in a sample region stands there, and its bytes are the ones read. -/
theorem bytes_of_decodeData {m : Mode} {bs rest : List Byte} {i : Instr} (h : decodeData m bs = some (i, rest)) :
    i.wf = true ∧ placeOf i = .region m ∧ encode i ++ rest = bs := by
  unfold decodeData at h
  split at h <;> cases h <;> exact ⟨rfl, rfl, rfl⟩

/-! ### Commands -/

/-- A command word with the command bits 01 is a `START` of the 30 bits above them (44_host_commands R210). -/
theorem decodeCtrl_startWord (x : BitVec 30) : decodeCtrl (x ++ (0b01 : BitVec 2)) = some (.start x) := by
  have hlow := ctrlWord_low x 0b01
  unfold decodeCtrl
  rw [hlow 1 (by decide), hlow 0 (by decide), ctrlWord_high]
  rfl

/-- A command word with bit 1 set is a `RESET` of the 30 bits above and of bit 0 (44_host_commands R210). -/
theorem decodeCtrl_resetWord (x : BitVec 30) (startBit : Bool) :
    decodeCtrl (x ++ (BitVec.ofBool true ++ BitVec.ofBool startBit)) = some (.reset x startBit) := by
  have hlow := ctrlWord_low x (BitVec.ofBool true ++ BitVec.ofBool startBit)
  unfold decodeCtrl
  rw [hlow 1 (by decide), hlow 0 (by decide), ctrlWord_high]
  cases startBit <;> rfl

/-- The command read from a word is well-formed, stands at `CTRL`, and its bytes are the word's. -/
theorem bytes_of_decodeCtrl {v : Word} {i : Instr} (h : decodeCtrl v = some i) :
    i.wf = true ∧ placeOf i = .ctrl ∧ encode i = bytesOfWord v := by
  have hsplit := ctrlWord_split v
  rw [commandBits] at hsplit
  rcases decodeCtrl_cases v with ⟨h1, e⟩ | ⟨h1, h0, e⟩ | ⟨-, -, e⟩
  · obtain rfl := Option.some.inj (e.symm.trans h)
    rw [h1] at hsplit
    exact ⟨rfl, rfl, congrArg bytesOfWord hsplit⟩
  · obtain rfl := Option.some.inj (e.symm.trans h)
    rw [h1, h0] at hsplit
    exact ⟨rfl, rfl, congrArg bytesOfWord hsplit⟩
  · exact nomatch e.symm.trans h

/-! ### The obligations -/

/-- Settles O28, by the law of the place that each constructor stands at. -/
theorem decodeOfEncodeIsTheInstruction : Obligations.DecodeOfEncodeIsTheInstruction := by
  intro i rest hwf
  cases i with
  | n0 c => exact decode_encode_nibbleInstr c 0 rest
  | n1 c => exact decode_encode_nibbleInstr c 1 rest
  | n2 c => exact decode_encode_nibbleInstr c 2 rest
  | n3 c => exact decode_encode_nibbleInstr c 3 rest
  | n4 c => exact decode_encode_nibbleInstr c 4 rest
  | n5 c => exact decode_encode_nibbleInstr c 5 rest
  | n6 c => exact decode_encode_nibbleInstr c 6 rest
  | n7 c => exact decode_encode_nibbleInstr c 7 rest
  | n8 c => exact decode_encode_nibbleInstr c 8 rest
  | n9 c => exact decode_encode_nibbleInstr c 9 rest
  | nA c => exact decode_encode_nibbleInstr c 10 rest
  | nB c => exact decode_encode_nibbleInstr c 11 rest
  | nC c => exact decode_encode_nibbleInstr c 12 rest
  | nD c => exact decode_encode_nibbleInstr c 13 rest
  | nE c => exact decode_encode_nibbleInstr c 14 rest
  | nF c => exact decode_encode_nibbleInstr c 15 rest
  | pre u => exact (decode_boundary u rest).trans (by rw [boundaryInstr_of_allZero u hwf])
  | stop u =>
    have hset : u.allReservedZero = false := by simpa [Instr.wf] using hwf
    exact (decode_boundary u rest).trans (by rw [boundaryInstr_of_not_allZero u hset])
  | db b => rfl
  | dg g0 g1 g2 g3 g4 g5 g6 g7 => rfl
  | endInput => rfl
  | start x => exact (decode_ctrl _ rest).trans (by rw [decodeCtrl_startWord])
  | reset x startBit => exact (decode_ctrl _ rest).trans (by rw [decodeCtrl_resetWord])

/-- Settles O29, by the unit that each place's decoder reads. -/
theorem encodeOfDecodeIsTheBytes : Obligations.EncodeOfDecodeIsTheBytes := by
  intro p bs rest i h
  cases p with
  | finished => cases h; exact ⟨rfl, rfl, rfl⟩
  | boundary m =>
    cases hu : decodePreUnits m bs with
    | none => simp [decode, hu] at h
    | some r =>
      obtain ⟨u, rest'⟩ := r
      simp only [decode, hu] at h
      cases h
      obtain ⟨rfl, hbytes⟩ := bytes_of_decodePreUnits hu
      obtain ⟨hplace, henc⟩ := boundaryInstr_placed u
      exact ⟨wf_boundaryInstr u, hplace, by rw [henc, hbytes]⟩
  | region m =>
    cases hd : decodeData m bs with
    | none => simp [decode, hd] at h
    | some r =>
      obtain ⟨i', rest'⟩ := r
      simp only [decode, hd] at h
      cases h
      exact bytes_of_decodeData hd
  | lane c =>
    cases bs with
    | nil => cases h
    | cons b bs =>
      by_cases hhigh : highNibble b = 0
      · simp only [decode, hhigh, if_true] at h
        cases h
        refine ⟨wf_nibbleInstr c _, placeOf_nibbleInstr c _, ?_⟩
        rw [encode_nibbleInstr, nibbleByte_lowNibble b hhigh]
        rfl
      · simp only [decode, hhigh, if_false] at h
        cases h
  | ctrl =>
    match bs, h with
    | b0 :: b1 :: b2 :: b3 :: tail, h =>
      cases hc : decodeCtrl (wordOf b0 b1 b2 b3) with
      | none => simp [decode, hc] at h
      | some i' =>
        simp only [decode, hc] at h
        cases h
        obtain ⟨hwf, hplace, henc⟩ := bytes_of_decodeCtrl hc
        exact ⟨hwf, hplace, by rw [henc, bytes_wordOf]; rfl⟩

/-- Any bytes, enough for the preamble units of a mode, are read as such units (30_encoding R94). -/
theorem decodePreUnits_of_length (m : Mode) (bs : List Byte) (h : 4 * m.channels ≤ bs.length) :
    ∃ u : PreUnits, u.mode = m ∧ decodePreUnits m bs = some (u, bs.drop (4 * m.channels)) := by
  cases m with
  | mono =>
    match bs, h with
    | a0 :: a1 :: a2 :: a3 :: rest, _ => exact ⟨_, rfl, rfl⟩
  | stereo =>
    match bs, h with
    | a0 :: a1 :: a2 :: a3 :: b0 :: b1 :: b2 :: b3 :: rest, _ => exact ⟨_, rfl, rfl⟩

/-- Settles O30, by reading the first bytes of the list as the unit of the place. -/
theorem noStreamByteIsIllegal : Obligations.NoStreamByteIsIllegal := by
  refine ⟨fun m bs h => ?boundary, fun bs h => ?mono, fun bs h => ?stereo, fun c n => decode_lane c n []⟩
  case boundary =>
    obtain ⟨u, hmode, hu⟩ := decodePreUnits_of_length m bs h
    refine ⟨u, hmode, ?_⟩
    rcases boundaryInstr_cases u with ⟨-, e⟩ | ⟨-, e⟩
    · exact .inl (by simp only [decode, hu, e])
    · exact .inr (by simp only [decode, hu, e])
  case mono =>
    match bs, h with
    | b :: rest, _ => exact ⟨b, rfl⟩
  case stereo =>
    match bs, h with
    | g0 :: g1 :: g2 :: g3 :: g4 :: g5 :: g6 :: g7 :: rest, _ => exact ⟨g0, g1, g2, g3, g4, g5, g6, g7, rfl⟩

/-- Settles O31: each word is closed, and the decoder computes its instruction. -/
theorem writtenOutWordsDecode : Obligations.WrittenOutWordsDecode :=
  ⟨by decide, by decide, by decide, by decide, by decide, by decide, by decide⟩

end Sys2Proof
end

section
/-! PROOF. O32, O33, O34 (42_block_framer R170 to R172): what a decoder step can do in a run that meets the invariant, said
once; each of its outcomes, and each move of the host, keeps the invariant, which holds after reset and so in every
reachable state. -/

namespace Sys2Proof.Machine

/-! ### The parts of the run invariant -/

theorem RunInvariant.legal {s : State} (h : RunInvariant s) : LegalConfig s := h.1

theorem RunInvariant.block {s : State} (h : RunInvariant s) : BlockInvariant s := h.2.2.1

/-- A run is mono or stereo (10_state R31). -/
theorem RunInvariant.nch {s : State} (h : RunInvariant s) : s.nch.toNat = 1 ∨ s.nch.toNat = 2 := h.legal.1

/-- The cursor of a run does not pass `ILEN` (42_block_framer R172). -/
theorem RunInvariant.icur_le {s : State} (h : RunInvariant s) : s.icur.toNat ≤ s.ilen.toNat := h.2.1

/-- `OLEN` in a run is four times a number of bytes (10_state R28). -/
theorem RunInvariant.olen_even {s : State} (h : RunInvariant s) : s.olen.toNat % 4 = 0 := by
  obtain ⟨-, -, -, ho⟩ := h
  omega

/-! ### A data step -/

/-- How many samples of each channel a data unit holds (43_nibble_interleaver R191, R196). -/
def unitFrames : Mode → Nat
  | .mono => 2
  | .stereo => 8

/-- The nibbles of channel `c` in the data unit at `ICUR`, in time order (30_encoding R88, R89). -/
def unitNibbles (s : State) (c : Channel) : List Nibble :=
  match modeOf s.nch with
  | .mono => nibblesOf [s.imemByte s.icur.toNat]
  | .stereo => nibblesOf [s.imemByte (s.icur.toNat + 4 * c.num), s.imemByte (s.icur.toNat + 4 * c.num + 1),
      s.imemByte (s.icur.toNat + 4 * c.num + 2), s.imemByte (s.icur.toNat + 4 * c.num + 3)]

/-- What a data step does to the channels of the run and to `OMEM`, in either mode (43_nibble_interleaver R191, R196): sample
`i` of channel `c` stands `2 * NCH * i + 2 * c` bytes after the old `OLEN`. -/
structure DataStep (s t : State) : Prop where
  frame : DataStepFrame (unitBytes (modeOf s.nch)) s t
  channels : ∀ c : Channel, c.num < s.nch.toNat →
    t.chan c = (channelSamples s.cfg (unitNibbles s c) (s.chan c)).2
  written : ∀ (c : Channel) (i : Nat), c.num < s.nch.toNat → i < unitFrames (modeOf s.nch) →
    t.omemByte (s.olen.toNat + (2 * s.nch.toNat * i + 2 * c.num)) =
        loByte ((channelSamples s.cfg (unitNibbles s c) (s.chan c)).1.getD i 0) ∧
    t.omemByte (s.olen.toNat + (2 * s.nch.toNat * i + 2 * c.num) + 1) =
        hiByte ((channelSamples s.cfg (unitNibbles s c) (s.chan c)).1.getD i 0)
  kept : ∀ a : Nat, a < s.olen.toNat ∨ s.olen.toNat + 4 * unitBytes (modeOf s.nch) ≤ a → t.omemByte a = s.omemByte a
  omem_wf : Memory.wf s.omem → Memory.wf t.omem

/-- Inside a block of a run, a data unit stays in its block and its output in the 32-bit offsets. -/
theorem dataUnit_bounds (s : State) (h : RunInvariant s) (hb : s.icur.toNat % s.fsz.toNat ≠ 0) :
    0 < unitBytes (modeOf s.nch) ∧ s.icur.toNat % s.fsz.toNat + unitBytes (modeOf s.nch) ≤ s.fsz.toNat ∧
    s.icur.toNat + unitBytes (modeOf s.nch) ≤ s.ilen.toNat ∧
    s.olen.toNat + 4 * unitBytes (modeOf s.nch) ≤ 4 * s.ilen.toNat ∧ s.ilen.toNat ≤ 2 ^ 30 - 1 := by
  obtain ⟨-, hlt, heq, hend, h8⟩ := region_bounds s h hb
  have hol := olen_le s h
  obtain ⟨⟨hn, -, -, hil⟩, -⟩ := h
  rcases hn with h1 | h2
  · rw [modeOf_mono s h1]
    simp only [unitBytes]
    omega
  · have := h8 h2
    rw [modeOf_stereo s h2]
    simp only [unitBytes]
    omega

/-- An offset beside the `n` from `base` on is none of them, where these do not come round the address space. -/
theorem ne_add_ofNat_of_beside (base : Word) (n a : Nat) (hfit : base.toNat + n ≤ 2 ^ 32)
    (ha : a < base.toNat ∨ base.toNat + n ≤ a) : ∀ k < n, a ≠ (base + BitVec.ofNat 32 k).toNat := by
  intro k hk
  rw [add_ofNat_toNat]
  omega

/-- The mono data step of a run. -/
theorem dataStep_mono (s : State) (h : RunInvariant s) (hb : s.icur.toNat % s.fsz.toNat ≠ 0) (hn : s.nch.toNat = 1) :
    ∃ t, execDb (s.imemByte s.icur.toNat) s = .next t ∧ DataStep s t := by
  obtain ⟨-, -, -, holen, hilen⟩ := dataUnit_bounds s h hb
  have hmode := modeOf_mono s hn
  rw [hmode] at holen
  simp only [unitBytes] at holen
  obtain ⟨t, ht, hframe, hch0⟩ := execDb_frame (s.imemByte s.icur.toNat) s
  have hns : ∀ c, unitNibbles s c = nibblesOf [s.imemByte s.icur.toNat] := fun c => by simp only [unitNibbles, hmode]
  refine ⟨t, ht, ?frame, fun c hc => ?channels, fun c i hc hi => ?written, fun a ha => ?kept, wf_execDb _ s t ht⟩
  case frame => rw [hmode]; unfold DataStepFrame; rw [hframe]; rfl
  case channels =>
    cases c with
    | ch0 => rw [hns]; exact hch0
    | ch1 => exact absurd hc (by rw [hn]; decide)
  case written =>
    cases c with
    | ch0 =>
      rw [hmode] at hi
      simp only [unitFrames] at hi
      obtain ⟨hlo, hhi⟩ := omemByte_execDb_at _ s t ht i hi
      rw [add_ofNat_toNat, Nat.mod_eq_of_lt (by omega)] at hlo hhi
      rw [hns, hn]
      exact ⟨hlo, hhi⟩
    | ch1 => exact absurd hc (by rw [hn]; decide)
  case kept =>
    rw [hmode] at ha
    exact omemByte_execDb_of_ne _ s t ht a (ne_add_ofNat_of_beside s.olen 4 a (by omega) ha)

/-- The stereo data step of a run. -/
theorem dataStep_stereo (s : State) (h : RunInvariant s) (hb : s.icur.toNat % s.fsz.toNat ≠ 0) (hn : s.nch.toNat = 2) :
    ∃ t, execDg (s.imemByte s.icur.toNat) (s.imemByte (s.icur.toNat + 1)) (s.imemByte (s.icur.toNat + 2))
        (s.imemByte (s.icur.toNat + 3)) (s.imemByte (s.icur.toNat + 4)) (s.imemByte (s.icur.toNat + 5))
        (s.imemByte (s.icur.toNat + 6)) (s.imemByte (s.icur.toNat + 7)) s = .next t ∧ DataStep s t := by
  obtain ⟨-, -, -, holen, hilen⟩ := dataUnit_bounds s h hb
  have hmode := modeOf_stereo s hn
  rw [hmode] at holen
  simp only [unitBytes] at holen
  obtain ⟨t, ht, hframe, hch0, hch1⟩ := execDg_frame (s.imemByte s.icur.toNat) (s.imemByte (s.icur.toNat + 1))
    (s.imemByte (s.icur.toNat + 2)) (s.imemByte (s.icur.toNat + 3)) (s.imemByte (s.icur.toNat + 4))
    (s.imemByte (s.icur.toNat + 5)) (s.imemByte (s.icur.toNat + 6)) (s.imemByte (s.icur.toNat + 7)) s
  have hleft : unitNibbles s .ch0 = nibblesOf [s.imemByte s.icur.toNat, s.imemByte (s.icur.toNat + 1),
      s.imemByte (s.icur.toNat + 2), s.imemByte (s.icur.toNat + 3)] := by simp only [unitNibbles, hmode]; rfl
  have hright : unitNibbles s .ch1 = nibblesOf [s.imemByte (s.icur.toNat + 4), s.imemByte (s.icur.toNat + 5),
      s.imemByte (s.icur.toNat + 6), s.imemByte (s.icur.toNat + 7)] := by simp only [unitNibbles, hmode]; rfl
  rw [← hleft] at hch0
  rw [← hright] at hch1
  have hbytes := omemByte_execDg _ _ _ _ _ _ _ _ s t ht
  rw [← hleft, ← hright] at hbytes
  have hlenL : (unitNibbles s .ch0).length = 8 := by rw [hleft, nibblesOf_length]; rfl
  have hlenR : (unitNibbles s .ch1).length = 8 := by rw [hright, nibblesOf_length]; rfl
  refine ⟨t, ht, ?frame, fun c _ => ?channels, fun c i _ hi => ?written, fun a ha => ?kept,
    wf_execDg _ _ _ _ _ _ _ _ s t ht⟩
  case frame => rw [hmode]; unfold DataStepFrame; rw [hframe]; rfl
  case channels =>
    cases c with
    | ch0 => exact hch0
    | ch1 => exact hch1
  case written =>
    rw [hmode] at hi
    simp only [unitFrames] at hi
    obtain ⟨h0, h1, h2, h3⟩ := omemByte_groupRuns_at _ _ s hlenL hlenR i hi
    rw [← hbytes, add_ofNat_toNat, Nat.mod_eq_of_lt (by omega)] at h0 h1 h2 h3
    rw [hn]
    cases c with
    | ch0 => exact ⟨h0, h1⟩
    | ch1 => exact ⟨h2, h3⟩
  case kept =>
    rw [hmode] at ha
    rw [hbytes]
    exact omemByte_groupRuns_of_ne _ _ s hlenL hlenR a (ne_add_ofNat_of_beside s.olen 32 a (by omega) ha)

/-- Inside a block of a run the decoder takes the data step of the mode. -/
theorem decoderStep_region (s : State) (hr : s.runState = .run) (h : RunInvariant s)
    (hb : s.icur.toNat % s.fsz.toNat ≠ 0) : ∃ t, decoderStep s = .next t ∧ DataStep s t := by
  obtain ⟨-, -, hin, -⟩ := dataUnit_bounds s h hb
  rcases h.nch with h1 | h2
  · rw [modeOf_mono s h1] at hin
    rw [monoStep_eq s hr hb h1 hin]
    exact dataStep_mono s h hb h1
  · rw [modeOf_stereo s h2] at hin
    rw [stereoStep_eq s hr hb h2 hin]
    exact dataStep_stereo s h hb h2

/-- How a data step of a run moves the two cursors. -/
theorem DataStep.cursors {s t : State} (hd : DataStep s t) (h : RunInvariant s) (hb : s.icur.toNat % s.fsz.toNat ≠ 0) :
    t.icur.toNat = s.icur.toNat + unitBytes (modeOf s.nch) ∧
    t.olen.toNat = s.olen.toNat + 4 * unitBytes (modeOf s.nch) := by
  obtain ⟨-, -, hin, hout, hil⟩ := dataUnit_bounds s h hb
  obtain ⟨hicur, holen⟩ := hd.frame.cursors
  rw [hicur, holen, add_ofNat_toNat, add_ofNat_toNat, Nat.mod_eq_of_lt (by omega), Nat.mod_eq_of_lt (by omega)]
  exact ⟨rfl, rfl⟩

/-- A data step keeps the run invariant. -/
theorem DataStep.runInvariant {s t : State} (hd : DataStep s t) (h : RunInvariant s)
    (hb : s.icur.toNat % s.fsz.toNat ≠ 0) : RunInvariant t := by
  obtain ⟨hpos, hfit, -⟩ := dataUnit_bounds s h hb
  obtain ⟨hicur, holen⟩ := hd.cursors h hb
  obtain ⟨-, -, hnch, hfsz, hilen, -⟩ := hd.frame.runGoesOn.fields
  refine runInvariant_data s t _ h hb hpos hfit (fun h2 => ?stereo) hnch hfsz hilen hicur holen fun c hc hl => ?loaded
  case stereo => rw [modeOf_stereo s h2]; rfl
  case loaded => rw [hd.channels c hc]; exact channelSamples_loaded _ _ _ hl

/-! ### A preamble load -/

/-- What the decoder's step leaves where it loads the preambles of a block (42_block_framer R166). -/
def loadedBlock (s : State) : State :=
  (loadPreambles (unitsAt s (modeOf s.nch) s.icur.toNat) s).advanceInput (4 * s.nch.toNat)

/-- The load writes the channel registers and `ICUR`, nothing else. -/
theorem loadedBlock_frame (s : State) :
    loadedBlock s = { s with
      ch0 := (loadedBlock s).ch0, ch1 := (loadedBlock s).ch1, icur := s.icur + BitVec.ofNat 32 (4 * s.nch.toNat) } :=
  loadAndAdvance_frame _ s _

theorem loadedBlock_runGoesOn (s : State) : RunGoesOn s (loadedBlock s) := by
  unfold RunGoesOn
  rw [loadedBlock_frame]

@[simp] theorem loadedBlock_olen (s : State) : (loadedBlock s).olen = s.olen := by rw [loadedBlock_frame]

@[simp] theorem loadedBlock_omem (s : State) : (loadedBlock s).omem = s.omem := by rw [loadedBlock_frame]

/-- The channels of the run hold what their preamble units give (42_block_framer R166). -/
theorem chan_loadedBlock (s : State) (hn : s.nch.toNat = 1 ∨ s.nch.toNat = 2) (c : Channel) (hc : c.num < s.nch.toNat) :
    (loadedBlock s).chan c = initialChannel s.cfg (preambleAt s (s.icur.toNat + 4 * c.num)) := by
  rw [loadedBlock, chan_advanceInput, chan_loadPreambles, unitsAt_units_getElem?, modeOf_channels s hn, if_pos hc]

/-- The load moves `ICUR` over the preambles of a block that is present. -/
theorem loadedBlock_icur (s : State) (h : RunInvariant s) (hfit : s.icur.toNat + s.fsz.toNat ≤ s.ilen.toNat) :
    (loadedBlock s).icur.toNat = s.icur.toNat + 4 * s.nch.toNat := by
  obtain ⟨⟨-, hf, -, hil⟩, -⟩ := h
  rw [loadedBlock, advanceInput_icur, loadPreambles_icur, add_ofNat_toNat, Nat.mod_eq_of_lt (by omega)]

/-- The load of a block that is present keeps the run invariant. -/
theorem runInvariant_loadedBlock (s : State) (h : RunInvariant s) (hb : s.icur.toNat % s.fsz.toNat = 0)
    (hfit : s.icur.toNat + s.fsz.toNat ≤ s.ilen.toNat) : RunInvariant (loadedBlock s) := by
  obtain ⟨-, -, hnch, hfsz, hilen, -⟩ := (loadedBlock_runGoesOn s).fields
  refine runInvariant_load s _ h hb hfit hnch hfsz hilen (loadedBlock_icur s h hfit) (loadedBlock_olen s) fun c hc => ?_
  rw [chan_loadedBlock s h.nch c hc]
  rfl

/-! ### The decoder's step in a run -/

/-- The three endings of a run, each at a block boundary and each of the status alone (42_block_framer R162, R163, R165,
R168). -/
def EndingStep (s t : State) : Prop :=
  s.icur.toNat % s.fsz.toNat = 0 ∧ (t = s.finish .endOfInput ∨ t = s.finish .reservedStop ∨ t = s.raise .invalidInput)

/-- A preamble load of a block that is present. -/
def LoadStep (s t : State) : Prop :=
  s.icur.toNat % s.fsz.toNat = 0 ∧ s.icur.toNat + s.fsz.toNat ≤ s.ilen.toNat ∧ t = loadedBlock s

/-- The decoder's step in a run that meets the invariant answers a next state: the run ends, the preambles of a block are
loaded, or a data unit is decoded. -/
theorem decoderStep_runCases (s : State) (hr : s.runState = .run) (h : RunInvariant s) :
    ∃ t, decoderStep s = .next t ∧
      (EndingStep s t ∨ LoadStep s t ∨ (s.icur.toNat % s.fsz.toNat ≠ 0 ∧ DataStep s t)) := by
  by_cases hb : s.icur.toNat % s.fsz.toNat = 0
  · rcases boundaryStep_cases s hr hb h.nch h.icur_le with ⟨-, e⟩ | ⟨-, -, e⟩ | ⟨-, -, e⟩ | ⟨-, -, -, e⟩ | ⟨-, -, hfit, e⟩
    · exact ⟨_, e, .inl ⟨hb, .inl rfl⟩⟩
    · exact ⟨_, e, .inl ⟨hb, .inr (.inr rfl)⟩⟩
    · exact ⟨_, e, .inl ⟨hb, .inr (.inl rfl)⟩⟩
    · exact ⟨_, e, .inl ⟨hb, .inr (.inr rfl)⟩⟩
    · exact ⟨_, e, .inr (.inl ⟨hb, hfit, rfl⟩)⟩
  · obtain ⟨t, ht, hd⟩ := decoderStep_region s hr h hb
    exact ⟨t, ht, .inr (.inr ⟨hb, hd⟩)⟩

/-- After an ending the machine is in `DONE` or `FAULT`, with a cause that fits. -/
theorem EndingStep.status {s t : State} (h : EndingStep s t) :
    (t.runState = .done ∧ (t.cause = .endOfInput ∨ t.cause = .reservedStop)) ∨
    (t.runState = .fault ∧ t.cause = .invalidInput) := by
  obtain ⟨-, rfl | rfl | rfl⟩ := h
  · exact .inl ⟨rfl, .inl rfl⟩
  · exact .inl ⟨rfl, .inr rfl⟩
  · exact .inr ⟨rfl, rfl⟩

/-- An ending changes the status alone. -/
theorem EndingStep.frame {s t : State} (h : EndingStep s t) : t = { s with runState := t.runState, cause := t.cause } := by
  obtain ⟨-, rfl | rfl | rfl⟩ := h <;> rfl

/-! ### The invariant -/

/-- A run that has just begun on a legal configuration meets the run invariant. -/
theorem runInvariant_begin (s : State) (hl : LegalConfig s) (hi : s.icur = 0) (ho : s.olen = 0) : RunInvariant s := by
  have hi0 : s.icur.toNat = 0 := by rw [hi]; rfl
  have ho0 : s.olen.toNat = 0 := by rw [ho]; rfl
  refine ⟨hl, by omega, fun hb => absurd (by rw [hi0, Nat.zero_mod]) hb, ?_⟩
  rw [ho0, dataBytesBefore, hi0, Nat.zero_div, Nat.zero_mod]
  omega

/-- The lists of pending moves and of replies do not matter to the invariant. -/
theorem Inv.withHost {s : State} (h : Inv s) (m : List Input) (r : List Word) : Inv (s.withHost m r) :=
  ⟨h.imem_wf, h.omem_wf, h.cause_fits, h.olen_even, h.run_inv⟩

/-- A step that goes on with the run keeps the invariant where it keeps the run invariant and the form of `OMEM`. -/
theorem Inv.goesOn {s t : State} (h : Inv s) (hr : s.runState = .run) (hgo : RunGoesOn s t) (ht : RunInvariant t)
    (hw : Memory.wf t.omem) : Inv t := by
  obtain ⟨hrun, hcause, -, -, -, -, himem, -⟩ := hgo.fields
  have hfit : CauseFits .run s.cause := hr ▸ h.cause_fits
  exact {
    imem_wf := himem ▸ h.imem_wf
    omem_wf := hw
    cause_fits := by rw [hrun, hr, hcause]; exact hfit
    olen_even := ht.olen_even
    run_inv := fun _ => ht }

/-- An ending keeps the invariant. -/
theorem Inv.ending {s t : State} (h : Inv s) (he : EndingStep s t) : Inv t := by
  have hstatus := he.status
  have hfit : CauseFits t.runState t.cause ∧ t.runState ≠ .run := by
    rcases hstatus with ⟨hrun, hcause⟩ | ⟨hrun, hcause⟩
    · rw [hrun]; exact ⟨hcause, by decide⟩
    · rw [hrun]; exact ⟨.inr hcause, by decide⟩
  have hframe := he.frame
  have himem : t.imem = s.imem := by rw [hframe]
  have homem : t.omem = s.omem := by rw [hframe]
  have holen : t.olen = s.olen := by rw [hframe]
  exact {
    imem_wf := himem ▸ h.imem_wf
    omem_wf := homem ▸ h.omem_wf
    cause_fits := hfit.1
    olen_even := holen ▸ h.olen_even
    run_inv := fun hrun => absurd hrun hfit.2 }

/-- The decoder's turn keeps the invariant. -/
theorem decoderStep_keeps_inv {s t : State} (h : Inv s) (hstep : decoderStep s = .next t) : Inv t := by
  by_cases hr : s.runState = .run
  · have hinv := h.run_inv hr
    obtain ⟨t', ht', hcases⟩ := decoderStep_runCases s hr hinv
    obtain rfl := next_inj (ht'.symm.trans hstep)
    rcases hcases with he | ⟨hb, hfit, rfl⟩ | ⟨hb, hd⟩
    · exact h.ending he
    · exact h.goesOn hr (loadedBlock_runGoesOn s) (runInvariant_loadedBlock s hinv hb hfit)
        (loadedBlock_omem s ▸ h.omem_wf)
    · exact h.goesOn hr hd.frame.runGoesOn (hd.runInvariant hinv hb) (hd.omem_wf h.omem_wf)
  · rw [decoderStep_still s hr] at hstep
    obtain rfl := next_inj hstep
    exact h

/-- A step that writes neither memory, no status and not `OLEN` keeps the invariant outside a run. -/
theorem Inv.still {s t : State} (h : Inv s) (hr : s.runState ≠ .run) (hw : Memory.wf t.imem) (homem : t.omem = s.omem)
    (hrun : t.runState = s.runState) (hcause : t.cause = s.cause) (holen : t.olen = s.olen) : Inv t where
  imem_wf := hw
  omem_wf := homem ▸ h.omem_wf
  cause_fits := by rw [hrun, hcause]; exact h.cause_fits
  olen_even := holen ▸ h.olen_even
  run_inv := fun ht => absurd (hrun ▸ ht) hr

theorem Inv.resetRegisters {s : State} (h : Inv s) : Inv s.resetRegisters :=
  ⟨h.imem_wf, h.omem_wf, rfl, rfl, fun hr => absurd hr (by simp)⟩

theorem Inv.beginRun {s : State} (h : Inv s) (hl : LegalConfig s) :
    Inv { s.beginRun with runState := .run, cause := .noCause } :=
  ⟨h.imem_wf, h.omem_wf, rfl, rfl, fun _ => runInvariant_begin _ hl rfl rfl⟩

theorem Inv.beginRun_raise {s : State} (h : Inv s) : Inv (s.beginRun.raise .invalidConfig) :=
  ⟨h.imem_wf, h.omem_wf, .inl rfl, rfl, fun hr => absurd hr (by simp)⟩

theorem Inv.writeConfig {s : State} (h : Inv s) (n : Nat) (v : Word) : Inv (s.writeConfig n v) := by
  by_cases hr : s.runState = .run
  · rwa [writeConfig_of_run s n v hr]
  · exact h.still hr (by simpa using h.imem_wf) (by simp) (by simp) (by simp) (by simp)

/-- Settles O33, by the decoder's turn and the inversion of the host's moves. -/
theorem everyStepKeepsTheInvariant : Obligations.EveryStepKeepsTheInvariant := by
  intro s t h hstep
  have hu : Inv { s with inputs := s.inputs.tail } := h.withHost s.inputs.tail s.replies
  by_cases hturn : DecoderTurn s
  · rw [step_decoder s hturn] at hstep
    exact decoderStep_keeps_inv hu hstep
  · rcases step_host_cases s t hstep hturn with ⟨-, rfl⟩ | ⟨-, -, hl, rfl⟩ | ⟨-, -, -, rfl⟩ | rfl | ⟨n, v, rfl⟩ |
      ⟨a, b, -, hr, rfl⟩ | ⟨v, rfl⟩ | ⟨c, n, hr, rfl⟩
    · exact hu.resetRegisters
    · exact hu.beginRun hl
    · exact hu.beginRun_raise
    · exact hu
    · exact hu.writeConfig n v
    · exact hu.still hr (wf_imemWrite _ a b hu.imem_wf) rfl rfl rfl rfl
    · exact h.withHost s.inputs.tail (v :: s.replies)
    · exact hu.still hr (by simpa [decodeOn] using hu.imem_wf) (by simp [decodeOn]) (by simp [decodeOn])
        (by simp [decodeOn]) (by simp [decodeOn])

/-- Settles O32: after reset nothing is written, and no run is in progress. -/
theorem resetMeetsTheInvariant : Obligations.ResetMeetsTheInvariant := by
  intro cfg moves
  exact ⟨Memory.wf_nil, Memory.wf_nil, rfl, rfl, fun hr => nomatch hr⟩

/-- What holds in a state and is kept by every step holds after any number of steps. -/
theorem run_keeps (P : State → Prop) (hkeep : ∀ s t, P s → step s = .next t → P t) (k : Nat) {s t : State} (h : P s)
    (hrun : Host.Core.run Sys2Proof.core k s = .next t) : P t := by
  induction k generalizing s with
  | zero => rw [run_zero] at hrun; exact next_inj hrun ▸ h
  | succ k ih =>
    obtain ⟨u, hu, hrest⟩ := run_succ_next k s t hrun
    exact ih (hkeep s u h hu) hrest

/-- Settles O34, by the invariant of every reachable state and the bounds it gives inside a block. -/
theorem reachableRunsKeepTheBlockInvariant : Obligations.ReachableRunsKeepTheBlockInvariant := by
  intro cfg moves k t hrun
  have hinv : Inv t := run_keeps Inv everyStepKeepsTheInvariant k (resetMeetsTheInvariant cfg moves) hrun
  refine ⟨hinv.olen_even, fun hr => ?_⟩
  have h := hinv.run_inv hr
  have hle := h.icur_le
  have hol := olen_le t h
  refine ⟨hle, by omega, fun hb => ?_⟩
  obtain ⟨hend, hlo, h8, hloaded⟩ := h.block hb
  obtain ⟨-, -, heq, -, hgroup⟩ := region_bounds t h hb
  refine ⟨hend, hlo, fun h2 => ⟨h8 h2, ?_⟩, hloaded⟩
  have := hgroup h2
  rw [Nat.add_mul, Nat.one_mul]
  omega

end Sys2Proof.Machine
end

section
/-! PROOF. O39 (42_block_framer R173): a decoder step of a run ends it or moves `ICUR` forward, and `ICUR` never passes
`ILEN`, so the distance between them bounds the steps. -/

namespace Sys2Proof.Machine

/-- A step of a run left alone ends the run, or goes on with it at a larger `ICUR`. -/
theorem step_ends_or_advances (s : State) (hr : s.runState = .run) (hin : s.inputs = []) (h : RunInvariant s) :
    ∃ t, step s = .next t ∧ ((t.runState = .done ∨ t.runState = .fault) ∨
      (RunGoesOn s t ∧ RunInvariant t ∧ s.icur.toNat + 1 ≤ t.icur.toNat)) := by
  rw [step_of_noInputs s hin]
  obtain ⟨t, ht, he | ⟨hb, hfit, rfl⟩ | ⟨hb, hd⟩⟩ := decoderStep_runCases s hr h
  · refine ⟨t, ht, .inl ?_⟩
    rcases he.status with ⟨hdone, -⟩ | ⟨hfault, -⟩
    · exact .inl hdone
    · exact .inr hfault
  · refine ⟨_, ht, .inr ⟨loadedBlock_runGoesOn s, runInvariant_loadedBlock s h hb hfit, ?_⟩⟩
    have hn := h.nch
    rw [loadedBlock_icur s h hfit]
    omega
  · refine ⟨t, ht, .inr ⟨hd.frame.runGoesOn, hd.runInvariant h hb, ?_⟩⟩
    obtain ⟨hpos, -⟩ := dataUnit_bounds s h hb
    rw [(hd.cursors h hb).1]
    omega

/-- A run left alone ends within as many steps as there are bytes before it, and one. -/
theorem run_ends (n : Nat) (s : State) (hr : s.runState = .run) (hin : s.inputs = []) (h : RunInvariant s)
    (hn : s.ilen.toNat - s.icur.toNat ≤ n) :
    ∃ k, k ≤ s.ilen.toNat - s.icur.toNat + 1 ∧ ∃ t : State,
      Host.Core.run Sys2Proof.core k s = .next t ∧ (t.runState = .done ∨ t.runState = .fault) := by
  induction n generalizing s with
  | zero =>
    obtain ⟨t, ht, hend | ⟨hgo, hinv, hadv⟩⟩ := step_ends_or_advances s hr hin h
    · exact ⟨1, by omega, t, run_succ 0 s t ht, hend⟩
    · have hle := hinv.icur_le
      obtain ⟨-, -, -, -, hilen, -⟩ := hgo.fields
      rw [hilen] at hle
      omega
  | succ n ih =>
    obtain ⟨t, ht, hend | ⟨hgo, hinv, hadv⟩⟩ := step_ends_or_advances s hr hin h
    · exact ⟨1, by omega, t, run_succ 0 s t ht, hend⟩
    · obtain ⟨hrun, -, -, -, hilen, -, -, hquiet⟩ := hgo.fields
      have hle := hinv.icur_le
      rw [hilen] at hle
      obtain ⟨k, hk, u, hu, hend⟩ := ih t (hrun.trans hr) (hquiet.trans hin) hinv (by rw [hilen]; omega)
      rw [hilen] at hk
      exact ⟨k + 1, by omega, u, (run_succ k s t ht).trans hu, hend⟩

/-- Settles O39, by the progress of each step and the bound on their number. -/
theorem everyRunEnds : Obligations.EveryRunEnds := by
  intro s hinv hr hin
  refine ⟨?progress, run_ends _ s hr hin (hinv.run_inv hr) le_rfl⟩
  case progress =>
    obtain ⟨t, ht, hend | ⟨-, -, hadv⟩⟩ := step_ends_or_advances s hr hin (hinv.run_inv hr)
    · exact ⟨t, ht, .inl (by rcases hend with e | e <;> simp [e])⟩
    · exact ⟨t, ht, .inr hadv⟩

end Sys2Proof.Machine
end

section
/-! PROOF. O43, O44 (00_scope R12, R13): in a run a move of the host that is no `RESET` touches the lists of pending moves
and of replies alone, and the decoder neither sees nor changes these, so a run under any moves passes through the states
of the run left alone. -/

namespace Sys2Proof.Machine

/-- Settles O43, by the inversion of the host's moves: those that write the block are not accepted in a run. -/
theorem duringARunOnlyTheDecoderActs : Obligations.DuringARunOnlyTheDecoderActs := by
  intro s t h hr hturn
  rcases step_host_cases s t h hturn with ⟨hreset, rfl⟩ | ⟨-, hacc, -⟩ | ⟨-, hacc, -⟩ | rfl | ⟨n, v, rfl⟩ |
    ⟨a, b, -, hout, -⟩ | ⟨v, rfl⟩ | ⟨c, n, hout, -⟩
  · exact .inl ⟨hreset, rfl⟩
  · exact absurd (.inl hr) (not_run_or_fault s hacc)
  · exact absurd (.inl hr) (not_run_or_fault s hacc)
  · exact .inr rfl
  · exact .inr (by rw [writeConfig_of_run { s with inputs := s.inputs.tail } n v hr])
  · exact absurd hr hout
  · exact .inr rfl
  · exact absurd hr hout

/-- The decoder's step in a run leaves the pending moves. -/
theorem decoderStep_inputs {s t : State} (hr : s.runState = .run) (h : decoderStep s = .next t) : t.inputs = s.inputs := by
  rcases decoderStep_cases s t hr h with hgo | ⟨-, ⟨-, rfl⟩ | ⟨-, rfl⟩ | rfl⟩
  · rw [hgo]
  · rfl
  · rfl
  · rfl

/-- A next state of an outcome with its lists replaced is one of the outcome. -/
theorem mapHost_next {m : List Input} {r : List Word} {o : Host.Outcome State Fault Refusal} {t : State}
    (h : mapHost m r o = .next t) : ∃ u, o = .next u ∧ t = u.withHost m r := by
  cases o with
  | next u => exact ⟨u, rfl, next_inj h⟩
  | fault f => cases h
  | refused f => cases h

/-- One step of a run under pending moves, against the same run left alone: the host resets the block, or the run left
alone takes a step or none, the two states being the same but for the lists. -/
theorem step_withHost_cases (s : State) (m : List Input) (r : List Word) (v : State) (hr : s.runState = .run)
    (hin : s.inputs = []) (h : step (s.withHost m r) = .next v) :
    v.runState = .idle ∨ v = s.withHost v.inputs v.replies ∨
    ∃ u, step s = .next u ∧ u.inputs = [] ∧ v = u.withHost v.inputs v.replies := by
  by_cases hturn : DecoderTurn (s.withHost m r)
  · rw [step_decoder _ hturn] at h
    obtain ⟨u, hu, rfl⟩ := mapHost_next ((decoderStep_withHost s m.tail r).symm.trans h)
    exact .inr (.inr ⟨u, (step_of_noInputs s hin).trans hu, (decoderStep_inputs hr hu).trans hin, rfl⟩)
  · rcases duringARunOnlyTheDecoderActs _ v h hr hturn with ⟨-, rfl⟩ | e
    · exact .inl rfl
    · exact .inr (.inl (by rw [e]; rfl))

/-- Any number of steps of a run under pending moves. -/
theorem run_withHost (k : Nat) (s : State) (m : List Input) (r : List Word) (t : State) (hin : s.inputs = [])
    (h : Host.Core.run Sys2Proof.core k (s.withHost m r) = .next t)
    (hruns : ∀ j < k, ∃ u : State, Host.Core.run Sys2Proof.core j (s.withHost m r) = .next u ∧ u.runState = .run) :
    t.runState = .idle ∨
    ∃ j ≤ k, ∃ u : State, Host.Core.run Sys2Proof.core j s = .next u ∧ t = u.withHost t.inputs t.replies := by
  induction k generalizing s m r with
  | zero =>
    obtain rfl := next_inj h
    exact .inr ⟨0, le_rfl, s, run_zero s, rfl⟩
  | succ k ih =>
    obtain ⟨v, hv, hrest⟩ := run_succ_next k _ t h
    have hr : s.runState = .run := by
      obtain ⟨u, hu, hrun⟩ := hruns 0 (by omega)
      rw [next_inj hu] at hrun
      exact hrun
    have hruns' : ∀ j < k, ∃ u : State, Host.Core.run Sys2Proof.core j v = .next u ∧ u.runState = .run := by
      intro j hj
      obtain ⟨u, hu, hrun⟩ := hruns (j + 1) (by omega)
      exact ⟨u, (run_succ j _ v hv).symm.trans hu, hrun⟩
    rcases step_withHost_cases s m r v hr hin hv with hidle | e | ⟨u, hu, huin, e⟩
    · cases k with
      | zero => exact .inl (next_inj hrest ▸ hidle)
      | succ k =>
        obtain ⟨u, hu, hrun⟩ := hruns' 0 (by omega)
        obtain rfl := next_inj hu
        exact nomatch hidle.symm.trans hrun
    · rw [e] at hrest hruns'
      rcases ih s _ _ hin hrest hruns' with hidle | ⟨j, hj, w, hw, ht⟩
      · exact .inl hidle
      · exact .inr ⟨j, by omega, w, hw, ht⟩
    · rw [e] at hrest hruns'
      rcases ih u _ _ huin hrest hruns' with hidle | ⟨j, hj, w, hw, ht⟩
      · exact .inl hidle
      · exact .inr ⟨j + 1, by omega, w, (run_succ j s u hu).trans hw, ht⟩

/-- Settles O44, by the simulation from the state with the moves in its list. -/
theorem hostMovesDoNotDisturbARun : Obligations.HostMovesDoNotDisturbARun :=
  fun s moves k t hin h hruns => run_withHost k s moves s.replies t hin h hruns

end Sys2Proof.Machine
end

section
/-! PROOF. O41 (43_nibble_interleaver R192, R197; 42_block_framer R171, R174): the run as a function of the stream. Sample
`q` of a channel in a block is `DecodeSample` of the stream's nibble from the registers that the samples before it leave; a
relation between the run's first state and its present one says that the registers in use and the bytes below `OLEN` are
these, and every step keeps it. -/

namespace Sys2Proof.Machine

/-! ### The samples of a channel one by one -/

/-- Sample `q` comes from nibble `q` and the registers that the nibbles before it leave. -/
theorem channelSamples_range_getD (cfg : Config) (f : Nat → Nibble) (ch : ChannelState) (n q : Nat) (hq : q < n) :
    (channelSamples cfg ((List.range n).map f) ch).1.getD q 0 =
      (decodeSample cfg (f q) (channelSamples cfg ((List.range q).map f) ch).2).1 := by
  obtain ⟨r, rfl⟩ : ∃ r, n = q + (r + 1) := ⟨n - q - 1, by omega⟩
  have hlen : (channelSamples cfg ((List.range q).map f) ch).1.length = q := by simp
  rw [List.range_add, List.map_append, channelSamples_append, List.getD_append_right _ _ _ _ (by omega), hlen,
    Nat.sub_self, List.range_succ_eq_map]
  rfl

/-- The registers after `m + n` nibbles are those after `n` more from what `m` leave. -/
theorem channelSamples_range_add (cfg : Config) (f : Nat → Nibble) (ch : ChannelState) (m n : Nat) :
    (channelSamples cfg ((List.range (m + n)).map f) ch).2 =
      (channelSamples cfg ((List.range n).map fun j => f (m + j))
        (channelSamples cfg ((List.range m).map f) ch).2).2 := by
  rw [List.range_add, List.map_append, channelSamples_append, List.map_map]
  rfl

/-- The registers of channel `c` in block `k` once `q` samples have been decoded from the block's own preamble. -/
def blockChannel (s : State) (k : Nat) (c : Channel) (q : Nat) : ChannelState :=
  (channelSamples s.cfg ((List.range q).map (streamNibble s k c)) (initialChannel s.cfg (streamPreamble s k c))).2

/-- Sample `q` of channel `c` in block `k`. -/
def blockSample (s : State) (k : Nat) (c : Channel) (q : Nat) : Half :=
  (decodeSample s.cfg (streamNibble s k c q) (blockChannel s k c q)).1

theorem blockChannel_zero (s : State) (k : Nat) (c : Channel) :
    blockChannel s k c 0 = initialChannel s.cfg (streamPreamble s k c) := rfl

theorem blockSamples_getD (s : State) (k : Nat) (c : Channel) (q : Nat) (hq : q < samplesPerBlock s) :
    (blockSamples s k c).getD q 0 = blockSample s k c q := channelSamples_range_getD _ _ _ _ _ hq

/-- The registers after a unit whose nibbles are the stream's from `m` on. -/
theorem blockChannel_add (s : State) (k : Nat) (c : Channel) (m n : Nat) :
    (channelSamples s.cfg ((List.range n).map fun j => streamNibble s k c (m + j)) (blockChannel s k c m)).2 =
      blockChannel s k c (m + n) := (channelSamples_range_add _ _ _ _ _).symm

/-- The samples of such a unit. -/
theorem unitSample_eq (s : State) (k : Nat) (c : Channel) (m n i : Nat) (hi : i < n) :
    (channelSamples s.cfg ((List.range n).map fun j => streamNibble s k c (m + j)) (blockChannel s k c m)).1.getD i 0 =
      blockSample s k c (m + i) := by
  rw [channelSamples_range_getD _ (fun j => streamNibble s k c (m + j)) _ _ _ hi, blockChannel_add]
  rfl

/-! ### The nibbles of a unit in the stream -/

/-- How many samples of each channel lie before the cursor in its block, `r` bytes into it (42_block_framer R171). -/
def samplesBefore (s : State) (r : Nat) : Nat := if s.nch.toNat = 1 then 2 * (r - 4) else r - 8

/-- The nibbles of the data byte at offset `a` of a mono block (43_nibble_interleaver R192). -/
theorem streamNibble_mono (s : State) (k p j : Nat) (hn : s.nch.toNat = 1) (hj : j < 2) :
    streamNibble s k .ch0 (2 * p + j) =
      if j % 2 = 0 then lowNibble (s.imemByte (k * s.fsz.toNat + 4 + p))
      else highNibble (s.imemByte (k * s.fsz.toNat + 4 + p)) := by
  have hdiv : (2 * p + j) / 2 = p := by omega
  have hmod : (2 * p + j) % 2 = j % 2 := by omega
  simp only [streamNibble, hn, if_true, hdiv, hmod]

/-- The nibbles of a channel's four bytes of a stereo group (43_nibble_interleaver R197). -/
theorem streamNibble_stereo (s : State) (k m j : Nat) (c : Channel) (hn : s.nch.toNat = 2) (hm : m % 8 = 0) (hj : j < 8) :
    streamNibble s k c (m + j) =
      if j % 2 = 0 then lowNibble (s.imemByte (k * s.fsz.toNat + 8 + m + 4 * c.num + j / 2))
      else highNibble (s.imemByte (k * s.fsz.toNat + 8 + m + 4 * c.num + j / 2)) := by
  have hoff : k * s.fsz.toNat + 8 + 8 * ((m + j) / 8) + (m + j) % 8 / 2 + 4 * c.num =
      k * s.fsz.toNat + 8 + m + 4 * c.num + j / 2 := by omega
  have hmod : (m + j) % 2 = j % 2 := by omega
  have hne : ¬ s.nch.toNat = 1 := by omega
  simp only [streamNibble, hne, if_false, hoff, hmod]

/-- The nibbles of the unit `r` bytes into block `k` are the stream's, from the first sample not yet decoded on. -/
theorem unitNibbles_eq (s : State) (k r : Nat) (hicur : s.icur.toNat = k * s.fsz.toNat + r)
    (hn : s.nch.toNat = 1 ∨ s.nch.toNat = 2) (hlo : 4 * s.nch.toNat ≤ r) (h8 : s.nch.toNat = 2 → (r - 8) % 8 = 0)
    (c : Channel) (hc : c.num < s.nch.toNat) :
    unitNibbles s c =
      (List.range (unitFrames (modeOf s.nch))).map fun j => streamNibble s k c (samplesBefore s r + j) := by
  rcases hn with h1 | h2
  · obtain rfl : c = .ch0 := by cases c with
      | ch0 => rfl
      | ch1 => exact absurd hc (by rw [h1]; decide)
    have hbyte : k * s.fsz.toNat + 4 + (r - 4) = s.icur.toNat := by omega
    simp only [unitNibbles, modeOf_mono s h1, unitFrames, samplesBefore, h1, if_true]
    rw [← map_nibbleAt_range]
    refine List.map_congr_left fun j hj => ?_
    have hj : j < 2 := List.mem_range.1 hj
    rw [streamNibble_mono s k (r - 4) j h1 hj, hbyte]
    interval_cases j <;> rfl
  · have hne : ¬ s.nch.toNat = 1 := by omega
    have hbyte : k * s.fsz.toNat + 8 + (r - 8) = s.icur.toNat := by omega
    simp only [unitNibbles, modeOf_stereo s h2, unitFrames, samplesBefore, hne, if_false]
    rw [← map_nibbleAt_range]
    refine List.map_congr_left fun j hj => ?_
    have hj : j < 8 := List.mem_range.1 hj
    rw [streamNibble_stereo s k (r - 8) j c h2 (h8 h2) hj, hbyte]
    interval_cases j <;> rfl

/-! ### The arithmetic of the frames

A frame is one sample of each channel, `2 * NCH` bytes of output. -/

/-- A block's output is its frames (42_block_framer R171). -/
theorem blockOutputBytes_eq (s : State) (hn : s.nch.toNat = 1 ∨ s.nch.toNat = 2) :
    blockOutputBytes s = 2 * s.nch.toNat * samplesPerBlock s := by
  rcases hn with h | h
  · simp only [blockOutputBytes, samplesPerBlock, h, if_true]
    omega
  · simp only [blockOutputBytes, samplesPerBlock, h, OfNat.ofNat_ne_one, if_false]

/-- A unit's output is its frames (43_nibble_interleaver R191, R196). -/
theorem unitOutputBytes_eq (s : State) (hn : s.nch.toNat = 1 ∨ s.nch.toNat = 2) :
    4 * unitBytes (modeOf s.nch) = 2 * s.nch.toNat * unitFrames (modeOf s.nch) := by
  rcases hn with h | h
  · rw [modeOf_mono s h, h]; rfl
  · rw [modeOf_stereo s h, h]; rfl

/-- `OLEN` in a run is the blocks before the cursor's and the frames before the cursor (42_block_framer R171). -/
theorem RunInvariant.olen_eq {s : State} (h : RunInvariant s) :
    s.olen.toNat = s.icur.toNat / s.fsz.toNat * blockOutputBytes s +
      2 * s.nch.toNat * samplesBefore s (s.icur.toNat % s.fsz.toNat) := by
  have hn := h.nch
  obtain ⟨-, -, -, ho⟩ := h
  have hpart : 2 * s.nch.toNat * samplesBefore s (s.icur.toNat % s.fsz.toNat) =
      4 * (s.icur.toNat % s.fsz.toNat - 4 * s.nch.toNat) := by
    rcases hn with h | h
    · simp only [samplesBefore, h, if_true]
      omega
    · simp only [samplesBefore, h, OfNat.ofNat_ne_one, if_false]
  rw [ho, hpart, dataBytesBefore, blockOutputBytes, Nat.mul_add, Nat.mul_left_comm]

/-- At a block boundary `OLEN` is the output of the whole blocks before the cursor (42_block_framer R171). -/
theorem RunInvariant.olen_boundary {s : State} (h : RunInvariant s) (hb : s.icur.toNat % s.fsz.toNat = 0) :
    s.olen.toNat = s.icur.toNat / s.fsz.toNat * blockOutputBytes s := by
  have hnone : samplesBefore s 0 = 0 := by simp [samplesBefore]
  rw [h.olen_eq, hb, hnone, Nat.mul_zero, Nat.add_zero]

/-- A data unit moves the count of samples before the cursor by its frames, within the block. -/
theorem samplesBefore_add (s : State) (r : Nat) (hn : s.nch.toNat = 1 ∨ s.nch.toNat = 2) (hlo : 4 * s.nch.toNat ≤ r)
    (hfit : r + unitBytes (modeOf s.nch) ≤ s.fsz.toNat) :
    samplesBefore s (r + unitBytes (modeOf s.nch)) = samplesBefore s r + unitFrames (modeOf s.nch) ∧
    samplesBefore s r + unitFrames (modeOf s.nch) ≤ samplesPerBlock s := by
  rcases hn with h | h
  · rw [modeOf_mono s h] at hfit ⊢
    simp only [unitBytes, unitFrames, samplesBefore, samplesPerBlock, h, if_true] at hfit ⊢
    omega
  · have hne : ¬ s.nch.toNat = 1 := by omega
    rw [modeOf_stereo s h] at hfit ⊢
    simp only [unitBytes, unitFrames, samplesBefore, samplesPerBlock, hne, if_false] at hfit ⊢
    omega

/-- A frame that ends in the output of a unit, and not before it, is one of the unit's: `w` bytes a frame, `f` frames a block,
the unit's `n` frames from frame `m` of block `k` on. -/
theorem frame_in_unit {w f k m n b q : Nat} (hmn : m + n ≤ f) (hq : q < f)
    (hnew : b * (w * f) + w * (q + 1) ≤ k * (w * f) + w * (m + n))
    (hold : ¬ b * (w * f) + w * (q + 1) ≤ k * (w * f) + w * m) : b = k ∧ m ≤ q ∧ q < m + n := by
  have hfactor : ∀ x y : Nat, x * (w * f) + w * y = w * (x * f + y) := fun x y => by ring
  rw [hfactor, hfactor] at hnew hold
  have hw : 0 < w := Nat.pos_of_ne_zero fun h0 => hold (by simp [h0])
  have hle := Nat.le_of_mul_le_mul_left hnew hw
  have hlt : ¬ b * f + (q + 1) ≤ k * f + m := fun h => hold (Nat.mul_le_mul_left w h)
  have hblock : b = k := by
    rcases Nat.lt_trichotomy b k with h | h | h
    · have := Nat.mul_le_mul_right f h
      rw [Nat.succ_mul] at this
      omega
    · exact h
    · have := Nat.mul_le_mul_right f h
      rw [Nat.succ_mul] at this
      omega
  subst hblock
  omega

/-! ### What has been decoded at a point of a run -/

/-- Two states of one run hold the same configuration and stream. -/
structure SameStream (s t : State) : Prop where
  nch : t.nch = s.nch
  fsz : t.fsz = s.fsz
  ilen : t.ilen = s.ilen
  cfg : t.cfg = s.cfg
  imem : t.imem = s.imem

/-- The offset of sample `q` of channel `c` of block `b` in `OMEM` (43_nibble_interleaver R192, R197). -/
def sampleOffset (s : State) (b : Nat) (c : Channel) (q : Nat) : Nat :=
  b * blockOutputBytes s + 2 * s.nch.toNat * q + 2 * c.num

/-- The sample stands in `OMEM` at its offset, little-endian (20_memory R56). -/
def SampleStands (s : State) (b : Nat) (c : Channel) (q : Nat) : Prop :=
  s.omemByte (sampleOffset s b c q) = loByte (blockSample s b c q) ∧
  s.omemByte (sampleOffset s b c q + 1) = hiByte (blockSample s b c q)

section
variable {s t : State} (h : SameStream s t)
include h

theorem SameStream.streamNibble (k : Nat) (c : Channel) (q : Nat) : streamNibble t k c q = streamNibble s k c q := by
  simp only [Machine.streamNibble, State.imemByte, h.nch, h.fsz, h.imem]

theorem SameStream.streamPreamble (k : Nat) (c : Channel) : streamPreamble t k c = streamPreamble s k c := by
  simp only [Machine.streamPreamble, State.imemByte, h.fsz, h.imem]

theorem SameStream.blockChannel (k : Nat) (c : Channel) (q : Nat) : blockChannel t k c q = blockChannel s k c q := by
  simp only [Machine.blockChannel, h.cfg, h.streamPreamble, funext (h.streamNibble k c)]

theorem SameStream.blockSample (k : Nat) (c : Channel) (q : Nat) : blockSample t k c q = blockSample s k c q := by
  simp only [Machine.blockSample, h.cfg, h.blockChannel, h.streamNibble]

theorem SameStream.blockOutputBytes : blockOutputBytes t = blockOutputBytes s := by
  simp only [Machine.blockOutputBytes, h.nch, h.fsz]

theorem SameStream.samplesPerBlock : samplesPerBlock t = samplesPerBlock s := by
  simp only [Machine.samplesPerBlock, h.nch, h.fsz]

theorem SameStream.samplesBefore (r : Nat) : samplesBefore t r = samplesBefore s r := by
  simp only [Machine.samplesBefore, h.nch]

theorem SameStream.sampleOffset (b : Nat) (c : Channel) (q : Nat) : sampleOffset t b c q = sampleOffset s b c q := by
  simp only [Machine.sampleOffset, h.blockOutputBytes, h.nch]

/-- A sample stands in the later state where the bytes at its offset are its bytes. -/
theorem SameStream.sampleStands (b : Nat) (c : Channel) (q : Nat)
    (hlo : t.omemByte (Machine.sampleOffset s b c q) = loByte (Machine.blockSample s b c q))
    (hhi : t.omemByte (Machine.sampleOffset s b c q + 1) = hiByte (Machine.blockSample s b c q)) : SampleStands t b c q := by
  unfold SampleStands
  rw [h.sampleOffset, h.blockSample]
  exact ⟨hlo, hhi⟩

end

/-- What a step that goes on with the run keeps. -/
theorem SameStream.of_runGoesOn {s t : State} (h : RunGoesOn s t) : SameStream s t := by
  obtain ⟨-, -, hnch, hfsz, hilen, hcfg, himem, -⟩ := h.fields
  exact ⟨hnch, hfsz, hilen, hcfg, himem⟩

theorem SameStream.refl (s : State) : SameStream s s := ⟨rfl, rfl, rfl, rfl, rfl⟩

theorem SameStream.trans {s t u : State} (h : SameStream s t) (h' : SameStream t u) : SameStream s u :=
  ⟨h'.nch.trans h.nch, h'.fsz.trans h.fsz, h'.ilen.trans h.ilen, h'.cfg.trans h.cfg, h'.imem.trans h.imem⟩

/-- What a run has decoded of its stream: inside a block the registers in use are those that the samples before the cursor
leave, and every sample whose frame lies below `OLEN` stands in `OMEM`. -/
structure StreamDecoded (s : State) : Prop where
  channels : s.icur.toNat % s.fsz.toNat ≠ 0 → ∀ c : Channel, c.num < s.nch.toNat →
    s.chan c = blockChannel s (s.icur.toNat / s.fsz.toNat) c (samplesBefore s (s.icur.toNat % s.fsz.toNat))
  output : ∀ (b q : Nat) (c : Channel), c.num < s.nch.toNat → q < samplesPerBlock s →
    b * blockOutputBytes s + 2 * s.nch.toNat * (q + 1) ≤ s.olen.toNat → SampleStands s b c q

/-- Block and place of a cursor moved within its block, or to its end. -/
theorem cursor_move (f a d : Nat) (hfit : a % f + d ≤ f) (hb : (a + d) % f ≠ 0) :
    (a + d) / f = a / f ∧ (a + d) % f = a % f + d := by
  have heq := Nat.div_add_mod a f
  rw [Nat.mul_comm] at heq
  rcases Nat.lt_or_eq_of_le hfit with hlt | hend
  · exact divMod_of_eq f (a / f) (a % f + d) (a + d) hlt (by omega)
  · refine absurd ?_ hb
    rw [show a + d = f * (a / f + 1) by rw [Nat.mul_add, Nat.mul_comm]; omega, Nat.mul_mod_right]

/-- A data step decodes the next unit of the stream. -/
theorem DataStep.streamDecoded {s t : State} (hd : DataStep s t) (h : RunInvariant s) (hdec : StreamDecoded s)
    (hb : s.icur.toNat % s.fsz.toNat ≠ 0) : StreamDecoded t := by
  have hsame := SameStream.of_runGoesOn hd.frame.runGoesOn
  have hn := h.nch
  obtain ⟨-, hfit, -⟩ := dataUnit_bounds s h hb
  obtain ⟨hlo, -, heq, -⟩ := region_bounds s h hb
  obtain ⟨hicur, holen⟩ := hd.cursors h hb
  obtain ⟨-, -, h8, -⟩ := h.block hb
  obtain ⟨hadd, hend⟩ := samplesBefore_add s _ hn hlo hfit
  have holenEq := h.olen_eq
  have hchan := hdec.channels hb
  have hunit := unitNibbles_eq s _ _ heq hn hlo h8
  have hblockBytes := blockOutputBytes_eq s hn
  have hunitBytes := unitOutputBytes_eq s hn
  generalize hk : s.icur.toNat / s.fsz.toNat = k at *
  generalize hm : samplesBefore s (s.icur.toNat % s.fsz.toNat) = m at *
  refine ⟨fun hbt c hc => ?channels, fun b q c hc hq hbelow => ?output⟩
  case channels =>
    rw [hsame.fsz, hicur] at hbt
    obtain ⟨hdiv, hmod⟩ := cursor_move _ _ _ hfit hbt
    rw [hsame.nch] at hc
    rw [hsame.blockChannel, hsame.samplesBefore, hsame.fsz, hicur, hdiv, hmod, hadd, hk, hd.channels c hc, hunit c hc,
      hchan c hc, blockChannel_add]
  case output =>
    rw [hsame.nch] at hc
    rw [hsame.samplesPerBlock] at hq
    rw [hsame.blockOutputBytes, hsame.nch, holen] at hbelow
    by_cases hbefore : b * blockOutputBytes s + 2 * s.nch.toNat * (q + 1) ≤ s.olen.toNat
    · obtain ⟨hlow, hhigh⟩ := hdec.output b q c hc hq hbefore
      have hoff : sampleOffset s b c q + 2 ≤ s.olen.toNat := by
        rw [Nat.mul_add, Nat.mul_one] at hbefore
        rw [sampleOffset]
        omega
      refine hsame.sampleStands b c q ?_ ?_
      · rw [hd.kept _ (.inl (by omega)), hlow]
      · rw [hd.kept _ (.inl (by omega)), hhigh]
    · rw [holenEq, hunitBytes, hblockBytes, Nat.add_assoc, ← Nat.mul_add] at hbelow
      rw [holenEq, hblockBytes] at hbefore
      obtain ⟨rfl, hmq, hqn⟩ := frame_in_unit hend hq hbelow hbefore
      obtain ⟨i, rfl⟩ : ∃ i, q = m + i := ⟨q - m, by omega⟩
      obtain ⟨hlow, hhigh⟩ := hd.written c i hc (by omega)
      have hoff : s.olen.toNat + (2 * s.nch.toNat * i + 2 * c.num) = sampleOffset s b c (m + i) := by
        rw [holenEq, sampleOffset, Nat.mul_add]
        omega
      rw [hoff, hunit c hc, hchan c hc, unitSample_eq _ _ _ _ _ _ (by omega)] at hlow hhigh
      exact hsame.sampleStands b c (m + i) hlow hhigh

/-- A preamble load puts the block's own first registers in use. -/
theorem streamDecoded_loadedBlock {s : State} (h : RunInvariant s) (hdec : StreamDecoded s)
    (hb : s.icur.toNat % s.fsz.toNat = 0) (hfit : s.icur.toNat + s.fsz.toNat ≤ s.ilen.toNat) :
    StreamDecoded (loadedBlock s) := by
  have hsame := SameStream.of_runGoesOn (loadedBlock_runGoesOn s)
  have hicur := loadedBlock_icur s h hfit
  have heq := Nat.div_add_mod s.icur.toNat s.fsz.toNat
  rw [Nat.mul_comm, hb, Nat.add_zero] at heq
  obtain ⟨hn, hf, -⟩ := h.legal
  refine ⟨fun hbt c hc => ?channels, fun b q c hc hq hbelow => ?output⟩
  case channels =>
    rw [hsame.fsz, hicur] at hbt
    obtain ⟨hdiv, hmod⟩ := cursor_move _ _ _ (by omega) hbt
    have hnone : samplesBefore s (4 * s.nch.toNat) = 0 := by
      rcases hn with e | e <;> simp [samplesBefore, e]
    rw [hsame.nch] at hc
    rw [hsame.blockChannel, hsame.samplesBefore, hsame.fsz, hicur, hdiv, hmod, hb, Nat.zero_add, hnone,
      chan_loadedBlock s hn c hc, blockChannel_zero, preambleAt, Machine.streamPreamble, heq]
  case output =>
    rw [hsame.nch] at hc
    rw [hsame.samplesPerBlock] at hq
    rw [hsame.blockOutputBytes, hsame.nch, loadedBlock_olen] at hbelow
    have hbytes := omemByte_congr s (loadedBlock s) (loadedBlock_omem s)
    obtain ⟨hlow, hhigh⟩ := hdec.output b q c hc hq hbelow
    exact hsame.sampleStands b c q ((hbytes _).trans hlow) ((hbytes _).trans hhigh)

/-! ### The run as a whole -/

/-- `t` is a state of the run begun in `s` and left alone. The cursors of a run that has ended still meet the run invariant. -/
structure RunOf (s t : State) : Prop where
  stream : SameStream s t
  quiet : t.inputs = []
  run_inv : RunInvariant t
  decoded : StreamDecoded t

/-- A run that has just begun is a state of itself: it stands at a boundary and has no output. -/
theorem runOf_self {s : State} (h : JustStarted s) : RunOf s s := by
  obtain ⟨hinv, hr, hicur, holen, hin⟩ := h
  have hi0 : s.icur.toNat = 0 := by rw [hicur]; rfl
  have ho0 : s.olen.toNat = 0 := by rw [holen]; rfl
  have hrun := hinv.run_inv hr
  refine ⟨.refl s, hin, hrun, ⟨fun hb => absurd (by rw [hi0, Nat.zero_mod]) hb, fun b q c _ _ hbelow => ?_⟩⟩
  have hpos : 0 < 2 * s.nch.toNat * (q + 1) := Nat.mul_pos (by have := hrun.nch; omega) (by omega)
  omega

/-- The run that has ended or whose status alone has changed keeps what it has decoded. -/
theorem RunOf.withStatus {s t : State} (h : RunOf s t) (r : RunState) (c : Cause) :
    RunOf s { t with runState := r, cause := c } where
  stream := ⟨h.stream.nch, h.stream.fsz, h.stream.ilen, h.stream.cfg, h.stream.imem⟩
  quiet := h.quiet
  run_inv := h.run_inv
  decoded := ⟨h.decoded.channels, h.decoded.output⟩

/-- A step that goes on with the run. -/
theorem RunOf.goesOn {s t u : State} (h : RunOf s t) (hgo : RunGoesOn t u) (hinv : RunInvariant u)
    (hdec : StreamDecoded u) : RunOf s u := by
  obtain ⟨-, -, -, -, -, -, -, hin⟩ := hgo.fields
  exact ⟨h.stream.trans (.of_runGoesOn hgo), hin.trans h.quiet, hinv, hdec⟩

theorem RunOf.dataStep {s t u : State} (h : RunOf s t) (hb : t.icur.toNat % t.fsz.toNat ≠ 0) (hd : DataStep t u) :
    RunOf s u :=
  h.goesOn hd.frame.runGoesOn (hd.runInvariant h.run_inv hb) (hd.streamDecoded h.run_inv h.decoded hb)

theorem RunOf.loadStep {s t : State} (h : RunOf s t) (hb : t.icur.toNat % t.fsz.toNat = 0)
    (hfit : t.icur.toNat + t.fsz.toNat ≤ t.ilen.toNat) : RunOf s (loadedBlock t) :=
  h.goesOn (loadedBlock_runGoesOn t) (runInvariant_loadedBlock t h.run_inv hb hfit)
    (streamDecoded_loadedBlock h.run_inv h.decoded hb hfit)

/-- Every step of a run left alone gives a state of the run, also once it has ended. -/
theorem RunOf.step {s t u : State} (h : RunOf s t) (hstep : step t = .next u) : RunOf s u := by
  rw [step_of_noInputs t h.quiet] at hstep
  by_cases hr : t.runState = .run
  · obtain ⟨u', hu', hcases⟩ := decoderStep_runCases t hr h.run_inv
    obtain rfl := next_inj (hu'.symm.trans hstep)
    rcases hcases with he | ⟨hb, hfit, rfl⟩ | ⟨hb, hd⟩
    · rw [he.frame]
      exact h.withStatus _ _
    · exact h.loadStep hb hfit
    · exact h.dataStep hb hd
  · rw [decoderStep_still t hr] at hstep
    rw [next_inj hstep]
    exact h

/-- The whole blocks below `OLEN` are decoded. -/
theorem RunOf.blocksDecoded {s t : State} (h : RunOf s t) : BlocksDecoded s t := by
  intro b q c hbelow hc hq v a
  have hsame := h.stream
  have hn : s.nch.toNat = 1 ∨ s.nch.toNat = 2 := hsame.nch ▸ h.run_inv.nch
  have hoff : sampleOffset s b c q = a := by
    rcases hn with e | e
    · obtain rfl : c = .ch0 := by cases c with
        | ch0 => rfl
        | ch1 => exact absurd hc (by rw [e]; decide)
      simp only [a, sampleOffset, e, if_true, Channel.num]
      omega
    · simp only [a, sampleOffset, e]
      simp only [OfNat.ofNat_ne_one, if_false]
      omega
  have hframe : 2 * s.nch.toNat * (q + 1) ≤ blockOutputBytes s := by
    rw [blockOutputBytes_eq s hn]
    exact Nat.mul_le_mul_left _ hq
  have hstands : SampleStands t b c q := by
    refine h.decoded.output b q c (by rwa [hsame.nch]) (by rwa [hsame.samplesPerBlock]) ?_
    rw [Nat.add_mul, Nat.one_mul] at hbelow
    rw [hsame.blockOutputBytes, hsame.nch]
    omega
  have hv : v = blockSample s b c q := blockSamples_getD s b c q hq
  unfold SampleStands at hstands
  rwa [hsame.sampleOffset, hsame.blockSample, hoff, ← hv] at hstands

/-- Settles O41, since each step keeps the relation to the first state of the run. -/
theorem outputIsTheBlocksDecoded : Obligations.OutputIsTheBlocksDecoded := by
  intro s k t hs hrun
  have h : RunOf s t := run_keeps (RunOf s) (fun _ _ h hstep => h.step hstep) k (runOf_self hs) hrun
  exact h.blocksDecoded

end Sys2Proof.Machine
end

section
/-! PROOF. O40 (42_block_framer R174): a run goes on to the boundary of any block that has none before it reserved, and there
the order of the tests (O8) says how it ends. -/

namespace Sys2Proof.Machine

/-- `Rsvd(k)` is the test at the boundary of block `k`, in every state of the run. -/
theorem SameStream.reservedAt_iff {s t : State} (h : SameStream s t) (k : Nat) :
    ReservedAt t (k * s.fsz.toNat) ↔ ReservedSet s k := by
  unfold ReservedAt ReservedSet
  rw [imemByte_congr s t h.imem, imemByte_congr s t h.imem, h.nch]

/-- A cursor at a boundary before the end of block `b` has its whole block before it. -/
theorem boundary_before {a f b : Nat} (hb : a % f = 0) (hlt : a < b * f) :
    ∃ j < b, a = j * f ∧ a + f ≤ b * f := by
  have heq := Nat.div_add_mod a f
  rw [Nat.mul_comm, hb, Nat.add_zero] at heq
  have hj : a / f < b := by
    by_contra hge
    have := Nat.mul_le_mul_right f (Nat.le_of_not_lt hge)
    omega
  have hend := Nat.mul_le_mul_right f hj
  rw [Nat.succ_mul] at hend
  exact ⟨a / f, hj, heq.symm, by omega⟩

section
variable {s : State} {b : Nat} (hin : b * s.fsz.toNat ≤ s.ilen.toNat) (hres : ∀ j < b, ¬ ReservedSet s j)
include hin hres

/-- Before the boundary of block `b` the run goes on, and does not pass it. -/
theorem step_towards_boundary {t : State} (h : RunOf s t) (hr : t.runState = .run)
    (hlt : t.icur.toNat < b * s.fsz.toNat) :
    ∃ u, step t = .next u ∧ RunOf s u ∧ u.runState = .run ∧ t.icur.toNat + 1 ≤ u.icur.toNat ∧
      u.icur.toNat ≤ b * s.fsz.toNat := by
  have hinv := h.run_inv
  obtain ⟨hn, hf, -⟩ := hinv.legal
  have hfsz := h.stream.fsz
  have hilen := h.stream.ilen
  rw [step_of_noInputs t h.quiet]
  by_cases hb : t.icur.toNat % t.fsz.toNat = 0
  · obtain ⟨j, hj, hicur, hend⟩ := boundary_before (b := b) hb (by rwa [hfsz])
    have hfit : t.icur.toNat + t.fsz.toNat ≤ t.ilen.toNat := by rw [hilen]; rw [hfsz] at hend ⊢; omega
    have hzero : ¬ ReservedAt t t.icur.toNat := by
      rw [hicur, hfsz, h.stream.reservedAt_iff]
      exact hres j hj
    have hload : decoderStep t = .next (loadedBlock t) := by
      rcases boundaryStep_cases t hr hb hn hinv.icur_le with ⟨_, -⟩ | ⟨-, _, -⟩ | ⟨-, hset, -⟩ | ⟨-, -, _, -⟩ | ⟨-, -, -, e⟩
      · omega
      · omega
      · exact absurd hset hzero
      · omega
      · exact e
    obtain ⟨hrun, -⟩ := (loadedBlock_runGoesOn t).fields
    refine ⟨_, hload, h.loadStep hb hfit, hrun.trans hr, ?_, ?_⟩
    · rw [loadedBlock_icur t hinv hfit]; omega
    · rw [loadedBlock_icur t hinv hfit]; rw [hfsz] at hend hf; omega
  · obtain ⟨u, hu, hd⟩ := decoderStep_region t hr hinv hb
    obtain ⟨hpos, hfit, -⟩ := dataUnit_bounds t hinv hb
    obtain ⟨hicur, -⟩ := hd.cursors hinv hb
    obtain ⟨hrun, -⟩ := hd.frame.runGoesOn.fields
    obtain ⟨-, -, heq, -⟩ := region_bounds t hinv hb
    have hblock : (t.icur.toNat - t.icur.toNat % t.fsz.toNat) + t.fsz.toNat ≤ b * t.fsz.toNat := by
      have hstart : t.icur.toNat - t.icur.toNat % t.fsz.toNat = t.icur.toNat / t.fsz.toNat * t.fsz.toNat := by omega
      obtain ⟨-, -, -, hend⟩ := boundary_before (a := t.icur.toNat - t.icur.toNat % t.fsz.toNat) (b := b)
        (by rw [hstart, Nat.mul_mod_left]) (by rw [hfsz]; omega)
      exact hend
    refine ⟨u, hu, h.dataStep hb hd, hrun.trans hr, by omega, ?_⟩
    rw [hfsz] at hblock hfit
    omega

/-- So it reaches that boundary, in no more steps than there are bytes to it. -/
theorem run_to_boundary (n : Nat) {t : State} (h : RunOf s t) (hr : t.runState = .run)
    (hle : t.icur.toNat ≤ b * s.fsz.toNat) (hn : b * s.fsz.toNat - t.icur.toNat ≤ n) :
    ∃ k ≤ b * s.fsz.toNat - t.icur.toNat, ∃ u, Host.Core.run Sys2Proof.core k t = .next u ∧ RunOf s u ∧
      u.runState = .run ∧ u.icur.toNat = b * s.fsz.toNat := by
  induction n generalizing t with
  | zero => exact ⟨0, Nat.zero_le _, t, run_zero t, h, hr, by omega⟩
  | succ n ih =>
    rcases Nat.lt_or_eq_of_le hle with hlt | heq
    · obtain ⟨u, hu, hof, hrun, hadv, hle'⟩ := step_towards_boundary hin hres h hr hlt
      obtain ⟨k, hk, v, hv, hend⟩ := ih hof hrun hle' (by omega)
      exact ⟨k + 1, by omega, v, (run_succ k t u hu).trans hv, hend⟩
    · exact ⟨0, Nat.zero_le _, t, run_zero t, h, hr, heq⟩

/-- A run that has just begun, and that ends at the boundary of block `b`, ends there with the whole blocks before it. -/
theorem endsIn_of_boundary (hs : JustStarted s) (r : RunState) (c : Cause)
    (hend : ∀ u, RunOf s u → u.runState = .run → u.icur.toNat = b * s.fsz.toNat →
      step u = .next { u with runState := r, cause := c }) :
    EndsIn s r c (b * s.fsz.toNat) (b * blockOutputBytes s) := by
  have ⟨_, hr, hicur, _, _⟩ := hs
  have hi0 : s.icur.toNat = 0 := by rw [hicur]; rfl
  obtain ⟨k, hk, u, hu, hof, hrun, hat⟩ :=
    run_to_boundary hin hres _ (runOf_self hs) hr (by omega) le_rfl
  refine ⟨k + 1, by omega, { u with runState := r, cause := c }, ?reached, rfl, rfl, hat, ?output,
    (hof.withStatus r c).blocksDecoded⟩
  case reached => exact (run_add k 1 s u hu).trans (run_succ 0 u _ (hend u hof hrun hat))
  case output =>
    obtain ⟨-, hf, -⟩ := hof.run_inv.legal
    have hb : u.icur.toNat % u.fsz.toNat = 0 := by rw [hat, hof.stream.fsz, Nat.mul_mod_left]
    have hpos : 0 < s.fsz.toNat := by
      have hn := hof.run_inv.nch
      rw [hof.stream.fsz] at hf
      omega
    exact (hof.run_inv.olen_boundary hb).trans
      (by rw [hof.stream.blockOutputBytes, hof.stream.fsz, hat, Nat.mul_div_cancel _ hpos])

end

/-- How a state of the run ends at the boundary of block `b`: the tests of O8, by the bytes of the input from there on. -/
theorem endings_at_boundary {s u : State} {b : Nat} (h : RunOf s u) (hr : u.runState = .run)
    (hat : u.icur.toNat = b * s.fsz.toNat) :
    (s.ilen.toNat = b * s.fsz.toNat → step u = .next { u with runState := .done, cause := .endOfInput }) ∧
    (b * s.fsz.toNat < s.ilen.toNat → s.ilen.toNat < b * s.fsz.toNat + 4 * s.nch.toNat →
      step u = .next { u with runState := .fault, cause := .invalidInput }) ∧
    (b * s.fsz.toNat + 4 * s.nch.toNat ≤ s.ilen.toNat → ReservedSet s b →
      step u = .next { u with runState := .done, cause := .reservedStop }) ∧
    (b * s.fsz.toNat + 4 * s.nch.toNat ≤ s.ilen.toNat → ¬ ReservedSet s b →
      s.ilen.toNat < b * s.fsz.toNat + s.fsz.toNat → step u = .next { u with runState := .fault, cause := .invalidInput }) := by
  have hn := h.run_inv.nch
  have hb : u.icur.toNat % u.fsz.toNat = 0 := by rw [hat, h.stream.fsz, Nat.mul_mod_left]
  have hres := reservedAt_iff_channel u u.icur.toNat hn
  rw [hat, h.stream.reservedAt_iff, ← hat] at hres
  obtain ⟨hend, hreach, hset, hshort, -⟩ := boundaryStepTestsInOrder u h.quiet hr hb hn
  rw [← hres] at hset hshort
  have hnch : u.nch.toNat = s.nch.toNat := by rw [h.stream.nch]
  have hfsz : u.fsz.toNat = s.fsz.toNat := by rw [h.stream.fsz]
  have hilen : u.ilen.toNat = s.ilen.toNat := by rw [h.stream.ilen]
  refine ⟨fun e => hend (by omega), fun e e' => hreach (by omega) (by omega), fun e e' => hset (by omega) e',
    fun e e' e'' => hshort (by omega) e' (by omega)⟩

/-- Settles O40, row by row: the boundary that the run reaches, and the test that ends it there. -/
theorem runEndsAsTheTableSays : Obligations.RunEndsAsTheTableSays := by
  intro s hs q r d
  have ⟨hinv, hrun, _⟩ := hs
  obtain ⟨hn, hf, -⟩ := (hinv.run_inv hrun).legal
  have hsplit : q * s.fsz.toNat + r = s.ilen.toNat := by rw [Nat.mul_comm]; exact Nat.div_add_mod _ _
  have hr : r < s.fsz.toNat := Nat.mod_lt _ (by omega)
  refine ⟨fun b hbq hset hres => ?reserved, fun hres => ⟨fun h0 => ?inputEnd, fun h0 hlt => ?outOfReach,
    fun hreach hset => ?lastReserved, fun hreach hset => ?short⟩⟩
  case reserved =>
    have hend := Nat.mul_le_mul_right s.fsz.toNat hbq
    rw [Nat.succ_mul] at hend
    refine endsIn_of_boundary (by omega) hres hs _ _ fun u hu hr hat => ?_
    obtain ⟨-, -, hstop, -⟩ := endings_at_boundary hu hr hat
    exact hstop (by omega) hset
  case inputEnd =>
    have hall : s.ilen.toNat = q * s.fsz.toNat := by omega
    rw [hall]
    refine endsIn_of_boundary (by omega) hres hs _ _ fun u hu hr hat => ?_
    obtain ⟨hend, -⟩ := endings_at_boundary hu hr hat
    exact hend hall
  case outOfReach =>
    refine endsIn_of_boundary (by omega) hres hs _ _ fun u hu hr hat => ?_
    obtain ⟨-, hfault, -⟩ := endings_at_boundary hu hr hat
    exact hfault (by omega) (by omega)
  case lastReserved =>
    refine endsIn_of_boundary (by omega) hres hs _ _ fun u hu hr hat => ?_
    obtain ⟨-, -, hstop, -⟩ := endings_at_boundary hu hr hat
    exact hstop (by omega) hset
  case short =>
    refine endsIn_of_boundary (by omega) hres hs _ _ fun u hu hr hat => ?_
    obtain ⟨-, -, -, hfault⟩ := endings_at_boundary hu hr hat
    exact hfault (by omega) hset (by omega)

end Sys2Proof.Machine
end

section
/-! PROOF. O23, O24 (10_state R33, R34; 60_exceptions R250, R256, R257): what a step can do to the status, said once for
every mover; a fault of the decoder is the ending of a run that meets the invariant. -/

namespace Sys2Proof.Machine

/-- The ways a step that answers a next state can enter a run state: it keeps the one there is; a `RESET`; a `START` with a
legal configuration, or with one that is not; the decoder's three endings at a block boundary of a run. -/
theorem step_status_cases (s t : State) (h : step s = .next t) :
    t.runState = s.runState ∨
    (ResetNext s ∧ t.runState = .idle) ∨
    (StartNext s ∧ (s.runState = .idle ∨ s.runState = .done) ∧ LegalConfig s ∧ t.runState = .run ∧ t.cause = .noCause) ∨
    (StartNext s ∧ (s.runState = .idle ∨ s.runState = .done) ∧ ¬ LegalConfig s ∧ t.runState = .fault ∧
      t.cause = .invalidConfig) ∨
    (s.runState = .run ∧ DecoderTurn s ∧ s.icur.toNat % s.fsz.toNat = 0 ∧ t.icur = s.icur ∧
      ((t.runState = .done ∧ t.cause = .endOfInput ∧ s.icur = s.ilen) ∨
       (t.runState = .done ∧ t.cause = .reservedStop ∧ s.icur.toNat + 4 * s.nch.toNat ≤ s.ilen.toNat) ∨
       (t.runState = .fault ∧ t.cause = .invalidInput))) := by
  by_cases hturn : DecoderTurn s
  · by_cases hr : s.runState = .run
    · rw [step_decoder s hturn] at h
      rcases decoderStep_cases { s with inputs := s.inputs.tail } t hr h with hgo | ⟨hb, hend⟩
      · exact .inl (by rw [hgo])
      · refine .inr (.inr (.inr (.inr ?_)))
        rcases hend with ⟨hat, rfl⟩ | ⟨hreach, rfl⟩ | rfl
        · exact ⟨hr, hturn, hb, rfl, .inl ⟨rfl, rfl, hat⟩⟩
        · exact ⟨hr, hturn, hb, rfl, .inr (.inl ⟨rfl, rfl, hreach⟩)⟩
        · exact ⟨hr, hturn, hb, rfl, .inr (.inr ⟨rfl, rfl⟩)⟩
    · rw [next_unique h (step_decoder_still s hturn hr)]
      exact .inl rfl
  · rcases step_host_cases s t h hturn with ⟨hreset, rfl⟩ | ⟨hstart, hacc, hl, rfl⟩ | ⟨hstart, hacc, hl, rfl⟩ | rfl |
      ⟨n, v, rfl⟩ | ⟨a, b, -, -, rfl⟩ | ⟨v, rfl⟩ | ⟨c, n, -, rfl⟩
    · exact .inr (.inl ⟨hreset, rfl⟩)
    · exact .inr (.inr (.inl ⟨hstart, hacc, hl, rfl, rfl⟩))
    · exact .inr (.inr (.inr (.inl ⟨hstart, hacc, hl, rfl, rfl⟩)))
    · exact .inl rfl
    · exact .inl (writeConfig_runState _ n v)
    · exact .inl rfl
    · exact .inl rfl
    · exact .inl (decodeOn_status c n _).1

/-- Settles O23: each way to change the status enters one run state, and is that state's rule. -/
theorem runStateChangesOnlyByRule : Obligations.RunStateChangesOnlyByRule := by
  intro s t h
  rcases step_status_cases s t h with hsame | ⟨hreset, hidle⟩ | ⟨hstart, hacc, hl, hrun, hcause⟩ |
    ⟨hstart, hacc, hl, hfault, hcause⟩ | ⟨hr, hturn, hb, hicur, hend⟩
  · rw [hsame]
    exact ⟨.inl, .inl, .inl, .inl⟩
  · rw [hidle]
    exact ⟨fun _ => .inr hreset, nofun, nofun, nofun⟩
  · rw [hrun]
    exact ⟨nofun, fun _ => .inr ⟨hstart, hacc, hl, hcause⟩, nofun, nofun⟩
  · rw [hfault]
    exact ⟨nofun, nofun, nofun, fun _ => .inr (.inl ⟨hstart, hacc, hl, hcause⟩)⟩
  · rcases hend with ⟨hdone, hcause, hat⟩ | ⟨hdone, hcause, hreach⟩ | ⟨hfault, hcause⟩
    · rw [hdone]
      exact ⟨nofun, nofun, fun _ => .inr ⟨hr, hturn, hb, hicur, .inl ⟨hcause, hat⟩⟩, nofun⟩
    · rw [hdone]
      exact ⟨nofun, nofun, fun _ => .inr ⟨hr, hturn, hb, hicur, .inr ⟨hcause, hreach⟩⟩, nofun⟩
    · rw [hfault]
      exact ⟨nofun, nofun, nofun, fun _ => .inr (.inr ⟨hr, hturn, hb, hcause⟩)⟩

/-- Settles O24: in a run the decoder alone enters `FAULT`, by the one ending that does. -/
theorem decoderFaultIsPrecise : Obligations.DecoderFaultIsPrecise := by
  intro s t hinv h hr hfault
  by_cases hturn : DecoderTurn s
  · rw [step_decoder s hturn] at h
    rcases decoderStep_cases { s with inputs := s.inputs.tail } t hr h with hgo | ⟨hb, ⟨-, rfl⟩ | ⟨-, rfl⟩ | rfl⟩
    · have hsame : t.runState = s.runState := by rw [hgo]
      exact nomatch hfault.symm.trans (hsame.trans hr)
    · cases hfault
    · cases hfault
    · exact ⟨rfl, hb, (hinv.run_inv hr).olen_boundary hb⟩
  · rcases duringARunOnlyTheDecoderActs s t h hr hturn with ⟨-, rfl⟩ | hsame
    · cases hfault
    · have hrun : t.runState = s.runState := by rw [hsame]
      exact nomatch hfault.symm.trans (hrun.trans hr)

end Sys2Proof.Machine
end

section
/-! PROOF. O35 to O38 (20_memory R51 to R53; 40_luts R110): when a step answers, and what it writes of the tables and of the
two memories. -/

namespace Sys2Proof.Machine

/-! ### When a step answers -/

/-- From a state that meets the invariant the decoder's turn answers a next state. -/
theorem decoderStep_next (s : State) (h : Inv s) : ∃ t, decoderStep s = .next t := by
  by_cases hr : s.runState = .run
  · obtain ⟨t, ht, -⟩ := decoderStep_runCases s hr (h.run_inv hr)
    exact ⟨t, ht⟩
  · exact ⟨s, decoderStep_still s hr⟩

/-- A write of a register answers a next state. -/
theorem writeReg_next (n : Nat) (v : Word) (s : State) : ∃ t, writeReg n v s = .next t := by
  by_cases hn : n = 0
  · rw [writeReg, if_pos hn]
    rcases writeCtrl_cases v s with ⟨-, e⟩ | ⟨-, -, e⟩ | ⟨-, -, e⟩
    · exact ⟨_, e⟩
    · rw [e]; exact exec_next (.start (v.extractLsb' 2 30)) s
    · exact ⟨_, e⟩
  · exact ⟨_, by rw [writeReg, if_neg hn]⟩

/-- The moves that the model refuses in a run, each for its reason (log 8, log 12). -/
def RefusedInRun (m : Input) (r : Refusal) : Prop :=
  (r = .hostBreach ∧ ((∃ a b, m = .writeIMem a b) ∨ (∃ a, m = .readIMem a) ∨ ∃ a, m = .readOMem a)) ∨
  (r = .nibbleInRun ∧ ∃ c n, m = .nibble c n)

/-- A move kept out of runs answers outside one, where its own outcome does, and is refused in one for its reason. -/
theorem unlessRunning_cases {m : Input} {why : Refusal} (s : State) {o : Host.Outcome State Fault Refusal}
    (ho : ∃ t, o = .next t) (hwhy : RefusedInRun m why) :
    (∃ t, unlessRunning why s o = .next t) ∨
    (s.runState = .run ∧ ∃ r, unlessRunning why s o = .refused r ∧ RefusedInRun m r) := by
  by_cases hr : s.runState = .run
  · exact .inr ⟨hr, why, unlessRunning_run why s o hr, hwhy⟩
  · rw [unlessRunning_idle why s o hr]
    exact .inl ho

/-- A host move answers a next state, or is refused in a run for its reason. -/
theorem hostMove_cases (m : Input) (s : State) :
    (∃ t, hostMove m s = .next t) ∨
    (s.runState = .run ∧ ∃ r, hostMove m s = .refused r ∧ RefusedInRun m r) := by
  cases m with
  | decoder => exact .inl ⟨s, rfl⟩
  | writeReg n v => exact .inl (writeReg_next n v s)
  | readReg n => exact .inl ⟨_, rfl⟩
  | writeIMem a b => exact unlessRunning_cases s ⟨_, rfl⟩ (.inl ⟨rfl, .inl ⟨a, b, rfl⟩⟩)
  | readIMem a => exact unlessRunning_cases s ⟨_, rfl⟩ (.inl ⟨rfl, .inr (.inl ⟨a, rfl⟩)⟩)
  | readOMem a => exact unlessRunning_cases s ⟨_, rfl⟩ (.inl ⟨rfl, .inr (.inr ⟨a, rfl⟩)⟩)
  | nibble c n => exact unlessRunning_cases s (exec_next _ s) (.inr ⟨rfl, c, n, rfl⟩)

/-- Settles O35: the decoder's turn answers, and a host move answers or is refused in a run. -/
theorem noReadBeyondTheInput : Obligations.NoReadBeyondTheInput := by
  intro s h
  have hanswer : (∃ t, step s = .next t) ∨ (s.runState = .run ∧ ∃ m rest, s.inputs = m :: rest ∧
      ∃ r, step s = .refused r ∧ RefusedInRun m r) := by
    rcases step_cases s with ⟨-, e⟩ | ⟨rest, -, e⟩ | ⟨m, rest, hin, -, e⟩
    · rw [e]; exact .inl (decoderStep_next s h)
    · rw [e]; exact .inl (decoderStep_next _ (h.withHost rest s.replies))
    · rw [e]
      rcases hostMove_cases m { s with inputs := rest } with hnext | ⟨hr, r, href, hwhy⟩
      · exact .inl hnext
      · exact .inr ⟨hr, m, rest, hin, r, href, hwhy⟩
  rcases hanswer with ⟨t, e⟩ | ⟨hr, m, rest, hin, r, e, hwhy⟩
  · rw [e]
    exact ⟨nofun, nofun⟩
  · rw [e]
    refine ⟨nofun, fun r' e' => ⟨hr, m, rest, hin, ?_⟩⟩
    cases e'
    exact hwhy

/-! ### The tables and `IMEM` -/

/-- The decoder writes neither the tables nor `IMEM`. -/
theorem decoderStep_keeps_input {s t : State} (h : decoderStep s = .next t) : t.cfg = s.cfg ∧ t.imem = s.imem := by
  by_cases hr : s.runState = .run
  · rcases decoderStep_cases s t hr h with hgo | ⟨-, ⟨-, rfl⟩ | ⟨-, rfl⟩ | rfl⟩
    · exact ⟨by rw [hgo], by rw [hgo]⟩
    · exact ⟨rfl, rfl⟩
    · exact ⟨rfl, rfl⟩
    · exact ⟨rfl, rfl⟩
  · rw [decoderStep_still s hr] at h
    rw [next_inj h]
    exact ⟨rfl, rfl⟩

/-- A nibble presented alone writes neither the tables, nor a memory, nor `OLEN`. -/
theorem decodeOn_keeps (c : Channel) (n : Nibble) (s : State) :
    (decodeOn c n s).cfg = s.cfg ∧ (decodeOn c n s).imem = s.imem ∧ (decodeOn c n s).omem = s.omem ∧
    (decodeOn c n s).olen = s.olen := by
  rw [decodeOn_frame]
  exact ⟨setChan_cfg s c _, setChan_imem s c _, setChan_omem s c _, setChan_olen s c _⟩

/-- No step writes the tables, and only a host write outside a run writes `IMEM`. -/
theorem step_keeps_input (s t : State) (h : step s = .next t) :
    t.cfg = s.cfg ∧ (t.imem = s.imem ∨ ∃ a b, s.inputs = .writeIMem a b :: s.inputs.tail ∧ s.runState ≠ .run ∧
      t.imem = (s.imemWrite a b).imem) := by
  by_cases hturn : DecoderTurn s
  · rw [step_decoder s hturn] at h
    obtain ⟨hcfg, himem⟩ := decoderStep_keeps_input h
    exact ⟨hcfg, .inl himem⟩
  · rcases step_host_cases s t h hturn with ⟨-, rfl⟩ | ⟨-, -, -, rfl⟩ | ⟨-, -, -, rfl⟩ | rfl | ⟨n, v, rfl⟩ |
      ⟨a, b, hin, hr, rfl⟩ | ⟨v, rfl⟩ | ⟨c, n, -, rfl⟩
    · exact ⟨rfl, .inl rfl⟩
    · exact ⟨rfl, .inl rfl⟩
    · exact ⟨rfl, .inl rfl⟩
    · exact ⟨rfl, .inl rfl⟩
    · exact ⟨writeConfig_cfg _ n v, .inl (writeConfig_imem _ n v)⟩
    · exact ⟨rfl, .inr ⟨a, b, hin, hr, rfl⟩⟩
    · exact ⟨rfl, .inl rfl⟩
    · obtain ⟨hcfg, himem, -⟩ := decodeOn_keeps c n { s with inputs := s.inputs.tail }
      exact ⟨hcfg, .inl himem⟩

/-- Settles O36. -/
theorem tablesAreNeverWritten : Obligations.TablesAreNeverWritten := fun s t h => (step_keeps_input s t h).1

/-- Settles O37, by the law of the byte write. -/
theorem inputMemoryIsWrittenByTheHostOnly : Obligations.InputMemoryIsWrittenByTheHostOnly := by
  intro s t h
  obtain ⟨-, hsame | ⟨a, b, hin, hr, himem⟩⟩ := step_keeps_input s t h
  · exact .inl hsame
  · have hbyte : ∀ k, t.imemByte k = if k = a.toNat then b else s.imemByte k := fun k =>
      (imemByte_congr (s.imemWrite a b) t himem k).trans (imemByte_imemWrite s a b k)
    exact .inr ⟨a, b, s.inputs.tail, hin, hr, by rw [hbyte, if_pos rfl], fun k hk => by rw [hbyte, if_neg hk]⟩

/-! ### `OMEM` and `OLEN` -/

/-- The output bytes of the data unit of a mode (43_nibble_interleaver R191, R196). -/
theorem unitBytes_eq (s : State) (hn : s.nch.toNat = 1 ∨ s.nch.toNat = 2) :
    4 * unitBytes (modeOf s.nch) = if s.nch.toNat = 1 then 4 else 32 := by
  rcases hn with h | h
  · rw [modeOf_mono s h, h]; rfl
  · rw [modeOf_stereo s h, h]; rfl

/-- An offset that is not at or above `lo` and below `hi` lies beside the two. -/
theorem beside_of_not_between {lo hi a : Nat} (h : ¬ (lo ≤ a ∧ a < hi)) : a < lo ∨ hi ≤ a := by omega

/-- The decoder's turn keeps `OMEM` and `OLEN`, or it is a data step of a run. -/
theorem decoderStep_output {s t : State} (hinv : Inv s) (h : decoderStep s = .next t) :
    (t.omem = s.omem ∧ t.olen = s.olen) ∨
    (s.runState = .run ∧ s.icur.toNat % s.fsz.toNat ≠ 0 ∧ DataStep s t) := by
  by_cases hr : s.runState = .run
  · obtain ⟨t', ht', hcases⟩ := decoderStep_runCases s hr (hinv.run_inv hr)
    obtain rfl := next_inj (ht'.symm.trans h)
    rcases hcases with he | ⟨-, -, rfl⟩ | ⟨hb, hd⟩
    · exact .inl ⟨by rw [he.frame], by rw [he.frame]⟩
    · exact .inl ⟨loadedBlock_omem s, loadedBlock_olen s⟩
    · exact .inr ⟨hr, hb, hd⟩
  · rw [decoderStep_still s hr] at h
    rw [next_inj h]
    exact .inl ⟨rfl, rfl⟩

/-- A host move keeps `OMEM`, and `OLEN` but for `START` and `RESET`. -/
theorem hostStep_output (s t : State) (h : step s = .next t) (hturn : ¬ DecoderTurn s) :
    t.omem = s.omem ∧ (t.olen = s.olen ∨ (t.olen = 0 ∧ (StartNext s ∨ ResetNext s))) := by
  rcases step_host_cases s t h hturn with ⟨hreset, rfl⟩ | ⟨hstart, -, -, rfl⟩ | ⟨hstart, -, -, rfl⟩ | rfl | ⟨n, v, rfl⟩ |
    ⟨a, b, -, -, rfl⟩ | ⟨v, rfl⟩ | ⟨c, n, -, rfl⟩
  · exact ⟨rfl, .inr ⟨rfl, .inr hreset⟩⟩
  · exact ⟨rfl, .inr ⟨rfl, .inl hstart⟩⟩
  · exact ⟨rfl, .inr ⟨rfl, .inl hstart⟩⟩
  · exact ⟨rfl, .inl rfl⟩
  · exact ⟨writeConfig_omem _ n v, .inl (writeConfig_olen _ n v)⟩
  · exact ⟨rfl, .inl rfl⟩
  · exact ⟨rfl, .inl rfl⟩
  · obtain ⟨-, -, homem, holen⟩ := decodeOn_keeps c n { s with inputs := s.inputs.tail }
    exact ⟨homem, .inl holen⟩

/-- Settles O38, by the bytes a data step writes; no other step writes `OMEM`. -/
theorem outputGrowsOnlyAtItsEnd : Obligations.OutputGrowsOnlyAtItsEnd := by
  intro s t hinv h
  by_cases hturn : DecoderTurn s
  · rw [step_decoder s hturn] at h
    have hu : Inv { s with inputs := s.inputs.tail } := hinv.withHost s.inputs.tail s.replies
    rcases decoderStep_output hu h with ⟨homem, holen⟩ | ⟨hr, hb, hd⟩
    · exact ⟨fun a ha => absurd (omemByte_congr s t homem a) ha, .inl (congrArg BitVec.toNat holen)⟩
    · have hrun := hu.run_inv hr
      obtain ⟨-, holen⟩ := hd.cursors hrun hb
      refine ⟨fun a ha => ⟨hr, hturn, ?_⟩, .inr (.inl ⟨hr, hturn, by rw [holen, unitBytes_eq _ hrun.nch]⟩)⟩
      by_contra hout
      exact ha (hd.kept a (by rw [← holen]; exact beside_of_not_between hout))
  · obtain ⟨homem, holen⟩ := hostStep_output s t h hturn
    refine ⟨fun a ha => absurd (omemByte_congr s t homem a) ha, ?_⟩
    rcases holen with e | e
    · exact .inl (congrArg BitVec.toNat e)
    · exact .inr (.inr e)

end Sys2Proof.Machine
end

section
/-! PROOF. O2 to O7 (41_sample_decoder R122 to R148; 40_luts R112 to R116): every code is `DecodeSample` with the code's own
difference, whose size is the magnitude; the magnitude is the plain sum of the selected terms below the wrap, and the
default table keeps it there. -/

namespace Sys2Proof.Machine

/-! ### One code -/

/-- A code below 8 adds its magnitude (41_sample_decoder R123). -/
theorem difference_of_positive (step : Half) (n : Nibble) (h : n.getLsbD 3 = false) :
    difference step n = ((magnitude step n).toNat : Int) := by
  rw [difference, h]
  rfl

/-- A code from 8 on subtracts it (41_sample_decoder R123). -/
theorem difference_of_negative (step : Half) (n : Nibble) (h : n.getLsbD 3 = true) :
    difference step n = -((magnitude step n).toNat : Int) := by
  rw [difference, if_pos h]

/-- The size of the difference is the magnitude. -/
theorem difference_natAbs (step : Half) (n : Nibble) : (difference step n).natAbs = (magnitude step n).toNat := by
  cases h : n.getLsbD 3 with
  | false => rw [difference_of_positive step n h, Int.natAbs_natCast]
  | true => rw [difference_of_negative step n h, Int.natAbs_neg, Int.natAbs_natCast]

/-- A code below 8 completes and moves the predictor up by its magnitude. -/
theorem exec_positive (c : Channel) (n : Nibble) (s : State) (h : n.getLsbD 3 = false) {m : Nat}
    (hm : (magnitude (s.cfg.stepLut.get (s.chan c).idx) n).toNat = m) :
    ∃ t, exec (nibbleInstr c n) s = .next t ∧ SampleEffect c n m s t := by
  have heffect := sampleEffect_decodeOn c n s
  rw [difference_of_positive _ n h, hm] at heffect
  exact ⟨_, exec_nibbleInstr c n s, heffect⟩

/-- A code from 8 on completes and moves the predictor down by its magnitude. -/
theorem exec_negative (c : Channel) (n : Nibble) (s : State) (h : n.getLsbD 3 = true) {m : Nat}
    (hm : (magnitude (s.cfg.stepLut.get (s.chan c).idx) n).toNat = m) :
    ∃ t, exec (nibbleInstr c n) s = .next t ∧ SampleEffect c n (-(m : Int)) s t := by
  have heffect := sampleEffect_decodeOn c n s
  rw [difference_of_negative _ n h, hm] at heffect
  exact ⟨_, exec_nibbleInstr c n s, heffect⟩

/-! ### The worked examples -/

/-- Under the default tables (log 7) the sample decoder takes predictor `p` and index `i` to `p'` and `i'` by the code `n`. -/
def exampleComputes (n : Nibble) (p : Int) (i : Fin 89) (p' : Int) (i' : Nat) : Bool :=
  let r := decodeSample defaultConfig n ⟨BitVec.ofInt 16 p, i, true⟩
  r.1.toInt = p' && r.2.idx.val = i'

/-- A computed example is a worked example of the rules. -/
theorem sampleExample_of_computes {n : Nibble} {p : Int} {i : Fin 89} {p' : Int} {i' : Nat}
    (h : exampleComputes n p i p' i' = true) : SampleExample n p i.val p' i' := by
  intro c s hcfg hpred hidx
  have hch : decodeSample s.cfg n (s.chan c) = decodeSample defaultConfig n ⟨BitVec.ofInt 16 p, i, true⟩ := by
    rw [hcfg]
    refine decodeSample_congr _ _ _ _ ?_ (Fin.eq_of_val_eq hidx)
    rw [← hpred, BitVec.ofInt_toInt]
  simp only [exampleComputes, Bool.and_eq_true, decide_eq_true_eq] at h
  obtain ⟨hp, hi⟩ := h
  refine ⟨decodeOn c n s, exec_nibbleInstr c n s, ?_, ?_⟩
  · rw [chan_decodeOn_same, decodeSample_pred, hch, hp]
  · rw [chan_decodeOn_same, hch, hi]

/-- The three examples of one rule. -/
theorem threeExamples {n : Nibble} {p q r : Int} {i j k : Fin 89} {p' q' r' : Int} {i' j' k' : Nat}
    (h : (exampleComputes n p i p' i' && exampleComputes n q j q' j' && exampleComputes n r k r' k') = true) :
    SampleExample n p i.val p' i' ∧ SampleExample n q j.val q' j' ∧ SampleExample n r k.val r' k' := by
  simp only [Bool.and_eq_true] at h
  obtain ⟨⟨hp, hq⟩, hr⟩ := h
  exact ⟨sampleExample_of_computes hp, sampleExample_of_computes hq, sampleExample_of_computes hr⟩

/-- Settles O2, by the masked sum that the bits of each code select. -/
theorem positiveCodesAddTheirMagnitude : Obligations.PositiveCodesAddTheirMagnitude := by
  refine ⟨fun c s => ⟨?_, ?_, ?_, ?_, ?_, ?_, ?_, ?_⟩, ?_, ?_, ?_, ?_, ?_, ?_, ?_, ?_⟩
  · exact exec_positive c 0 s rfl (magnitude_toNat _ 0)
  · exact exec_positive c 1 s rfl (magnitude_toNat _ 1)
  · exact exec_positive c 2 s rfl (magnitude_toNat _ 2)
  · exact exec_positive c 3 s rfl (magnitude_toNat _ 3)
  · exact exec_positive c 4 s rfl (magnitude_toNat _ 4)
  · exact exec_positive c 5 s rfl (magnitude_toNat _ 5)
  · exact exec_positive c 6 s rfl (magnitude_toNat _ 6)
  · exact exec_positive c 7 s rfl (magnitude_toNat _ 7)
  all_goals exact threeExamples (i := 44) (j := 88) (k := 0) (by decide)

/-- Settles O3, by the masked sum that the bits of each code select. -/
theorem negativeCodesSubtractTheirMagnitude : Obligations.NegativeCodesSubtractTheirMagnitude := by
  refine ⟨fun c s => ⟨?_, ?_, ?_, ?_, ?_, ?_, ?_, ?_⟩, ?_, ?_, ?_, ?_, ?_, ?_, ?_, ?_⟩
  · exact exec_negative c 8 s rfl (magnitude_toNat _ 8)
  · exact exec_negative c 9 s rfl (magnitude_toNat _ 9)
  · exact exec_negative c 10 s rfl (magnitude_toNat _ 10)
  · exact exec_negative c 11 s rfl (magnitude_toNat _ 11)
  · exact exec_negative c 12 s rfl (magnitude_toNat _ 12)
  · exact exec_negative c 13 s rfl (magnitude_toNat _ 13)
  · exact exec_negative c 14 s rfl (magnitude_toNat _ 14)
  · exact exec_negative c 15 s rfl (magnitude_toNat _ 15)
  all_goals exact threeExamples (i := 44) (j := 88) (k := 0) (by decide)

/-! ### The magnitude below the wrap -/

/-- The sum of the terms that a code selects, without masks (41_sample_decoder R129). -/
def plainSum (step : Nat) (n : Nibble) : Nat :=
  step / 8 + (if n.getLsbD 2 then step else 0) + (if n.getLsbD 1 then step / 2 else 0) +
    (if n.getLsbD 0 then step / 4 else 0)

/-- A term that may be selected is at most the term. -/
theorem selected_le (selected : Bool) (x : Nat) : (if selected then x else 0) ≤ x := by
  split <;> omega

/-- It is 0 only where it is not selected, the term not being 0. -/
theorem selected_eq_zero_iff (selected : Bool) {x : Nat} (hx : 0 < x) :
    (if selected then x else 0) = 0 ↔ selected = false := by
  cases selected with
  | false => simp
  | true => simp [Nat.ne_of_gt hx]

/-- The largest plain sum is that of the code 7 (41_sample_decoder R129). -/
theorem plainSum_le (step : Nat) (n : Nibble) : plainSum step n ≤ step / 8 + step + step / 2 + step / 4 := by
  have h2 := selected_le (n.getLsbD 2) step
  have h1 := selected_le (n.getLsbD 1) (step / 2)
  have h0 := selected_le (n.getLsbD 0) (step / 4)
  unfold plainSum
  omega

/-- One masked addition under a bit, where the sum is below 2^16. -/
theorem maskedAdd_of_lt (selected : Bool) {x y : Nat} (h : x + (if selected then y else 0) < 65536) :
    (if selected then (x + y) % 65536 else x) = x + (if selected then y else 0) := by
  cases selected with
  | false => rfl
  | true => exact Nat.mod_eq_of_lt h

/-- Below 2^16 no mask changes a partial sum, so the magnitude is the plain sum (41_sample_decoder R129). -/
theorem magnitude_of_plainSum_lt (step : Half) (n : Nibble) (h : plainSum step.toNat n < 65536) :
    (magnitude step n).toNat = plainSum step.toNat n := by
  unfold plainSum at h ⊢
  rw [magnitude_toNat]
  dsimp only
  rw [maskedAdd_of_lt (n.getLsbD 2) (by omega), maskedAdd_of_lt (n.getLsbD 1) (by omega),
    maskedAdd_of_lt (n.getLsbD 0) h]

/-- Up to the step 34952 the plain sum is below 2^16 (41_sample_decoder R147). -/
theorem plainSum_lt_of_step_le (step : Nat) (n : Nibble) (h : step ≤ 34952) : plainSum step n < 65536 := by
  have := plainSum_le step n
  omega

/-- Settles O4, by the plain sum; the two numbers at the end are computed. -/
theorem magnitudeIsThePlainSumBelowTheWrap : Obligations.MagnitudeIsThePlainSumBelowTheWrap :=
  ⟨fun step n => ⟨magnitude_of_plainSum_lt step n, plainSum_lt_of_step_le step.toNat n⟩, by decide, by decide, by decide⟩

/-! ### The default tables -/

/-- The entries of the default `STEP_LUT` run from 7, at index 0 alone below 8, to 32767 (40_luts R112). -/
theorem defaultSteps_range : ∀ i : Fin 89,
    7 ≤ (defaultConfig.stepLut.get i).toNat ∧ (defaultConfig.stepLut.get i).toNat ≤ 32767 ∧
    ((defaultConfig.stepLut.get i).toNat < 8 ↔ i = 0) := by decide

/-- The codes that select no further term are 0 and 8. -/
theorem lowBits_zero_iff : ∀ n : Nibble,
    (n.getLsbD 2 = false ∧ n.getLsbD 1 = false ∧ n.getLsbD 0 = false) ↔ (n = 0 ∨ n = 8) := by decide

/-- From the step 4 on, a plain sum is 0 only where the step is below 8 and no further term is selected. -/
theorem plainSum_eq_zero_iff (step : Nat) (n : Nibble) (h : 4 ≤ step) :
    plainSum step n = 0 ↔ step < 8 ∧ (n = 0 ∨ n = 8) := by
  rw [← lowBits_zero_iff]
  unfold plainSum
  rw [Nat.add_eq_zero_iff, Nat.add_eq_zero_iff, Nat.add_eq_zero_iff, Nat.div_eq_zero_iff_lt (by decide),
    selected_eq_zero_iff _ (by omega), selected_eq_zero_iff _ (by omega), selected_eq_zero_iff _ (by omega), and_assoc,
    and_assoc]

/-- The two codes with all terms, at the last entry of the default table (41_sample_decoder R148). -/
theorem difference_default_last :
    difference (defaultConfig.stepLut.get 88) 7 = 61436 ∧ difference (defaultConfig.stepLut.get 88) 15 = -61436 ∧
    (defaultConfig.adjLut.get (7 : Nibble).toFin).toInt = 8 ∧
    (defaultConfig.adjLut.get (15 : Nibble).toFin).toInt = 8 := by decide

/-- Settles O5, by the range of the default entries and the effect of `DecodeSample` at the last of them. -/
theorem defaultTableMovesStayInRange : Obligations.DefaultTableMovesStayInRange := by
  obtain ⟨hup, hdown, hadj7, hadj15⟩ := difference_default_last
  refine ⟨fun i n => ?range, fun c s hcfg hidx => ⟨fun hlo => ?upper, fun hhi => ?lower⟩⟩
  case range =>
    obtain ⟨hmin, hmax, hfirst⟩ := defaultSteps_range i
    have hsum := magnitude_of_plainSum_lt (defaultConfig.stepLut.get i) n (plainSum_lt_of_step_le _ n (by omega))
    have hle := plainSum_le (defaultConfig.stepLut.get i).toNat n
    rw [← Int.natAbs_eq_zero, difference_natAbs, hsum, plainSum_eq_zero_iff _ n (by omega), hfirst]
    exact ⟨by omega, Iff.rfl⟩
  case upper =>
    obtain ⟨hpred, hi, -⟩ := sampleEffect_decodeOn c 7 s
    rw [indexAdjust, hcfg, hidx, hadj7] at hi
    rw [hcfg, hidx, hup] at hpred
    refine ⟨_, exec_nibbleInstr c 7 s, by omega, Fin.eq_of_val_eq ?_⟩
    exact Int.ofNat_inj.1 hi
  case lower =>
    obtain ⟨hpred, hi, -⟩ := sampleEffect_decodeOn c 15 s
    rw [indexAdjust, hcfg, hidx, hadj15] at hi
    rw [hcfg, hidx, hdown] at hpred
    refine ⟨_, exec_nibbleInstr c 15 s, by omega, Fin.eq_of_val_eq ?_⟩
    exact Int.ofNat_inj.1 hi

/-- Settles O7, by the effect of `DecodeSample` with the difference 0 and an index that does not rise. -/
theorem codeZeroAtIndexZeroStays : Obligations.CodeZeroAtIndexZeroStays := by
  refine ⟨fun c s hstep hadj hidx => ?stays, by decide, by decide⟩
  case stays =>
    have hzero : difference (s.cfg.stepLut.get (s.chan c).idx) 0 = 0 := by
      rw [difference_of_positive _ 0 rfl, hidx, magnitude_toNat]
      exact congrArg Int.ofNat hstep
    obtain ⟨hpred, hi, -⟩ := sampleEffect_decodeOn c 0 s
    rw [hzero] at hpred
    rw [hidx, indexAdjust] at hi
    have hlo : -32768 ≤ (s.chan c).pred.toInt := BitVec.le_toInt _
    have hhi : (s.chan c).pred.toInt < 32768 := BitVec.toInt_lt
    refine ⟨_, exec_nibbleInstr c 0 s, BitVec.eq_of_toInt_eq (by omega), Fin.eq_of_val_eq ?_⟩
    have hadj0 : (s.cfg.adjLut.get (0 : Nibble).toFin).toInt ≤ 0 := hadj
    have h0 : ((0 : Fin 89).val : Int) = 0 := rfl
    omega

/-! ### The two channels -/

/-- `DecodeSample` operations on different channels commute (41_sample_decoder R127). -/
theorem decodeOn_comm (c d : Channel) (n m : Nibble) (s : State) (h : c ≠ d) :
    decodeOn d m (decodeOn c n s) = decodeOn c n (decodeOn d m s) := by
  simp only [decodeOn, setChan_cfg, chan_setChan_of_ne s c d _ h.symm, chan_setChan_of_ne s d c _ h]
  exact setChan_comm s c d _ _ h

/-- Settles O6, by the commutation of `DecodeSample` on the two channels. -/
theorem channelsDecodeIndependently : Obligations.ChannelsDecodeIndependently := by
  intro n m s
  refine ⟨decodeOn .ch0 n s, decodeOn .ch1 m s, decodeOn .ch1 m (decodeOn .ch0 n s), exec_nibbleInstr _ _ _,
    exec_nibbleInstr _ _ _, exec_nibbleInstr _ _ _, ?_, ?_, ?_⟩
  · rw [decodeOn_comm .ch0 .ch1 n m s (by decide)]
    exact exec_nibbleInstr _ _ _
  · exact chan_decodeOn_of_ne .ch1 .ch0 m _ (by decide)
  · rw [decodeOn_comm .ch0 .ch1 n m s (by decide)]
    exact chan_decodeOn_of_ne .ch0 .ch1 n _ (by decide)

end Sys2Proof.Machine
end

section
/-! PROOF. O11, O19, O20, O21, O25, O26, O45 (10_state R30 to R34; 42_block_framer R160 to R165; 44_host_commands R210 to
R216): the step carries out the pending move, or takes the decoder's turn, and what the move or the turn does is read off
the register map and the fetch. -/

namespace Sys2Proof.Machine

/-- Settles O11: both are an ending of a run. -/
theorem endAndStopOnlySetStatus : Obligations.EndAndStopOnlySetStatus := fun _ _ => ⟨rfl, rfl⟩

/-- Settles O25. -/
theorem decoderIsStillOutsideARun : Obligations.DecoderIsStillOutsideARun := fun s hr hturn => step_decoder_still s hturn hr

/-! ### The register map -/

/-- `STATUS` as a number: `STATE` in bits 1:0, `CAUSE` in bits 6:4 (10_state R30). -/
theorem status_toNat (s : State) :
    s.status.toNat =
      (match s.runState with | .idle => 0 | .run => 1 | .done => 2 | .fault => 3) +
      16 * (match s.cause with
        | .noCause => 0 | .endOfInput => 1 | .reservedStop => 2 | .invalidConfig => 3 | .invalidInput => 4) := by
  unfold State.status
  cases s.runState <;> cases s.cause <;> rfl

/-- A register number beyond the map reads 0 (10_state R30). -/
theorem readReg_beyond (s : State) (n : Nat) (h : 7 ≤ n) : s.readReg n = 0 := by
  obtain ⟨k, rfl⟩ : ∃ k, n = k + 7 := ⟨n - 7, by omega⟩
  rfl

/-- A 16-bit register as a 32-bit word keeps its value. -/
theorem setWidth_half_toNat (h : Half) : (h.setWidth 32).toNat = h.toNat := by
  have := h.isLt
  rw [BitVec.toNat_setWidth, Nat.mod_eq_of_lt (by omega)]

/-- Settles O19, register by register. -/
theorem registerReadsFollowTheMap : Obligations.RegisterReadsFollowTheMap := by
  intro n rest s hin
  refine ⟨s.readReg n, step_readReg s n rest hin, ?_, ?_, ?_, ?_, ?_, ?_, ?_, ?_⟩
  · rintro rfl; rfl
  · rintro rfl; exact status_toNat s
  · rintro rfl; exact setWidth_half_toNat s.nch
  · rintro rfl; exact setWidth_half_toNat s.fsz
  · rintro rfl; rfl
  · rintro rfl; rfl
  · rintro rfl; rfl
  · intro h; rw [readReg_beyond s n h]; rfl

/-- A pending write of a register other than `CTRL` is what the step carries out. -/
theorem step_writeConfig (s : State) (n : Nat) (v : Word) (rest : List Input) (h : s.inputs = .writeReg n v :: rest)
    (hn : n ≠ 0) : step s = .next ({ s with inputs := rest }.writeConfig n v) :=
  (step_host s (.writeReg n v) rest h (by simp)).trans (if_neg hn)

/-- A write of a register changes the three configuration registers alone. -/
theorem writeConfig_frame (s : State) (n : Nat) (v : Word) :
    let t := s.writeConfig n v
    t = { s with nch := t.nch, fsz := t.fsz, ilen := t.ilen } := by
  ext1 <;> simp

/-- What a write leaves in each of them (10_state R30, R32). -/
theorem writeConfig_registers (s : State) (n : Nat) (v : Word) :
    (s.writeConfig n v).nch = (if n = 2 ∧ s.runState ≠ .run then v.setWidth 16 else s.nch) ∧
    (s.writeConfig n v).fsz = (if n = 3 ∧ s.runState ≠ .run then v.setWidth 16 else s.fsz) ∧
    (s.writeConfig n v).ilen = (if n = 4 ∧ s.runState ≠ .run then v else s.ilen) := by
  by_cases hr : s.runState = .run
  · simp [writeConfig_of_run s n v hr, hr]
  · unfold State.writeConfig
    rw [if_neg hr]
    split
    · simp [hr]
    · simp [hr]
    · simp [hr]
    · next h2 h3 h4 => exact ⟨(if_neg fun h => h2 h.1).symm, (if_neg fun h => h3 h.1).symm, (if_neg fun h => h4 h.1).symm⟩

/-- Settles O20, by the frame of the write and what it leaves in the three registers. -/
theorem registerWritesFollowTheMap : Obligations.RegisterWritesFollowTheMap := by
  intro n v rest s hin hn
  obtain ⟨hnch, hfsz, hilen⟩ := writeConfig_registers { s with inputs := rest } n v
  refine ⟨_, step_writeConfig s n v rest hin hn, writeConfig_frame { s with inputs := rest } n v, ?_, ?_, hilen⟩
  · rw [hnch, apply_ite BitVec.toNat, BitVec.toNat_setWidth]
  · rw [hfsz, apply_ite BitVec.toNat, BitVec.toNat_setWidth]

/-! ### The host's accesses to the memories -/

section
variable {s : State} {m : Input} {rest : List Input} {why : Refusal} {o : Host.Outcome State Fault Refusal}
  (hin : s.inputs = m :: rest) (hm : m ≠ .decoder)
  (hmove : hostMove m { s with inputs := rest } = unlessRunning why { s with inputs := rest } o)
include hin hm hmove

/-- Outside a run the step carries out a move that is kept out of runs. -/
theorem step_keptOut_idle (hr : s.runState ≠ .run) : step s = o := by
  rw [step_host s m rest hin hm, hmove]
  exact unlessRunning_idle why _ o hr

/-- In a run the step refuses it. -/
theorem step_keptOut_run (hr : s.runState = .run) : step s = .refused why := by
  rw [step_host s m rest hin hm, hmove]
  exact unlessRunning_run why _ o hr

end

/-- Settles O21, by the law of the moves kept out of runs, at the step of each of the three. -/
theorem hostMemoryMovesOnlyOutsideARun : Obligations.HostMemoryMovesOnlyOutsideARun := by
  intro a b rest s
  refine ⟨fun hin hr => ?write, fun hin hr => ?readInput, fun hin hr => ?readOutput, fun hin hr => ?refused⟩
  case write =>
    refine ⟨_, step_keptOut_idle hin nofun rfl hr, rfl, by rw [imemByte_imemWrite, if_pos rfl], fun k hk => ?_⟩
    rw [imemByte_imemWrite, if_neg hk]
    rfl
  case readInput =>
    rw [BitVec.ofNat_toNat]
    exact step_keptOut_idle hin nofun rfl hr
  case readOutput =>
    rw [BitVec.ofNat_toNat]
    exact step_keptOut_idle hin nofun rfl hr
  case refused =>
    rcases hin with hin | hin | hin
    · exact step_keptOut_run hin nofun rfl hr
    · exact step_keptOut_run hin nofun rfl hr
    · exact step_keptOut_run hin nofun rfl hr

/-! ### The instruction a step executes -/

/-- A unit that decodes at a place is what the fetch finds there. -/
theorem fetchUnit_of_decode {s : State} {p : Place} {n : Nat} {i : Instr} {rest : List Byte}
    (h : decode p (s.readInput s.icur.toNat n) = .instr i rest) : fetchUnit s p n = .instr i := by
  rw [fetchUnit, h]

/-- Step selection inside a block (42_block_framer R160). -/
theorem fetch_of_region (s : State) (hb : s.icur.toNat % s.fsz.toNat ≠ 0) :
    fetch s = fetchUnit s (.region (modeOf s.nch)) (unitBytes (modeOf s.nch)) :=
  if_neg (by simpa [State.atBoundary] using hb)

/-- On the decoder's turn in a run the step executes the instruction that the fetch finds. -/
theorem step_of_fetch_instr {s : State} {i : Instr} (hturn : DecoderTurn s) (hr : s.runState = .run)
    (h : fetch s = .instr i) : step s = exec i { s with inputs := s.inputs.tail } := by
  have hf : fetch { s with inputs := s.inputs.tail } = .instr i :=
    (fetch_congr { s with inputs := s.inputs.tail } s rfl ⟨rfl, rfl, rfl, rfl, fun _ _ => rfl⟩).trans h
  rw [step_decoder s hturn, decoderStep_run { s with inputs := s.inputs.tail } hr, hf]

/-- Settles O26, place by place. -/
theorem stepRunsTheDecodedInstruction : Obligations.StepRunsTheDecodedInstruction := by
  refine ⟨fun s i rest hturn hr => ⟨fun hb h0 => ?inputEnd, fun hb h0 h4 hd => ?boundary, fun hb hd => ?region⟩,
    fun s v i tail hin hd => ?command, fun s c n tail hin => ⟨fun hr => ?nibble, fun hr => ?refused⟩⟩
  case inputEnd =>
    exact step_of_fetch_instr hturn hr ((fetch_of_boundary s hb).trans (fetchBoundary_of_inputEnd s h0))
  case boundary =>
    refine step_of_fetch_instr hturn hr ((fetch_of_boundary s hb).trans ?_)
    have hin : fetchBoundary s = fetchUnit s (.boundary (modeOf s.nch)) (4 * (modeOf s.nch).channels) :=
      (if_neg h0).trans (if_neg (not_lt.mpr h4))
    exact hin.trans (fetchUnit_of_decode hd)
  case region =>
    have hlen : unitBytes (modeOf s.nch) = if s.nch.toNat = 1 then 1 else 8 := by
      rw [modeOf]
      split <;> rfl
    refine step_of_fetch_instr hturn hr ((fetch_of_region s hb).trans ?_)
    rw [hlen]
    exact fetchUnit_of_decode hd
  case command =>
    rw [step_writeCtrl s v tail hin, writeCtrl, hd]
  case nibble => exact step_keptOut_idle hin nofun rfl hr
  case refused => exact step_keptOut_run hin nofun rfl hr

/-! ### The result -/

/-- The bytes of `OMEM` from an offset on, by position. -/
theorem outputBytes_eq (s : State) (n a : Nat) : s.outputBytes a n = (List.range n).map fun j => s.omemByte (a + j) := by
  induction n generalizing a with
  | zero => rfl
  | succ n ih =>
    rw [State.outputBytes, ih, List.range_succ_eq_map, List.map_cons, List.map_map]
    refine congrArg _ (List.map_congr_left fun j _ => ?_)
    rw [Function.comp_apply, Nat.succ_eq_add_one, Nat.add_right_comm, Nat.add_assoc]

/-- Settles O45, by the bytes of the result. -/
theorem resultIsTheOutputOfADoneRun : Obligations.ResultIsTheOutputOfADoneRun := by
  refine fun s => ⟨fun hr => ⟨s.outputBytes 0 s.olen.toNat, if_pos hr, ?length, fun j hj => ?byte⟩, fun hr => if_neg hr⟩
  case length => rw [outputBytes_eq, List.length_map, List.length_range]
  case byte =>
    rw [outputBytes_eq, List.getElem?_map, List.getElem?_range hj, Option.map_some, Nat.zero_add]

end Sys2Proof.Machine
end

section
/-! PROOF. O27 (log 9, log 10): the framing that a placement sets makes the decoder read the placed bytes as the unit of
their place, so the step executes what they decode to. -/

namespace Sys2Proof.Machine

/-- The placed bytes are the unit that the fetch reads at their offset. -/
theorem fetchUnit_inRun (s : State) (nch fsz : Half) (a : Word) {p : Place} {bs rest : List Byte} {i : Instr}
    (hfit : a.toNat + bs.length < 2 ^ 32) (hd : decode p bs = .instr i rest) :
    fetchUnit (s.inRun nch fsz a bs) p bs.length = .instr i := by
  have hread : (s.inRun nch fsz a bs).readInput a.toNat bs.length = bs := by
    refine readInput_imemLoad bs s _ a rfl ?_
    have hilen : (s.inRun nch fsz a bs).ilen.toNat = (a.toNat + bs.length) % 2 ^ 32 := add_ofNat_toNat a bs.length
    rw [hilen, Nat.mod_eq_of_lt hfit]
  refine fetchUnit_of_decode (rest := rest) ?_
  rw [show (s.inRun nch fsz a bs).icur = a from rfl, hread, hd]

/-- A placed preamble is fetched at the boundary it stands at. -/
theorem fetch_inRun_boundary (s : State) (m : Mode) (nch fsz : Half) {bs rest : List Byte} {i : Instr}
    (hn : nch.toNat = m.channels) (hm : modeOf nch = m) (hlen : bs.length = 4 * m.channels)
    (hd : decode (.boundary m) bs = .instr i rest) : fetch (s.inRun nch fsz 0 bs) = .instr i := by
  have hpos : 0 < m.channels ∧ m.channels ≤ 2 := by cases m <;> decide
  have hrem : (s.inRun nch fsz 0 bs).remaining = bs.length := by
    have hilen : (s.inRun nch fsz 0 bs).ilen.toNat = (0 + bs.length) % 2 ^ 32 := add_ofNat_toNat 0 bs.length
    rw [State.remaining, hilen, show (s.inRun nch fsz 0 bs).icur.toNat = 0 from rfl]
    omega
  have hnch : (s.inRun nch fsz 0 bs).nch = nch := rfl
  rw [fetch_of_boundary _ (Nat.zero_mod _), fetchBoundary, if_neg (by omega), if_neg (by rw [hnch]; omega), hnch, hm, ← hlen]
  exact fetchUnit_inRun s nch fsz 0 (by rw [hlen]; show 0 + _ < _; omega) hd

/-- A placed data unit is fetched in the sample region it stands in. -/
theorem fetch_inRun_region (s : State) (m : Mode) (nch fsz : Half) (a : Word) {bs rest : List Byte} {i : Instr}
    (hb : a.toNat % fsz.toNat ≠ 0) (hm : modeOf nch = m) (hlen : bs.length = unitBytes m)
    (hfit : a.toNat + bs.length < 2 ^ 32) (hd : decode (.region m) bs = .instr i rest) :
    fetch (s.inRun nch fsz a bs) = .instr i := by
  have hf := fetch_of_region (s.inRun nch fsz a bs) hb
  rw [hf, show (s.inRun nch fsz a bs).nch = nch from rfl, hm, ← hlen]
  exact fetchUnit_inRun s nch fsz a hfit hd

/-- A placed unit of a run is what the step executes, with the pending moves as they were. -/
theorem step_inRun (s : State) (nch fsz : Half) (a : Word) (bs : List Byte) {i : Instr}
    (hf : fetch (s.inRun nch fsz a bs) = .instr i) :
    step (s.inRun nch fsz a bs) = exec i { s.inRun nch fsz a bs with inputs := s.inputs } := by
  obtain ⟨hturn, htail⟩ := inRun_turn s nch fsz a bs
  rw [step_of_fetch_instr hturn rfl hf, htail]

/-- A state taken out of a run is in none. -/
theorem outsideRun_runState (s : State) : s.outsideRun.runState ≠ .run := by
  unfold State.outsideRun
  cases h : s.runState <;> simp

/-- Bytes placed at a place that they are the unit of are what the next step executes. -/
theorem step_placeBytes (s : State) (p : Place) {bs rest : List Byte} {i : Instr}
    (hlen : bs.length = Laws.unitLength p) (hd : decode p bs = .instr i rest) :
    step (placeBytes s p bs) = exec i { placeBytes s p bs with inputs := s.inputs } := by
  cases p with
  | finished =>
    cases hd
    refine step_inRun s 1 4 0 [] ?_
    exact (fetch_of_boundary _ (Nat.zero_mod _)).trans (fetchBoundary_of_inputEnd _ rfl)
  | boundary m =>
    cases m with
    | mono => exact step_inRun s 1 4 0 bs (fetch_inRun_boundary s .mono 1 4 rfl rfl hlen hd)
    | stereo => exact step_inRun s 2 8 0 bs (fetch_inRun_boundary s .stereo 2 8 rfl rfl hlen hd)
  | region m =>
    cases m with
    | mono => exact step_inRun s 1 5 4 bs (fetch_inRun_region s .mono 1 5 4 (by decide) rfl hlen (by rw [hlen]; decide) hd)
    | stereo => exact step_inRun s 2 16 8 bs (fetch_inRun_region s .stereo 2 16 8 (by decide) rfl hlen (by rw [hlen]; decide) hd)
  | lane c =>
    match bs, hlen with
    | [b], _ =>
      obtain ⟨-, -, hnibble⟩ := stepRunsTheDecodedInstruction
      obtain ⟨hrun, -⟩ := hnibble (placeBytes s (.lane c) [b]) c (lowNibble b) s.inputs rfl
      by_cases hhigh : highNibble b = 0
      · simp only [decode, hhigh, if_true] at hd
        cases hd
        exact hrun (outsideRun_runState s)
      · simp only [decode, hhigh, if_false] at hd
        cases hd
  | ctrl =>
    match bs, hlen with
    | [b0, b1, b2, b3], _ =>
      obtain ⟨-, hcommand, -⟩ := stepRunsTheDecodedInstruction
      refine hcommand (placeBytes s .ctrl [b0, b1, b2, b3]) (wordOf b0 b1 b2 b3) i s.inputs rfl ?_
      rw [bytes_wordOf, hd]
      cases hc : decodeCtrl (wordOf b0 b1 b2 b3) with
      | none => simp [decode, hc] at hd
      | some i' =>
        simp only [decode, hc] at hd
        cases hd
        rfl

/-- The bytes of a table word are a unit of the place it is read at. -/
theorem tablePlace_length {nbits w : Nat} {p : Place} (h : tablePlace nbits w = some p) :
    (tableBytes nbits w).length = Laws.unitLength p := by
  rw [tableBytes_length]
  unfold tablePlace at h
  by_cases h0 : nbits = 0
  · rw [if_pos h0] at h; cases h; rw [h0]; rfl
  rw [if_neg h0] at h
  by_cases h8 : nbits ≤ 8
  · rw [if_pos h8] at h
    have hone : (nbits + 7) / 8 = 1 := by omega
    split at h <;> cases h <;> exact hone
  rw [if_neg h8] at h
  by_cases h32 : nbits = 32
  · rw [if_pos h32] at h
    split at h <;> cases h <;> rw [h32] <;> rfl
  rw [if_neg h32] at h
  by_cases h64 : nbits = 64
  · rw [if_pos h64] at h; cases h; rw [h64]; rfl
  · rw [if_neg h64] at h; cases h

/-- Settles O27, by the placement of the word's bytes at the place the word is read at. -/
theorem placedWordRunsNext : Obligations.PlacedWordRunsNext := by
  intro s nbits w i h
  unfold decodeTableWord at h
  cases hp : tablePlace nbits w with
  | none => simp [hp] at h
  | some p =>
    have hplaced : s.withFetchWord nbits w = placeBytes s p (tableBytes nbits w) := by
      rw [State.withFetchWord, placeWord, hp]
    cases hd : decode p (tableBytes nbits w) with
    | reject e => simp [hp, hd] at h
    | instr i' rest =>
      simp only [hp, hd, Option.some.injEq] at h
      subst h
      rw [hplaced]
      exact step_placeBytes s p (tablePlace_length hp) hd

end Sys2Proof.Machine
end

section
/-! PROOF. O46, O47 (45_host_wav_container R230 to R236): a header field read back from its bytes is the field; the host's
moves for a file are the load of its stream, the three configuration writes, and `START`. -/

namespace Sys2Proof.Machine

/-! ### The output header -/

/-- A 16-bit field is read back from its bytes. -/
theorem halfOf_loByte_hiByte (h : Half) : halfOf (loByte h) (hiByte h) = h := by
  apply BitVec.eq_of_toNat_eq
  rw [halfOf_toNat, loByte_hiByte]

/-- The fields of the output header as they are read back (45_host_wav_container R235). -/
theorem outputHeader_fields (info : WavFormatInfo) (olen : Word) :
    let h := outputHeader info olen
    h.length = 44 ∧ headerWord h 4 = 36 + olen ∧ headerHalf h 20 = 1 ∧ headerHalf h 22 = info.numChannels ∧
    headerWord h 24 = info.sampleRate ∧ headerWord h 28 = info.sampleRate * info.numChannels.setWidth 32 * 2 ∧
    headerHalf h 32 = info.numChannels * 2 ∧ headerHalf h 34 = 16 ∧ headerWord h 40 = olen := by
  intro h
  have hbytes : h = outputHeader info olen := rfl
  simp only [outputHeader, halfBytes, bytesOfWord, List.cons_append, List.nil_append] at hbytes
  simp only [hbytes, headerHalf, headerWord, List.getD_cons_succ, List.getD_cons_zero, halfOf_loByte_hiByte, wordOf_bytes,
    and_true, List.length_cons, List.length_nil]

/-- The byte rate is cut to its field (log 19). -/
theorem byteRate_toNat (rate : Word) (channels : Half) :
    (rate * channels.setWidth 32 * 2).toNat = rate.toNat * channels.toNat * 2 % 2 ^ 32 := by
  rw [BitVec.toNat_mul, BitVec.toNat_mul, setWidth_half_toNat, Nat.mod_mul_mod]
  rfl

/-- Settles O46, by the fields as they are read back. -/
theorem outputHeaderFields : Obligations.OutputHeaderFields := by
  refine ⟨fun info olen => ?fields, fun info n hrate hchannels hfit => ?worked⟩
  case fields =>
    obtain ⟨hlen, hsize, hformat, hnch, hrate, hbyteRate, halign, hbits, hdata⟩ := outputHeader_fields info olen
    refine ⟨hlen, hformat, hnch, hrate, ?_, ?_, hbits, hdata, ?_⟩
    · rw [hbyteRate, byteRate_toNat]
    · rw [halign, BitVec.toNat_mul]; rfl
    · rw [hsize, BitVec.toNat_add]; rfl
  case worked =>
    obtain ⟨-, hsize, -, -, -, hbyteRate, halign, -, hdata⟩ := outputHeader_fields info (BitVec.ofNat 32 (n * 2))
    have hn : (BitVec.ofNat 32 (n * 2)).toNat = n * 2 := by
      rw [BitVec.toNat_ofNat, Nat.mod_eq_of_lt (by omega)]
    refine ⟨by rw [hdata, hn], ?_, by rw [halign, hchannels]; rfl, by rw [hbyteRate, hrate, hchannels]; rfl⟩
    rw [hsize, BitVec.toNat_add, hn]
    exact Nat.mod_eq_of_lt hfit

/-! ### The host's moves for a file -/

/-- The files that have moves (log 19). -/
theorem canLoad_iff (file : List Byte) : canLoad file = true ↔ 44 ≤ file.length ∧ file.length - 44 < 2 ^ 32 := by
  rw [canLoad, Bool.and_eq_true, decide_eq_true_eq, decide_eq_true_eq]

theorem streamWrites_length (a : Word) (bs : List Byte) : (streamWrites a bs).length = bs.length := by
  induction bs generalizing a with
  | nil => rfl
  | cons b bs ih => rw [streamWrites, List.length_cons, List.length_cons, ih]

/-- The host's writes of a stream, carried out outside a run, load it. -/
theorem run_streamWrites (bs : List Byte) (a : Word) (s : State) (rest : List Input) (hr : s.runState ≠ .run) :
    Host.Core.run Sys2Proof.core bs.length { s with inputs := streamWrites a bs ++ rest } =
      .next { s.imemLoad a bs with inputs := rest } := by
  induction bs generalizing a s with
  | nil => rfl
  | cons b bs ih =>
    have hstep : step { s with inputs := streamWrites a (b :: bs) ++ rest } =
        .next { s.imemWrite a b with inputs := streamWrites (a + 1) bs ++ rest } :=
      step_keptOut_idle (m := .writeIMem a b) rfl nofun rfl hr
    exact (run_succ _ _ _ hstep).trans (ih (a + 1) (s.imemWrite a b) hr)

/-- A 16-bit value written as a 32-bit word is the value. -/
theorem setWidth_setWidth_half (h : Half) : (h.setWidth 32).setWidth 16 = h := by
  have := h.isLt
  apply BitVec.eq_of_toNat_eq
  rw [BitVec.toNat_setWidth, setWidth_half_toNat, Nat.mod_eq_of_lt this]

/-- The host's three configuration writes, carried out outside a run (10_state R30). -/
theorem run_configWrites (s : State) (nch fsz : Half) (ilen : Word) (rest : List Input) (hr : s.runState ≠ .run) :
    Host.Core.run Sys2Proof.core 3
        { s with inputs := .writeReg 2 (nch.setWidth 32) :: .writeReg 3 (fsz.setWidth 32) :: .writeReg 4 ilen :: rest } =
      .next { s with nch := nch, fsz := fsz, ilen := ilen, inputs := rest } := by
  have hnch : step { s with
        inputs := .writeReg 2 (nch.setWidth 32) :: .writeReg 3 (fsz.setWidth 32) :: .writeReg 4 ilen :: rest } =
      .next { s with nch := nch, inputs := .writeReg 3 (fsz.setWidth 32) :: .writeReg 4 ilen :: rest } := by
    rw [step_writeConfig _ 2 _ _ rfl (by decide), State.writeConfig, if_neg hr, setWidth_setWidth_half]
  have hfsz : step { s with nch := nch, inputs := .writeReg 3 (fsz.setWidth 32) :: .writeReg 4 ilen :: rest } =
      .next { s with nch := nch, fsz := fsz, inputs := .writeReg 4 ilen :: rest } := by
    rw [step_writeConfig _ 3 _ _ rfl (by decide), State.writeConfig, if_neg hr, setWidth_setWidth_half]
  have hilen : step { s with nch := nch, fsz := fsz, inputs := .writeReg 4 ilen :: rest } =
      .next { s with nch := nch, fsz := fsz, ilen := ilen, inputs := rest } := by
    rw [step_writeConfig _ 4 _ _ rfl (by decide), State.writeConfig, if_neg hr]
  rw [run_succ 2 _ _ hnch, run_succ 1 _ _ hfsz]
  exact run_succ 0 _ _ hilen

/-- What the host's moves for a file leave before `START`. -/
def State.loadedFile (s : State) (src : IlenSource) (file : List Byte) : State :=
  { s.imemLoad 0 (file.drop 44) with
    nch := (parseInfo file).numChannels
    fsz := (parseInfo file).frameSize
    ilen := inputLength src file
    inputs := [.writeReg 0 1] }

/-- All moves for a file but the last, carried out outside a run. -/
theorem run_hostMoves {src : IlenSource} {file : List Byte} {moves : List Input} (s : State)
    (h : hostMoves src file = some moves) (hr : s.runState ≠ .run) :
    Host.Core.run Sys2Proof.core (moves.length - 1) { s with inputs := moves } = .next (s.loadedFile src file) := by
  unfold hostMoves at h
  by_cases hload : canLoad file = true
  · rw [if_pos hload, Option.some.injEq] at h
    subst h
    have hlen : (streamWrites 0 (file.drop 44) ++
        [Input.writeReg 2 ((parseInfo file).numChannels.setWidth 32),
         .writeReg 3 ((parseInfo file).frameSize.setWidth 32), .writeReg 4 (inputLength src file), .writeReg 0 1]).length - 1 =
        (file.drop 44).length + 3 := by
      rw [List.length_append, streamWrites_length]
      rfl
    have hrun : (s.imemLoad 0 (file.drop 44)).runState ≠ .run := by rwa [imemLoad_frame]
    rw [hlen, run_add _ 3 _ _ (run_streamWrites (file.drop 44) 0 s _ hr)]
    exact run_configWrites (s.imemLoad 0 (file.drop 44)) _ _ _ [.writeReg 0 1] hrun
  · rw [if_neg hload] at h
    cases h

/-- A pending `START` that is accepted begins a run or raises its fault. -/
theorem step_start_of_accepted (s : State) (rest : List Input) (hin : s.inputs = .writeReg 0 1 :: rest)
    (hr : s.runState = .idle ∨ s.runState = .done) : ∃ u : State, step s = .next u ∧
      (LegalConfig s → u.runState = .run ∧ u.cause = .noCause) ∧
      (¬ LegalConfig s → u.runState = .fault ∧ u.cause = .invalidConfig) := by
  rw [step_writeCtrl s 1 rest hin, writeCtrl_of_startBit 1 _ (by decide) (by decide) 0]
  by_cases hl : LegalConfig s
  · exact ⟨_, exec_start_of_legal 0 { s with inputs := rest } hr hl, fun _ => ⟨rfl, rfl⟩, absurd hl⟩
  · exact ⟨_, exec_start_of_illegal 0 { s with inputs := rest } hr hl, fun h => absurd h hl, fun _ => ⟨rfl, rfl⟩⟩

/-- The count of bytes that the container gives the block (45_host_wav_container R233). -/
theorem inputLength_toNat (src : IlenSource) (file : List Byte) (h : file.length - 44 < 2 ^ 32) :
    (inputLength src file).toNat =
      match src with
      | .headerDataSize => (headerWord file 40).toNat
      | .bytesPresent => file.length - 44 := by
  cases src with
  | headerDataSize => rfl
  | bytesPresent => exact Nat.mod_eq_of_lt h

/-- Settles O47, by the load, the configuration writes and the outcomes of `START`. -/
theorem hostMovesLoadTheStream : Obligations.HostMovesLoadTheStream := by
  refine ⟨fun src file => ?exist, fun src file moves s h hr => ?load⟩
  case exist =>
    rw [← canLoad_iff, hostMoves]
    by_cases hload : canLoad file = true
    · rw [if_pos hload]
      exact ⟨fun _ => hload, fun _ => ⟨_, rfl⟩⟩
    · rw [if_neg hload]
      exact ⟨nofun, fun h => absurd h hload⟩
  case load =>
    have hload : canLoad file = true := by
      by_contra hno
      rw [hostMoves, if_neg hno] at h
      cases h
    obtain ⟨hheader, hfit⟩ := (canLoad_iff file).1 hload
    have hlen : (file.drop 44).length = file.length - 44 := List.length_drop
    have hzero : (0 : Word).toNat = 0 := rfl
    have hrun : (s.imemLoad 0 (file.drop 44)).runState = s.runState := by rw [imemLoad_frame]
    refine ⟨s.loadedFile src file, run_hostMoves s h hr, rfl, rfl, rfl, inputLength_toNat src file hfit, fun j hj => ?byte,
      fun a ha => ?kept, fun hacc => step_start_of_accepted _ [] rfl (by rwa [← hrun] at hacc)⟩
    case byte =>
      have hbyte := imemByte_imemLoad (file.drop 44) s 0 j (by omega) (by omega)
      rwa [hzero, Nat.zero_add, List.getElem?_drop] at hbyte
    case kept => exact imemByte_imemLoad_after (file.drop 44) s 0 a (by omega) (by omega)

end Sys2Proof.Machine
end
